-- ==== Sys2Proof/Word.lean ====
section
/-! DEFINITION. The word types of the CORE. -/

namespace Sys2Proof

/-- A byte, the unit of every source space (20_memory.md R61). -/
abbrev Byte := BitVec 8

/-- A register of `ACC_BITS` = 32 bits: `SC.MEM1`, `SC.MEM2`, `BR.RES`
(00_scope.md R11, 10_state.md R27, R33). -/
abbrev Word := BitVec 32

/-- A signed 16-bit output sample (10_state.md R34). -/
abbrev Sample := BitVec 16

/-- A register of `WIDTH_BITS` = 17 bits: `SC.W` (00_scope.md R11, 10_state.md R32). -/
abbrev Width := BitVec 17

end Sys2Proof
end

