-- ==== Sys2Proof/Machine/Registers.lean ====
section
/-! DEFINITION. The registers of the three units, as plain data: 10_state.md R22 to R41.
A default value of a field is its power-on value (R45). -/

namespace Sys2Proof.Machine

/-- The error kinds of 60_exceptions.md R260; `noError` is code 0. -/
inductive ErrKind where
  | noError
  | badParameter
  | endOfStream
  | decodingError
  | invalidSource
  deriving DecidableEq, Repr, Inhabited

/-- The 3-bit code an `ERR` register holds (R260). -/
def ErrKind.code : ErrKind → BitVec 3
  | .noError => 0
  | .badParameter => 1
  | .endOfStream => 2
  | .decodingError => 3
  | .invalidSource => 4

/-- `BR.ST` (R27). -/
inductive BrStatus where
  | closed
  | ready
  | dead
  deriving DecidableEq, Repr, Inhabited

/-- `SC.ST` and `PD.ST` (R35, R41). -/
inductive UnitStatus where
  | idle
  | busy
  | done
  | fault
  deriving DecidableEq, Repr, Inhabited

/-- One BitReader instance (R22 to R27). `base` is the binding `BR.SRC`: byte `i` of the source is
byte `base + i` of the instance's space (BSRC for `BR0`, SSRC for `SC.BR`). -/
structure Br where
  st : BrStatus := .closed
  err : ErrKind := .noError
  res : Word := 0
  base : Nat := 0
  len : Nat := 0
  pos : Nat := 0
  buf : BitVec 64 := 0
  cnt : Nat := 0
  deriving DecidableEq, Repr, Inhabited

/-- The SampleCodec (R29 to R35). `blk` is the 16-bit register `SC.BLK`, held as a natural. -/
structure Sc where
  depth16 : Bool := false
  so : Bool := false
  slen : Nat := 0
  srclen : Nat := 0
  spos : Nat := 0
  rem : Nat := 0
  blk : Nat := 0
  w : Width := 0
  mem1 : Word := 0
  mem2 : Word := 0
  out : List Sample := []
  st : UnitStatus := .idle
  err : ErrKind := .noError
  br : Br := {}
  deriving DecidableEq, Repr, Inhabited

/-- One ChannelState record `PD.CH[c]` (R38). -/
structure ChannelState where
  mask : Byte := 0
  note : Byte := 0
  ins : Byte := 0
  vol : Byte := 0
  eff : Byte := 0
  prm : Byte := 0
  deriving DecidableEq, Repr, Inhabited

/-- One PatternEntry, every field at its empty default 0 (R40). -/
structure PatternEntry where
  channel : BitVec 6 := 0
  note : Byte := 0
  instrument : Byte := 0
  volumeCommand : BitVec 4 := 0
  volumeParam : Byte := 0
  effect : Byte := 0
  effectParam : Byte := 0
  deriving DecidableEq, Repr, Inhabited

/-- The four fields of a pattern command, in stream order (30_encoding.md R96). -/
inductive Slot where
  | note
  | ins
  | vol
  | eff
  deriving DecidableEq, Repr, Inhabited

/-- A channel-select command in progress (the locals of 42_patterndecoder.md R215 to R222): its
channel `c`, effective mask `m`, entry `e`, and the selected fields still to do. -/
structure PdCmd where
  chan : BitVec 6 := 0
  mask : Byte := 0
  entry : PatternEntry := {}
  todo : List Slot := []
  deriving DecidableEq, Repr, Inhabited

/-- The PatternDecoder (R36 to R41). `cmd` is the model's own field: none between commands. -/
structure Pd where
  rows : Nat := 0
  srclen : Nat := 0
  pos : Nat := 0
  row : Nat := 0
  ch : Vector ChannelState 64 := Vector.replicate 64 {}
  cur : List PatternEntry := []
  out : List (List PatternEntry) := []
  st : UnitStatus := .idle
  err : ErrKind := .noError
  cmd : Option PdCmd := none
  deriving DecidableEq, Repr, Inhabited

end Sys2Proof.Machine
end

