-- ==== Sys2Proof/Config.lean ====
section
/-! DEFINITION. What an implementation fixes, and the free values. -/

namespace Sys2Proof

/-- The four open parameters of 00_scope.md R8 (92_eei_decisions.md D8): the ends of the Mode B
escape window, relative to the top bit. -/
structure Biases where
  lower8 : Int
  upper8 : Int
  lower16 : Int
  upper16 : Int
  deriving DecidableEq, Repr, Inhabited

/-- One instance of CodecParams (00_scope.md R8). The tables `lower_table` and `upper_table` have
no values in the spec and no rule reads them. -/
structure CodecParams where
  fetchWidth : Nat
  defaultWidth : Nat
  maxBlock : Nat
  native : Nat
  lowerBias : Int
  upperBias : Int
  deriving DecidableEq, Repr, Inhabited

/-- Free value: what the n-th event with an unstated value leaves in a BitReader, a fault in the
registers 60_exceptions.md R270 calls unspecified, `BR.OPEN` in `BR.RES` (10_state.md R28). No
body: nothing may rest on it. -/
opaque Config.freeBr : Nat → Machine.Br

/-- Free value: what the n-th event with an unstated value leaves in SC, a fault in the registers
R270 calls invalid, an escape to a width past 17 bits in `SC.W` (10_state.md R32). -/
opaque Config.freeSc : Nat → Machine.Sc

/-- Free value: what the n-th event with an unstated value, a fault, leaves in the PD registers
R270 calls invalid. -/
opaque Config.freePd : Nat → Machine.Pd

end Sys2Proof
end

