-- ==== Sys2Proof/Machine/Params.lean ====
section
/-! DEFINITION. The constants of 00_scope.md R7 and R8, and the conditions of the opcode map
(30_encoding.md R94, R95, R102) that the syntax, the decoder and the meanings share. -/

namespace Sys2Proof.Machine

/-- The recommended biases, from general knowledge and not in the spec's source
(93_implementation_defined.md G1). PRESUMED; unsafe where a claim rests on the values. -/
def recommendedBiases : Biases := { lower8 := -4, upper8 := 3, lower16 := -8, upper16 := 7 }

/-- The CodecParams instance that `SC.DEPTH16` selects (00_scope.md R8, 10_state.md R29). -/
def codecParams (b : Biases) (depth16 : Bool) : CodecParams :=
  if depth16 then
    { fetchWidth := 4, defaultWidth := 17, maxBlock := 16384, native := 16,
      lowerBias := b.lower16, upperBias := b.upper16 }
  else
    { fetchWidth := 3, defaultWidth := 9, maxBlock := 32768, native := 8,
      lowerBias := b.lower8, upperBias := b.upper8 }

/-- `BR_MAX_WIDTH`, the largest legal read width (R7). -/
abbrev brMaxWidth : Nat := 31

/-- `MODE_A_MAX` (R7). -/
abbrev modeAMax : Nat := 6

/-- `CHUNK_LEN_BYTES` (R7). -/
abbrev chunkLenBytes : Nat := 2

/-- `tb = 1 << (w-1)` (30_encoding.md R92). -/
def topBit (w : Nat) : Nat := 2 ^ (w - 1)

/-- Mode A: `1 <= w <= 6` (R102). -/
def isModeA (w : Nat) : Bool := decide (1 ≤ w) && decide (w ≤ modeAMax)

/-- Mode B: `7 <= w <= W0-1` (R102). -/
def isModeB (cp : CodecParams) (w : Nat) : Bool :=
  decide (modeAMax < w) && decide (w < cp.defaultWidth)

/-- Mode C: `w = W0` (R102). -/
def isModeC (cp : CodecParams) (w : Nat) : Bool :=
  decide (modeAMax < w) && decide (w = cp.defaultWidth)

/-- The escape window of Mode B: `tb + LB <= v <= tb + UB`, inclusive at both ends
(R102, 41_samplecodec.md R172). -/
def inWindow (cp : CodecParams) (w v : Nat) : Bool :=
  decide ((topBit w : Int) + cp.lowerBias ≤ (v : Int)) &&
    decide ((v : Int) ≤ (topBit w : Int) + cp.upperBias)

/-- `v[w-1] = 1` (R92). -/
def topBitSet (w v : Nat) : Bool := v.testBit (w - 1)

/-- `v` is a value of a `w`-bit field (R92). -/
def fits (w v : Nat) : Bool := decide (v < 2 ^ w)

/-- The mask bits that make a field active, present bit and repeat bit (R95). -/
def Slot.active : Slot → Byte
  | .note => 0x11
  | .ins => 0x22
  | .vol => 0x44
  | .eff => 0x88

/-- The mask bit that says the field's bytes follow in the stream (R95). -/
def Slot.present : Slot → Byte
  | .note => 0x01
  | .ins => 0x02
  | .vol => 0x04
  | .eff => 0x08

/-- The mask selects the field: a read or a repeat (R95, opcode table `select_on_mask`). -/
def Slot.selected (m : Byte) (x : Slot) : Bool := decide (m &&& x.active ≠ 0)

/-- The mask has the field's present bit (R95). -/
def Slot.reads (m : Byte) (x : Slot) : Bool := decide (m &&& x.present ≠ 0)

/-- The selected fields, in stream order: note, instrument, volume, effect (R96). -/
def selectedSlots (m : Byte) : List Slot :=
  [Slot.note, Slot.ins, Slot.vol, Slot.eff].filter (Slot.selected m)

/-- `M`, bit 7 of the channel-select byte: a new mask byte follows (R94). -/
def maskFollows (b : Byte) : Bool := b.msb

end Sys2Proof.Machine
end

