-- ==== Sys2Proof/Syntax.lean ====
section
/-! DEFINITION. The instructions of the CORE, one constructor per row of spec/opcode_table.json, and
the forms in which they reach it (30_encoding.md R90 to R96). -/

namespace Sys2Proof

/-- The 18 rows of the opcode table (30_encoding.md R105). Operands that follow the dispatch field
in the stream (the FW field, the mask byte, the field bytes) are read by the instruction's rule. -/
inductive Instr where
  /-- `BR.OPEN len` (40_bitreader.md R130). -/
  | brOpen (len : Nat)
  /-- `BR.READ w`, `w` a signed 32-bit width request (R131). -/
  | brRead (w : Word)
  /-- `SC.DECODE slen, depth16, so, srclen` (41_samplecodec.md R160). -/
  | scDecode (slen : Nat) (depth16 : Bool) (so : Bool) (srclen : Nat)
  /-- `PD.DECODE rows, srclen` (42_patterndecoder.md R210). -/
  | pdDecode (rows : Nat) (srclen : Nat)
  /-- `SC.CHUNK`: a chunk header holding the length `L` (R163 to R165). -/
  | scChunk (len : BitVec 16)
  /-- `SC.A.ESC`: the symbol `tb` at width `w` (R169). -/
  | scAEsc (w : Nat)
  /-- `SC.A.DELTA`: the symbol `v` at width `w` (R170). -/
  | scADelta (w : Nat) (v : Nat)
  /-- `SC.B.ESC`: the symbol `v` at width `w`, inside the escape window (R172). -/
  | scBEsc (w : Nat) (v : Nat)
  /-- `SC.B.DELTA`: the symbol `v` at width `w`, outside the window (R173). -/
  | scBDelta (w : Nat) (v : Nat)
  /-- `SC.C.SETW`: the symbol `v` at width `W0`, top bit set (R175). -/
  | scCSetw (w : Nat) (v : Nat)
  /-- `SC.C.DELTA`: the symbol `v` at width `W0`, top bit clear (R174). -/
  | scCDelta (w : Nat) (v : Nat)
  /-- `PD.END`: the row terminator (R213). -/
  | pdEnd
  /-- `PD.SELM`: the channel-select byte `b` with `b[7] = 1` (R214). -/
  | pdSelm (b : Byte)
  /-- `PD.SEL`: the channel-select byte `b` with `b[7] = 0`, not 0 (R214). -/
  | pdSel (b : Byte)
  /-- `PD.F.NOTE` under the effective mask `m` (R217). -/
  | pdFNote (m : Byte)
  /-- `PD.F.INS` under the effective mask `m` (R218). -/
  | pdFIns (m : Byte)
  /-- `PD.F.VOL` under the effective mask `m` (R219). -/
  | pdFVol (m : Byte)
  /-- `PD.F.EFF` under the effective mask `m` (R220). -/
  | pdFEff (m : Byte)
  deriving DecidableEq, Repr

/-- The names of the host's transactions (R90). -/
inductive CmdName where
  | brOpen
  | brRead
  | scDecode
  | pdDecode
  deriving DecidableEq, Repr

/-- The names of their operands (R90). -/
inductive OperandName where
  | len
  | w
  | slen
  | depth16
  | so
  | srclen
  | rows
  deriving DecidableEq, Repr

/-- Format CMD: a named transaction with named operands, no bit encoding (R90). -/
structure Transaction where
  name : CmdName
  operands : List (OperandName × Int)
  deriving DecidableEq, Repr

/-- What the decoder is given, one constructor per format. -/
inductive Code where
  /-- Format CMD (R90). -/
  | cmd (t : Transaction)
  /-- Format CHUNK: the two header bytes, the lower index first (R91). -/
  | chunk (b0 b1 : Byte)
  /-- Format SYM: a field of `w` bits with value `v` (R92). -/
  | sym (w : Nat) (v : Nat)
  /-- Format SEL: the channel-select byte (R94). -/
  | sel (b : Byte)
  /-- Formats MASK and FIELDS: a field selected by the effective mask (R95, R96). -/
  | field (slot : Machine.Slot) (m : Byte)
  deriving DecidableEq, Repr

end Sys2Proof
end

