-- ==== Sys2Proof/WellFormed.lean ====
section
/-! DEFINITION. Which instruction terms the encodings of 30_encoding.md admit. -/

namespace Sys2Proof

open Machine

/-- The instruction has an encoding under the codec parameters `cp`: the conditions of
30_encoding.md R102 (symbols), R104 (select bytes) and R95 (fields). Host commands have no illegal
operand here: a bad width is found when `BR.READ` runs (R110). -/
def WellFormed (cp : CodecParams) : Instr → Bool
  | .brOpen _ => true
  | .brRead _ => true
  | .scDecode _ _ _ _ => true
  | .pdDecode _ _ => true
  | .scChunk _ => true
  | .scAEsc w => isModeA w && decide (w ≤ cp.defaultWidth)
  | .scADelta w v =>
      isModeA w && decide (w ≤ cp.defaultWidth) && fits w v && decide (v ≠ topBit w)
  | .scBEsc w v => isModeB cp w && fits w v && inWindow cp w v
  | .scBDelta w v => isModeB cp w && fits w v && !inWindow cp w v
  | .scCSetw w v => isModeC cp w && fits w v && topBitSet w v
  | .scCDelta w v => isModeC cp w && fits w v && !topBitSet w v
  | .pdEnd => true
  | .pdSelm b => maskFollows b
  | .pdSel b => !maskFollows b && decide (b ≠ 0)
  | .pdFNote m => Slot.selected m .note
  | .pdFIns m => Slot.selected m .ins
  | .pdFVol m => Slot.selected m .vol
  | .pdFEff m => Slot.selected m .eff

end Sys2Proof
end

