-- ==== Sys2Proof/Decode.lean ====
section
/-! DEFINITION. The decoder, total and rejecting by name, and the encoder written from the same tables
(30_encoding.md). -/

namespace Sys2Proof

open Machine

/-- Why the decoder rejects a form. -/
inductive Reject where
  /-- A transaction whose operands are not those of 30_encoding.md R90, or out of their range. -/
  | badOperands
  /-- A symbol of width 0: no run has one (41_samplecodec.md R182). -/
  | zeroWidth
  /-- A symbol wider than `W0`: the width fault of R102, row 0; nothing is read. -/
  | widthAboveMax
  /-- A value that does not fit its field. -/
  | fieldTooWide
  /-- A field the mask does not select (R95). -/
  | notSelected
  deriving DecidableEq, Repr

/-- A natural-number operand (`LEN_BITS` unsigned, unbounded by D31). -/
def natOperand (n : Int) : Except Reject Nat :=
  if 0 ≤ n then .ok n.toNat else .error .badOperands

/-- A one-bit operand. -/
def bitOperand (n : Int) : Except Reject Bool :=
  if n = 0 then .ok false else if n = 1 then .ok true else .error .badOperands

/-- A signed 32-bit operand (92_eei_decisions.md D5). -/
def signedOperand (n : Int) : Except Reject Word :=
  if -2 ^ 31 ≤ n ∧ n < 2 ^ 31 then .ok (BitVec.ofInt 32 n) else .error .badOperands

/-- Format CMD: the four commands with the operands R90 lists, in its order. -/
def decodeCommand (t : Transaction) : Except Reject Instr :=
  match t.name, t.operands with
  | .brOpen, [(.len, n)] => (natOperand n).map .brOpen
  | .brRead, [(.w, w)] => (signedOperand w).map .brRead
  | .scDecode, [(.slen, n), (.depth16, d), (.so, o), (.srclen, k)] =>
      (natOperand n).bind fun n => (bitOperand d).bind fun d =>
        (bitOperand o).bind fun o => (natOperand k).map fun k => .scDecode n d o k
  | .pdDecode, [(.rows, r), (.srclen, k)] =>
      (natOperand r).bind fun r => (natOperand k).map fun k => .pdDecode r k
  | _, _ => .error .badOperands

/-- Format SYM: the opcode map of R102, its tests in its order. -/
def decodeSymbol (cp : CodecParams) (w v : Nat) : Except Reject Instr :=
  if cp.defaultWidth < w then .error .widthAboveMax
  else if w = 0 then .error .zeroWidth
  else if !fits w v then .error .fieldTooWide
  else if w ≤ modeAMax then
    if v = topBit w then .ok (.scAEsc w) else .ok (.scADelta w v)
  else if w < cp.defaultWidth then
    if inWindow cp w v then .ok (.scBEsc w v) else .ok (.scBDelta w v)
  else
    if topBitSet w v then .ok (.scCSetw w v) else .ok (.scCDelta w v)

/-- Format SEL: the map of R104, its tests in its order. Every byte decodes. -/
def decodeSelect (b : Byte) : Instr :=
  if b = 0 then .pdEnd else if maskFollows b then .pdSelm b else .pdSel b

/-- The field sub-operation a mask selects (R95). -/
def decodeField (x : Slot) (m : Byte) : Except Reject Instr :=
  if Slot.selected m x then
    match x with
    | .note => .ok (.pdFNote m)
    | .ins => .ok (.pdFIns m)
    | .vol => .ok (.pdFVol m)
    | .eff => .ok (.pdFEff m)
  else .error .notSelected

/-- The decoder, under the codec parameters in force. -/
def decode (cp : CodecParams) : Code → Except Reject Instr
  | .cmd t => decodeCommand t
  | .chunk b0 b1 => .ok (.scChunk (b1 ++ b0))
  | .sym w v => decodeSymbol cp w v
  | .sel b => .ok (decodeSelect b)
  | .field x m => decodeField x m

/-- A one-bit operand as the host writes it. -/
def bitValue (b : Bool) : Int := if b then 1 else 0

/-- The encoder: the transaction, header, symbol field, select byte or mask field of an
instruction. -/
def encode : Instr → Code
  | .brOpen len => .cmd { name := .brOpen, operands := [(.len, len)] }
  | .brRead w => .cmd { name := .brRead, operands := [(.w, w.toInt)] }
  | .scDecode slen depth16 so srclen =>
      .cmd { name := .scDecode,
             operands := [(.slen, slen), (.depth16, bitValue depth16), (.so, bitValue so),
               (.srclen, srclen)] }
  | .pdDecode rows srclen =>
      .cmd { name := .pdDecode, operands := [(.rows, rows), (.srclen, srclen)] }
  | .scChunk len => .chunk (len.extractLsb' 0 8) (len.extractLsb' 8 8)
  | .scAEsc w => .sym w (topBit w)
  | .scADelta w v => .sym w v
  | .scBEsc w v => .sym w v
  | .scBDelta w v => .sym w v
  | .scCSetw w v => .sym w v
  | .scCDelta w v => .sym w v
  | .pdEnd => .sel 0
  | .pdSelm b => .sel b
  | .pdSel b => .sel b
  | .pdFNote m => .field .note m
  | .pdFIns m => .field .ins m
  | .pdFVol m => .field .vol m
  | .pdFEff m => .field .eff m

/-- The stream bits of a form, least significant bit first (R15, R63, R64): a header, a symbol
field or a select byte. A transaction has none (R90), and a field's bytes are operands. -/
def Code.bits : Code → List Bool
  | .cmd _ => []
  | .chunk b0 b1 => (List.range 16).map fun k => (b1 ++ b0).getLsbD k
  | .sym w v => (List.range w).map fun k => v.testBit k
  | .sel b => (List.range 8).map fun k => b.getLsbD k
  | .field _ _ => []

/-- The number bits spell, least significant first (`S` of 00_scope.md R15). -/
def bitsValue : List Bool → Nat
  | [] => 0
  | b :: bs => b.toNat + 2 * bitsValue bs

/-- The instruction decoded from a table word: one byte is a channel-select byte, two bytes a chunk
header. The other rows give the table no bits (symbols have no width of their own, commands and
field sub-operations no encoding). -/
def decodeTableWord (nbits w : Nat) : Option Instr :=
  if nbits = 8 then
    (decode (codecParams recommendedBiases false) (.sel (BitVec.ofNat 8 w))).toOption
  else if nbits = 16 then
    (decode (codecParams recommendedBiases false)
      (.chunk (BitVec.ofNat 8 w) (BitVec.ofNat 8 (w >>> 8)))).toOption
  else none

end Sys2Proof
end

