-- ==== Sys2Proof/Machine/Flags.lean ====
section
/-! DEFINITION. The status the CORE keeps: the CORE has no arithmetic flags, its only status is `ST` and
`ERR` of each unit (10_state.md R42). -/

namespace Sys2Proof.Machine

/-- `ST` after a start command of `n` samples or rows: DONE at once when `n = 0`, else BUSY
(R47, R48). -/
def startStatus (n : Nat) : UnitStatus := if n = 0 then .done else .busy

/-- `ST = BUSY`. -/
def UnitStatus.isBusy (st : UnitStatus) : Bool := decide (st = .busy)

/-- Completion of SC: `SC.ST <- DONE` (41_samplecodec.md R180). -/
def scComplete (c : Sc) : Sc := { c with st := .done }

/-- Completion of PD: `PD.ST <- DONE` (42_patterndecoder.md R223). -/
def pdComplete (p : Pd) : Pd := { p with st := .done }

end Sys2Proof.Machine
end

