-- ==== Sys2Proof/Machine/Operands.lean ====
section
/-! DEFINITION. Operand and immediate assembly (30_encoding.md R98 to R101) and the value
translations (41_samplecodec.md R171, R177; 42_patterndecoder.md R225, R226). -/

namespace Sys2Proof.Machine

/-- The value `write` adds: `value - 2*top_bit` when `top_bit` is not 0 and set in `value`
(R176, R98). -/
def writeDelta (value tb : Nat) : Int :=
  if tb ≠ 0 ∧ value &&& tb ≠ 0 then (value : Int) - 2 * (tb : Int) else (value : Int)

/-- `change_width` (R171): the width after an escape carrying `delta` at width `w`. -/
def changeWidth (w delta : Nat) : Nat :=
  let x := delta + 1
  if w ≤ x then x + 1 else x

/-- The delta a Mode B escape carries: `v - (tb + LB)` (R172). -/
def escapeDelta (cp : CodecParams) (w v : Nat) : Nat :=
  ((v : Int) - ((topBit w : Int) + cp.lowerBias)).toNat

/-- `v & (tb - 1)`, the low part of a Mode C symbol (R174, R175). -/
def lowPart (w v : Nat) : Nat := v &&& (topBit w - 1)

/-- The element emitted: `sext_N(acc)` as a signed 16-bit number (R177). -/
def sampleOf (depth16 : Bool) (acc : Word) : Sample :=
  if depth16 then acc.setWidth 16 else (acc.setWidth 8).signExtend 16

/-- `channel = (b - 1) & 63` (R99, R215). -/
def channelOf (b : Byte) : BitVec 6 := ((b - 1) &&& 63).setWidth 6

/-- `NoteXlat` (R225). -/
def noteXlat (r : Byte) : Byte :=
  if r ≤ 120 then r + 1 else if r = 254 then 254 else if r = 255 then 255 else 253

/-- `VolXlat` (R226), with the irregular range 115..124 of R227. -/
def volXlat (v : Byte) : BitVec 4 × Byte :=
  if v ≤ 64 then (1, v)
  else if v ≤ 74 then (2, v - 65)
  else if v ≤ 84 then (3, v - 75)
  else if v ≤ 94 then (4, v - 85)
  else if v ≤ 104 then (5, v - 95)
  else if v ≤ 114 then (6, v - 105)
  else if v ≤ 124 then (7, v - 125)
  else if v ≤ 127 then (0, 0)
  else if v = 128 then (8, v - 128)
  else if v ≤ 202 then (9, v - 129)
  else if v ≤ 212 then (10, v - 203)
  else (0, 0)

end Sys2Proof.Machine
end

