-- ==== Sys2Proof/Machine/State.lean ====
section
/-! DEFINITION. The state of the CORE, its reset, and the reasons a step can stop. -/

namespace Sys2Proof.Machine

/-- A source space: (index, byte) pairs in canonical form (`Memory.wf`). An unlisted index reads
`emptyByte`. -/
abbrev Memory := List Host.Cell

/-- One move of the host: a command, with the bytes it places in that unit's source space before
issuing it (70_reset_and_hazards.md R302), or none where the space stays as it is. -/
structure HostMove where
  source : Option (List Byte) := none
  command : Transaction
  deriving DecidableEq, Repr

/-- Whose turn a step is (10_state.md R20). `pdBegin` is PD's turn in the finer view of
42_patterndecoder.md R212: it only opens a channel-select command, whose fields the next turns of
PD do one by one. `sync` is a host that waits until no unit is BUSY. -/
inductive Turn where
  | host (m : HostMove)
  | sc
  | pd
  | pdBegin
  | sync
  deriving DecidableEq, Repr

/-- The machine. `biases`, `free` and `agenda` are the model's own fields: the open parameters of
00_scope.md R8, the index of the next free value, and the turns to come. -/
structure State where
  br0 : Br := {}
  sc : Sc := {}
  pd : Pd := {}
  bsrc : Memory := []
  ssrc : Memory := []
  psrc : Memory := []
  biases : Biases := recommendedBiases
  free : Nat := 0
  agenda : List Turn := []
  deriving DecidableEq, Repr

/-- Why the machine is stuck. -/
inductive Fault where
  /-- Raised by the meaning of a stream instruction (SC.CHUNK, a symbol, a pattern byte, a field)
  executed in a state in which the spec does not enable it: no step of a unit leads there. Safe:
  the model stops where the spec has no step. -/
  | notEnabled
  deriving DecidableEq, Repr

/-- Why a step is refused. -/
inductive Refusal where
  /-- Raised by an arm of `exec` whose instruction has no meaning yet. Safe. -/
  | notModelled (mnemonic : String)
  /-- Raised by BR.READ on a CLOSED instance, which has no step (70_reset_and_hazards.md R306).
  Safe. -/
  | readOnClosed
  /-- Raised by SC.DECODE and PD.DECODE on a BUSY unit, which have no step (R306). Safe. -/
  | startOnBusy
  /-- Raised by a host move that would write a borrowed source space: a BR.READ with bytes
  (R310: the host has no such move). Safe. -/
  | sourceBorrowed
  /-- Raised where the decoder rejects: a transaction that is none of 30_encoding.md R90's, or a
  symbol of width 0, which no run reaches (41_samplecodec.md R182). Safe. -/
  | undecodable
  deriving DecidableEq, Repr

/-- Power-on reset (10_state.md R45): BR0 CLOSED, SC and PD IDLE, every ERR and register zero,
every sequence empty; nothing placed in a source space, no turn to come. -/
def State.reset : State :=
  { br0 := {}, sc := {}, pd := {}, bsrc := [], ssrc := [], psrc := [],
    biases := recommendedBiases, free := 0, agenda := [] }

/-- The CodecParams in force (R29). -/
def State.params (s : State) : CodecParams := codecParams s.biases s.sc.depth16

end Sys2Proof.Machine
end

