-- ==== Sys2Proof/Machine/Ops.lean ====
section
/-! DEFINITION. The operations shared by the meanings: source spaces, the BitReader, raising an error,
`write`, `NextByte`. -/

namespace Sys2Proof.Machine

/-! ### Source spaces (20_memory.md R60 to R64) -/

/-- What an unlisted index of a source space reads as. DESIGN CHOICE: a byte the host never placed
reads 0x00; unsafe. -/
def emptyByte : Byte := 0

/-- The byte at an index. -/
def readByte : Memory → Nat → Byte
  | [], _ => emptyByte
  | (a', b) :: m, a => if a = a' then b else readByte m a

/-- `MemRead(space, a, n)`: `n` bytes from index `a` as a little-endian number (R14, R64). -/
def memRead (m : Memory) (a : Nat) : Nat → Nat
  | 0 => 0
  | n + 1 => (readByte m a).toNat + 256 * memRead m (a + 1) n

/-- The space with one byte placed, in canonical form. Only the host places bytes (R62). -/
def writeByte : Memory → Nat → Byte → Memory
  | [], a, b => if b = emptyByte then [] else [(a, b)]
  | (a', b') :: m, a, b =>
      if a < a' then (if b = emptyByte then (a', b') :: m else (a, b) :: (a', b') :: m)
      else if a = a' then (if b = emptyByte then m else (a, b) :: m)
      else (a', b') :: writeByte m a b

/-- The space with bytes placed at rising indices from `a`. -/
def loadBytes (m : Memory) (a : Nat) : List Byte → Memory
  | [] => m
  | b :: bs => loadBytes (writeByte m a b) (a + 1) bs

/-- Canonical form from an index on: indices strictly rising, no byte equal to `emptyByte`. -/
def wfFrom : Nat → Memory → Bool
  | _, [] => true
  | lo, (a, b) :: m => decide (lo ≤ a) && decide (b ≠ emptyByte) && wfFrom (a + 1) m

/-- The space is in canonical form. -/
def Memory.wf (m : Memory) : Bool := wfFrom 0 m

/-! ### Parts of the state -/

/-- The state with BR0 replaced. -/
def State.setBr0 (s : State) (r : Br) : State := { s with br0 := r }

/-- The state with SC replaced. -/
def State.setSc (s : State) (c : Sc) : State := { s with sc := c }

/-- The state with PD replaced. -/
def State.setPd (s : State) (p : Pd) : State := { s with pd := p }

/-! ### Raising an error -/

/-- Who raises: BR0, SC by its own rule, SC by a read of SC.BR, or PD. -/
inductive Raiser where
  | br0
  | sc
  | scBr
  | pd
  deriving DecidableEq, Repr

/-- A BR instance after `raise`: DEAD, `ERR` the kind; POS, BUF and CNT unspecified, taken from the
free value `f`; RES not updated (60_exceptions.md R270). -/
def deadBr (f : Br) (k : ErrKind) (r : Br) : Br :=
  { r with st := .dead, err := k, pos := f.pos, buf := f.buf, cnt := f.cnt }

/-- `raise K` (60_exceptions.md R270), the one place an error is taken. The unit's ST becomes DEAD
or FAULT and its ERR the kind; every register R270 calls unspecified or invalid becomes a free
value. No handler, no vector, no saved cursor (R269); there is no return: the unit's next start
command re-initialises it (R271). -/
def raise (who : Raiser) (k : ErrKind) (s : State) : State :=
  match who with
  | .br0 => { s with br0 := deadBr (Config.freeBr s.free) k s.br0, free := s.free + 1 }
  | .sc => { s with sc := { Config.freeSc s.free with st := .fault, err := k },
                    free := s.free + 1 }
  | .scBr => { s with sc := { Config.freeSc s.free with
                                st := .fault, err := k,
                                br := { Config.freeBr s.free with st := .dead, err := k } },
                      free := s.free + 1 }
  | .pd => { s with pd := { Config.freePd s.free with st := .fault, err := k, cmd := none },
                    free := s.free + 1 }

/-! ### The BitReader (40_bitreader.md R130 to R136) -/

/-- An instance after `BR.OPEN` (R130): the source at `base`, length `len`. Every register is
overwritten (10_state.md R28); the value of RES is unstated, taken from the free value `f`. -/
def openBr (f : Br) (base len : Nat) : Br :=
  { st := .ready, err := .noError, res := f.res, base := base, len := len, pos := 0, buf := 0,
    cnt := 0 }

/-- One byte loaded above the pending bits (R134). -/
def loadByte (m : Memory) (r : Br) : Br :=
  { r with buf := r.buf ||| ((readByte m (r.base + r.pos)).setWidth 64 <<< r.cnt),
           cnt := r.cnt + 8, pos := r.pos + 1 }

/-- The refill loop (R134): none where a byte is needed at or past the length (R135). The first
argument bounds the loop; `w` turns are enough, each adding 8 bits. -/
def refill (m : Memory) : Nat → Nat → Br → Option Br
  | 0, _, r => some r
  | f + 1, w, r =>
      if r.cnt < w then
        if r.len ≤ r.pos then none else refill m f w (loadByte m r)
      else some r

/-- Extract (R136): the low `w` pending bits, zero-extended, into RES. -/
def extract (w : Nat) (r : Br) : Br :=
  { r with res := BitVec.ofNat 32 (r.buf.toNat % 2 ^ w), buf := r.buf >>> w, cnt := r.cnt - w }

/-- `BR.READ w` on a READY instance: parameter check, refill, extract (R131, R132, R134, R136).
The result is RES of the reader answered. -/
def readBr (m : Memory) (w : Int) (r : Br) : Except ErrKind Br :=
  if w < 0 ∨ (brMaxWidth : Int) < w then .error .badParameter
  else
    match refill m w.toNat w.toNat r with
    | none => .error .endOfStream
    | some r' => .ok (extract w.toNat r')

/-! ### The SampleCodec (41_samplecodec.md R171, R175, R176) -/

/-- What `SC.W <- x` leaves in the 17-bit register (10_state.md R32): `x` where 17 bits hold it.
Past them the value is unstated, the free value `f`, within what 30_encoding.md R107 says of it: a
width above `W0`. -/
def widthAfter (cp : CodecParams) (f : Width) (x : Nat) : Width :=
  if x < 2 ^ 17 then BitVec.ofNat 17 x
  else if cp.defaultWidth < f.toNat then f
  else BitVec.ofNat 17 (cp.defaultWidth + 1)

/-- `SC.W <- x`, the one write of the width by an escape (R171, R175). -/
def State.setWidth (s : State) (x : Nat) : State :=
  { s with sc := { s.sc with w := widthAfter s.params (Config.freeSc s.free).w x },
           free := if x < 2 ^ 17 then s.free else s.free + 1 }

/-- `write(value, top_bit)` with its emission (R176, R177). -/
def writeSample (value tb : Nat) (c : Sc) : Sc :=
  let mem1 := c.mem1 + BitVec.ofInt 32 (writeDelta value tb)
  let mem2 := c.mem2 + mem1
  { c with mem1 := mem1, mem2 := mem2,
           out := c.out ++ [sampleOf c.depth16 (if c.so then mem2 else mem1)],
           blk := c.blk - 1, rem := c.rem - 1 }

/-- The symbol step is enabled (R166) and the symbol's width is `SC.W`. -/
def symbolEnabled (w : Nat) (c : Sc) : Bool :=
  c.st.isBusy && decide (0 < c.blk) && decide (c.w.toNat = w)

/-! ### The PatternDecoder (42_patterndecoder.md R211 to R222) -/

/-- `NextByte()` (R211): none where it raises InvalidSource. -/
def nextByte (m : Memory) (p : Pd) : Option (Byte × Pd) :=
  if p.srclen ≤ p.pos then none else some (readByte m p.pos, { p with pos := p.pos + 1 })

/-- The ChannelState record `PD.CH[c]` (R38). -/
def Pd.chan (p : Pd) (c : BitVec 6) : ChannelState := p.ch[c.toNat]'c.isLt

/-- PD with the record `PD.CH[c]` replaced. -/
def Pd.setChan (p : Pd) (c : BitVec 6) (x : ChannelState) : Pd :=
  { p with ch := p.ch.set c.toNat x c.isLt }

/-- PD is at the start of a row's next command: BUSY, rows still owed, no command in progress
(R210, R212). -/
def commandEnabled (p : Pd) : Bool :=
  p.st.isBusy && decide (p.row < p.rows) && decide (p.cmd = none)

/-- Channel and mask of a channel-select command whose select byte is consumed (R215, R216); a new
mask byte is read when `b[7] = 1`. None where a byte is missing. -/
def openCommand (m : Memory) (b : Byte) (p : Pd) : Option (PdCmd × Pd) :=
  let c := channelOf b
  let masked : Option Pd :=
    if maskFollows b then
      match nextByte m p with
      | none => none
      | some (x, p') => some (p'.setChan c { p'.chan c with mask := x })
    else some p
  match masked with
  | none => none
  | some p' =>
      let mask := (p'.chan c).mask
      some ({ chan := c, mask := mask, entry := { channel := c }, todo := selectedSlots mask }, p')

/-- The note field (R217). -/
def fieldNote (m : Memory) (k : PdCmd) (p : Pd) : Option (PdCmd × Pd) :=
  let stored : Option Pd :=
    if Slot.reads k.mask .note then
      match nextByte m p with
      | none => none
      | some (x, p') => some (p'.setChan k.chan { p'.chan k.chan with note := x })
    else some p
  match stored with
  | none => none
  | some p' =>
      let e := if Slot.selected k.mask .note then
          { k.entry with note := noteXlat (p'.chan k.chan).note } else k.entry
      some ({ k with entry := e, todo := k.todo.erase .note }, p')

/-- The instrument field (R218). -/
def fieldIns (m : Memory) (k : PdCmd) (p : Pd) : Option (PdCmd × Pd) :=
  let stored : Option Pd :=
    if Slot.reads k.mask .ins then
      match nextByte m p with
      | none => none
      | some (x, p') => some (p'.setChan k.chan { p'.chan k.chan with ins := x })
    else some p
  match stored with
  | none => none
  | some p' =>
      let e := if Slot.selected k.mask .ins then
          { k.entry with instrument := (p'.chan k.chan).ins } else k.entry
      some ({ k with entry := e, todo := k.todo.erase .ins }, p')

/-- The volume field (R219). -/
def fieldVol (m : Memory) (k : PdCmd) (p : Pd) : Option (PdCmd × Pd) :=
  let stored : Option Pd :=
    if Slot.reads k.mask .vol then
      match nextByte m p with
      | none => none
      | some (x, p') => some (p'.setChan k.chan { p'.chan k.chan with vol := x })
    else some p
  match stored with
  | none => none
  | some p' =>
      let v := volXlat (p'.chan k.chan).vol
      let e := if Slot.selected k.mask .vol then
          { k.entry with volumeCommand := v.1, volumeParam := v.2 } else k.entry
      some ({ k with entry := e, todo := k.todo.erase .vol }, p')

/-- The effect field (R220): both bytes or neither. -/
def fieldEff (m : Memory) (k : PdCmd) (p : Pd) : Option (PdCmd × Pd) :=
  let stored : Option Pd :=
    if Slot.reads k.mask .eff then
      if p.srclen < p.pos + 2 then none
      else
        match nextByte m p with
        | none => none
        | some (x, p1) =>
            match nextByte m p1 with
            | none => none
            | some (y, p2) => some (p2.setChan k.chan { p2.chan k.chan with eff := x, prm := y })
    else some p
  match stored with
  | none => none
  | some p' =>
      let e := if Slot.selected k.mask .eff then
          { k.entry with effect := (p'.chan k.chan).eff, effectParam := (p'.chan k.chan).prm }
        else k.entry
      some ({ k with entry := e, todo := k.todo.erase .eff }, p')

/-- Append (R222): the entry joins the row when the effective mask is not 0. The command is over. -/
def closeCommand (k : PdCmd) (p : Pd) : Pd :=
  { p with cur := if k.mask ≠ 0 then p.cur ++ [k.entry] else p.cur, cmd := none }

/-- A whole channel-select command whose select byte `b` is consumed: R215, R216, R217 to R220 in
that order, R222 (R214). None where a byte is missing. -/
def selectCommand (m : Memory) (b : Byte) (p : Pd) : Option Pd :=
  (openCommand m b p).bind fun (k, p) =>
    (fieldNote m k p).bind fun (k, p) =>
      (fieldIns m k p).bind fun (k, p) =>
        (fieldVol m k p).bind fun (k, p) =>
          (fieldEff m k p).map fun (k, p) => closeCommand k p

/-- The outcome of a PD operation: its next state, or InvalidSource raised, PD's only kind
(R224). -/
def pdOutcome (s : State) : Option Pd → Host.Outcome State Fault Refusal
  | some p => .next (s.setPd p)
  | none => .next (raise .pd .invalidSource s)

/-- One field sub-operation of the command in progress: enabled when PD is BUSY, the command's
effective mask is `m`, it selects the field `x`, and `x` is the next field to do (R212, R217 to
R220). -/
def fieldStep (x : Slot) (op : Memory → PdCmd → Pd → Option (PdCmd × Pd)) (m : Byte)
    (s : State) : Host.Outcome State Fault Refusal :=
  match s.pd.cmd with
  | none => .fault .notEnabled
  | some k =>
      if s.pd.st.isBusy && decide (k.mask = m) && Slot.selected m x &&
          decide (k.todo.head? = some x) then
        pdOutcome s ((op s.psrc k s.pd).map fun (k', p') => { p' with cmd := some k' })
      else .fault .notEnabled

end Sys2Proof.Machine
end

