-- ==== Sys2Proof/Machine/BitReader.lean ====
section
/-! DEFINITION. The BitReader's host commands (40_bitreader.md). -/

namespace Sys2Proof.Machine

/-- `BR.OPEN len` on BR0: binds all of BSRC (R130), overwriting every register (10_state.md R28).
Legal in every status. -/
def execBrOpen (len : Nat) (s : State) : Host.Outcome State Fault Refusal :=
  .next { s with br0 := openBr (Config.freeBr s.free) 0 len, free := s.free + 1 }

/-- `BR.READ w` on BR0 (R131): dead check (R133: a DEAD instance fails again and changes nothing;
a CLOSED one has no step, R306), then the read, which may raise BadParameter or EndOfStream. -/
def execBrRead (w : Word) (s : State) : Host.Outcome State Fault Refusal :=
  match s.br0.st with
  | .closed => .refused .readOnClosed
  | .dead => .next s
  | .ready =>
      match readBr s.bsrc w.toInt s.br0 with
      | .error k => .next (raise .br0 k s)
      | .ok r => .next (s.setBr0 r)

end Sys2Proof.Machine
end

