-- ==== Sys2Proof/Machine/PatternDecoder.lean ====
section
/-! DEFINITION. The PatternDecoder: its command, the row end, the channel-select command and its four
field sub-operations (42_patterndecoder.md). The select byte is consumed before its meaning runs
(R210). -/

namespace Sys2Proof.Machine

/-- PD right after `PD.DECODE` (R210, 10_state.md R48): every register written. -/
def startPd (rows srclen : Nat) : Pd :=
  { rows := rows, srclen := srclen, pos := 0, row := 0, ch := Vector.replicate 64 {},
    cur := [], out := [], st := startStatus rows, err := .noError, cmd := none }

/-- `PD.DECODE` (R210), the start step of R212's small-step view. A BUSY unit has no such step
(70_reset_and_hazards.md R306). -/
def execPdDecode (rows srclen : Nat) (s : State) : Host.Outcome State Fault Refusal :=
  if s.pd.st.isBusy then .refused .startOnBusy else .next (s.setPd (startPd rows srclen))

/-- The row end (R213). -/
def endRow (p : Pd) : Pd := { p with out := p.out ++ [p.cur], cur := [], row := p.row + 1 }

/-- `PD.END` (R213): the byte 0 in channel-select position. -/
def execPdEnd (s : State) : Host.Outcome State Fault Refusal :=
  if commandEnabled s.pd then .next (s.setPd (endRow s.pd)) else .fault .notEnabled

/-- `PD.SELM` (R214): a whole channel-select command with a new mask byte. -/
def execPdSelm (b : Byte) (s : State) : Host.Outcome State Fault Refusal :=
  if commandEnabled s.pd && maskFollows b then pdOutcome s (selectCommand s.psrc b s.pd)
  else .fault .notEnabled

/-- `PD.SEL` (R214): a whole channel-select command under the channel's stored mask. -/
def execPdSel (b : Byte) (s : State) : Host.Outcome State Fault Refusal :=
  if commandEnabled s.pd && !maskFollows b && decide (b ≠ 0) then
    pdOutcome s (selectCommand s.psrc b s.pd)
  else .fault .notEnabled

/-- `PD.F.NOTE` (R217). -/
def execPdFNote (m : Byte) (s : State) : Host.Outcome State Fault Refusal :=
  fieldStep .note fieldNote m s

/-- `PD.F.INS` (R218). -/
def execPdFIns (m : Byte) (s : State) : Host.Outcome State Fault Refusal :=
  fieldStep .ins fieldIns m s

/-- `PD.F.VOL` (R219). -/
def execPdFVol (m : Byte) (s : State) : Host.Outcome State Fault Refusal :=
  fieldStep .vol fieldVol m s

/-- `PD.F.EFF` (R220). -/
def execPdFEff (m : Byte) (s : State) : Host.Outcome State Fault Refusal :=
  fieldStep .eff fieldEff m s

end Sys2Proof.Machine
end

