-- ==== Sys2Proof/Machine/SampleCodec.lean ====
section
/-! DEFINITION. The SampleCodec: its command, the chunk fetch and the six symbols
(41_samplecodec.md). A symbol's own field is consumed before its meaning runs (R166, R168). -/

namespace Sys2Proof.Machine

/-- SC right after `SC.DECODE` (R160, 10_state.md R47). -/
def startSc (slen : Nat) (depth16 so : Bool) (srclen : Nat) (c : Sc) : Sc :=
  { c with depth16 := depth16, so := so, slen := slen, srclen := srclen, spos := 0, rem := slen,
           blk := 0, out := [], err := .noError, st := startStatus slen }

/-- `SC.DECODE` (R160), the start step of R162's small-step view. A BUSY unit has no such step
(70_reset_and_hazards.md R306). -/
def execScDecode (slen : Nat) (depth16 so : Bool) (srclen : Nat) (s : State) :
    Host.Outcome State Fault Refusal :=
  if s.sc.st.isBusy then .refused .startOnBusy
  else .next (s.setSc (startSc slen depth16 so srclen s.sc))

/-- SC after a chunk fetch of `len` payload bytes: payload window and reader (R164), block
initialisation (R165). -/
def startBlock (cp : CodecParams) (f : Br) (len : Nat) (c : Sc) : Sc :=
  { c with br := openBr f (c.spos + chunkLenBytes) len, spos := c.spos + chunkLenBytes + len,
           blk := min c.rem cp.maxBlock, w := BitVec.ofNat 17 cp.defaultWidth,
           mem1 := 0, mem2 := 0 }

/-- `SC.CHUNK` (R163 to R165): enabled when BUSY, `SC.REM > 0` and `SC.BLK = 0`; EndOfStream where
the header or the payload is not wholly inside SSRC. -/
def execScChunk (len : BitVec 16) (s : State) : Host.Outcome State Fault Refusal :=
  if s.sc.st.isBusy && decide (0 < s.sc.rem) && decide (s.sc.blk = 0) then
    if s.sc.srclen < s.sc.spos + chunkLenBytes then .next (raise .sc .endOfStream s)
    else if s.sc.srclen < s.sc.spos + chunkLenBytes + len.toNat then
      .next (raise .sc .endOfStream s)
    else .next { s with sc := startBlock s.params (Config.freeBr s.free) len.toNat s.sc,
                        free := s.free + 1 }
  else .fault .notEnabled

/-- `SC.A.ESC` (R169): reads the FW field, which may raise, and changes the width (R171). -/
def execScAEsc (w : Nat) (s : State) : Host.Outcome State Fault Refusal :=
  if symbolEnabled w s.sc && isModeA w then
    match readBr s.ssrc s.params.fetchWidth s.sc.br with
    | .error k => .next (raise .scBr k s)
    | .ok r => .next ((s.setSc { s.sc with br := r }).setWidth (changeWidth w r.res.toNat))
  else .fault .notEnabled

/-- `SC.A.DELTA` (R170): `write(v, tb)`. -/
def execScADelta (w v : Nat) (s : State) : Host.Outcome State Fault Refusal :=
  if symbolEnabled w s.sc && isModeA w && fits w v && decide (v ≠ topBit w) then
    .next (s.setSc (writeSample v (topBit w) s.sc))
  else .fault .notEnabled

/-- `SC.B.ESC` (R172): `change_width(v - (tb + LB))`. -/
def execScBEsc (w v : Nat) (s : State) : Host.Outcome State Fault Refusal :=
  if symbolEnabled w s.sc && isModeB s.params w && fits w v && inWindow s.params w v then
    .next (s.setWidth (changeWidth w (escapeDelta s.params w v)))
  else .fault .notEnabled

/-- `SC.B.DELTA` (R173): `write(v, tb)`. -/
def execScBDelta (w v : Nat) (s : State) : Host.Outcome State Fault Refusal :=
  if symbolEnabled w s.sc && isModeB s.params w && fits w v && !inWindow s.params w v then
    .next (s.setSc (writeSample v (topBit w) s.sc))
  else .fault .notEnabled

/-- `SC.C.SETW` (R175): `SC.W <- (v & (tb - 1)) + 1`, absolute. -/
def execScCSetw (w v : Nat) (s : State) : Host.Outcome State Fault Refusal :=
  if symbolEnabled w s.sc && isModeC s.params w && fits w v && topBitSet w v then
    .next (s.setWidth (lowPart w v + 1))
  else .fault .notEnabled

/-- `SC.C.DELTA` (R174): `write(v & (tb - 1), 0)`. -/
def execScCDelta (w v : Nat) (s : State) : Host.Outcome State Fault Refusal :=
  if symbolEnabled w s.sc && isModeC s.params w && fits w v && !topBitSet w v then
    .next (s.setSc (writeSample (lowPart w v) 0 s.sc))
  else .fault .notEnabled

end Sys2Proof.Machine
end

