-- ==== Sys2Proof/Machine/Dispatch.lean ====
section
/-! DEFINITION. The meaning of each instruction, one arm each. -/

namespace Sys2Proof.Machine

def exec (i : Instr) (s : State) : Host.Outcome State Fault Refusal :=
  match i with
  -- host commands (30_encoding.md R90)
  | .brOpen len => Sys2Proof.Machine.execBrOpen len s
  | .brRead w => Sys2Proof.Machine.execBrRead w s
  | .scDecode slen depth16 so srclen => Sys2Proof.Machine.execScDecode slen depth16 so srclen s
  | .pdDecode rows srclen => Sys2Proof.Machine.execPdDecode rows srclen s
  -- the codec stream (R91 to R93, R102)
  | .scChunk len => Sys2Proof.Machine.execScChunk len s
  | .scAEsc w => Sys2Proof.Machine.execScAEsc w s
  | .scADelta w v => Sys2Proof.Machine.execScADelta w v s
  | .scBEsc w v => Sys2Proof.Machine.execScBEsc w v s
  | .scBDelta w v => Sys2Proof.Machine.execScBDelta w v s
  | .scCSetw w v => Sys2Proof.Machine.execScCSetw w v s
  | .scCDelta w v => Sys2Proof.Machine.execScCDelta w v s
  -- the pattern stream (R94 to R97, R104)
  | .pdEnd => Sys2Proof.Machine.execPdEnd s
  | .pdSelm b => Sys2Proof.Machine.execPdSelm b s
  | .pdSel b => Sys2Proof.Machine.execPdSel b s
  | .pdFNote m => Sys2Proof.Machine.execPdFNote m s
  | .pdFIns m => Sys2Proof.Machine.execPdFIns m s
  | .pdFVol m => Sys2Proof.Machine.execPdFVol m s
  | .pdFEff m => Sys2Proof.Machine.execPdFEff m s

end Sys2Proof.Machine
end

