-- ==== Sys2Proof/Machine/Fetch.lean ====
section
/-! DEFINITION. What each agent fetches at its turn (10_state.md R20, 41_samplecodec.md R162, R166 to R168,
42_patterndecoder.md R210 to R212), and where a table word is placed for it. -/

namespace Sys2Proof.Machine

/-- What a turn fetches: an instruction with the state it runs in (its own field consumed), a step
without an instruction (a completion, an error raised by the fetch, the end of a command), or a
form that has no step. -/
inductive Fetched where
  | instr (i : Instr) (s : State)
  | silent (s : State)
  | rejected (r : Refusal)

/-- A decoded form, or its rejection. -/
def fetchedOf (d : Except Reject Instr) (s : State) : Fetched :=
  match d with
  | .ok i => .instr i s
  | .error _ => .rejected .undecodable

/-- The symbol step (R166): width guard (R167), symbol read (R168), dispatch (R102). -/
def fetchSymbol (s : State) : Fetched :=
  if s.params.defaultWidth < s.sc.w.toNat then .silent (raise .sc .decodingError s)
  else
    match readBr s.ssrc s.sc.w.toNat s.sc.br with
    | .error k => .silent (raise .scBr k s)
    | .ok r =>
        fetchedOf (decode s.params (.sym s.sc.w.toNat r.res.toNat)) (s.setSc { s.sc with br := r })

/-- The chunk header (R163): EndOfStream where it is not wholly inside SSRC. -/
def fetchChunk (s : State) : Fetched :=
  if s.sc.srclen < s.sc.spos + chunkLenBytes then .silent (raise .sc .endOfStream s)
  else
    fetchedOf
      (decode s.params (.chunk (readByte s.ssrc s.sc.spos) (readByte s.ssrc (s.sc.spos + 1)))) s

/-- SC's next step while BUSY (R162): a symbol, else a chunk, else completion (R180). -/
def fetchSc (s : State) : Fetched :=
  if 0 < s.sc.blk then fetchSymbol s
  else if 0 < s.sc.rem then fetchChunk s
  else .silent (s.setSc (scComplete s.sc))

/-- The channel-select byte (R210, R211). -/
def fetchSelect (s : State) : Fetched :=
  match nextByte s.psrc s.pd with
  | none => .silent (raise .pd .invalidSource s)
  | some (b, p) => fetchedOf (decode s.params (.sel b)) (s.setPd p)

/-- PD's next step while BUSY (R212): the next field or the end of a command in progress, else a
row's next command, else completion (R223). -/
def fetchPd (s : State) : Fetched :=
  match s.pd.cmd with
  | some k =>
      match k.todo with
      | x :: _ => fetchedOf (decode s.params (.field x k.mask)) s
      | [] => .silent (s.setPd (closeCommand k s.pd))
  | none =>
      if s.pd.row < s.pd.rows then fetchSelect s else .silent (s.setPd (pdComplete s.pd))

/-- PD's turn in the finer view (R212, last sentence): at the start of a command it consumes the
select byte and opens the command (R215, R216), leaving its fields to the next turns; anywhere else
it is the turn of `fetchPd`. -/
def fetchBegin (s : State) : Fetched :=
  if commandEnabled s.pd then
    match nextByte s.psrc s.pd with
    | none => .silent (raise .pd .invalidSource s)
    | some (b, p) =>
        if b = 0 then fetchedOf (decode s.params (.sel b)) (s.setPd p)
        else
          match openCommand s.psrc b p with
          | none => .silent (raise .pd .invalidSource s)
          | some (k, p') => .silent (s.setPd { p' with cmd := some k })
  else fetchPd s

/-- The bytes a host move places (70_reset_and_hazards.md R302): with a start command, the whole
source space of that unit; with BR.READ none may be placed, the space is borrowed (R310). -/
def placeSource (m : HostMove) (s : State) : Except Refusal State :=
  match m.source, m.command.name with
  | none, _ => .ok s
  | some bytes, .brOpen => .ok { s with bsrc := loadBytes [] 0 bytes }
  | some bytes, .scDecode =>
      if s.sc.st.isBusy then .error .startOnBusy else .ok { s with ssrc := loadBytes [] 0 bytes }
  | some bytes, .pdDecode =>
      if s.pd.st.isBusy then .error .startOnBusy else .ok { s with psrc := loadBytes [] 0 bytes }
  | some _, .brRead => .error .sourceBorrowed

/-- The host's command (30_encoding.md R90). -/
def fetchHost (m : HostMove) (s : State) : Fetched :=
  match placeSource m s with
  | .error r => .rejected r
  | .ok s' => fetchedOf (decode s'.params (.cmd m.command)) s'

/-! ### Placing a table word -/

/-- Seven bytes, the longest pattern command (R97): the word, then zeros. -/
def tableBytes (w : Nat) : List Byte := [BitVec.ofNat 8 w, 0, 0, 0, 0, 0, 0]

/-- The state in which PD's next byte is the table byte `w`, zeros after it: the bytes at `PD.POS`
of PSRC, inside its length, PD BUSY with a row owed and no command in progress, PD's turn next. -/
def placeSelect (w : Nat) (s : State) : State :=
  { s with psrc := loadBytes s.psrc s.pd.pos (tableBytes w),
           pd := { s.pd with st := .busy, cmd := none, rows := max s.pd.rows (s.pd.row + 1),
                             srclen := max s.pd.srclen (s.pd.pos + 7) },
           agenda := .pd :: s.agenda }

/-- The state in which SC's next chunk header is the table word `w`: the two bytes at `SC.SPOS` of
SSRC, they and the payload inside its length, SC BUSY with a sample owed and no block open, SC's
turn next. -/
def placeChunk (w : Nat) (s : State) : State :=
  { s with ssrc := loadBytes s.ssrc s.sc.spos [BitVec.ofNat 8 w, BitVec.ofNat 8 (w >>> 8)],
           sc := { s.sc with st := .busy, blk := 0, rem := max s.sc.rem 1,
                             srclen := max s.sc.srclen (s.sc.spos + 2 + w % 65536) },
           agenda := .sc :: s.agenda }

end Sys2Proof.Machine
end

