-- ==== Sys2Proof/Machine/Step.lean ====
section
/-! DEFINITION. One step of the machine, and the placing of a table word where the next step fetches. -/

namespace Sys2Proof.Machine

/-- Runs what a turn fetched. -/
def runFetched : Fetched → Host.Outcome State Fault Refusal
  | .instr i s => exec i s
  | .silent s => .next s
  | .rejected r => .refused r

/-- SC's turn: its next step while BUSY (41_samplecodec.md R162), else nothing. -/
def scTurn (s : State) : Host.Outcome State Fault Refusal :=
  if s.sc.st.isBusy then runFetched (fetchSc s) else .next s

/-- PD's turn: its next step while BUSY (42_patterndecoder.md R212), else nothing. -/
def pdTurn (s : State) : Host.Outcome State Fault Refusal :=
  if s.pd.st.isBusy then runFetched (fetchPd s) else .next s

/-- PD's turn in the finer view (R212). -/
def pdBeginTurn (s : State) : Host.Outcome State Fault Refusal :=
  if s.pd.st.isBusy then runFetched (fetchBegin s) else .next s

/-- The host's turn: its command (30_encoding.md R90). -/
def hostTurn (m : HostMove) (s : State) : Host.Outcome State Fault Refusal :=
  runFetched (fetchHost m s)

/-- The state with the agenda replaced. -/
def State.setAgenda (s : State) (l : List Turn) : State := { s with agenda := l }

/-- One step: the agenda's next turn. A `sync` turn, and an empty agenda, let a BUSY unit step, SC
first; with no unit BUSY the machine is idle (10_state.md R45). -/
def step (s : State) : Host.Outcome State Fault Refusal :=
  match s.agenda with
  | .host m :: l => hostTurn m (s.setAgenda l)
  | .sc :: l => scTurn (s.setAgenda l)
  | .pd :: l => pdTurn (s.setAgenda l)
  | .pdBegin :: l => pdBeginTurn (s.setAgenda l)
  | .sync :: l =>
      if s.sc.st.isBusy then scTurn s
      else if s.pd.st.isBusy then pdTurn s
      else .next (s.setAgenda l)
  | [] =>
      if s.sc.st.isBusy then scTurn s
      else if s.pd.st.isBusy then pdTurn s
      else .next s

/-- The state with a table word where the next step fetches: a one-byte word is a channel-select
byte for PD, a two-byte word a chunk header for SC; no other row has table bits. -/
def State.withFetchWord (s : State) (nbits w : Nat) : State :=
  if nbits = 8 then placeSelect w s else if nbits = 16 then placeChunk w s else s

end Sys2Proof.Machine
end

