-- ==== Sys2Proof/Safety.lean ====
section
/-! DEFINITION. The terms claims are stated in: the stream a reader sees, the invariants of the three
units and of the machine, and runs of one unit. -/

namespace Sys2Proof.Machine

/-! ### BitReader -/

/-- The bit cursor `BITPOS = 8*BR.POS - BR.CNT` (10_state.md R26). -/
def bitPos (r : Br) : Nat := 8 * r.pos - r.cnt

/-- The stream value `S(BR.SRC)` (00_scope.md R15). -/
def streamValue (m : Memory) (r : Br) : Nat := memRead m r.base r.len

/-- The next `w` stream bits, least significant first (20_memory.md R63). -/
def nextBits (m : Memory) (r : Br) (w : Nat) : Nat :=
  (streamValue m r / 2 ^ bitPos r) % 2 ^ w

/-- At least `w` stream bits are left. -/
def bitsLeft (r : Br) (w : Nat) : Prop := bitPos r + w ≤ 8 * r.len

/-- What holds of a READY instance between operations (R23, R25, R26, R136): the pending bits are
the stream bits `BITPOS .. 8*POS-1`, at most 7, and nothing stands above them. -/
def readyInv (m : Memory) (r : Br) : Prop :=
  r.pos ≤ r.len ∧ r.cnt ≤ 7 ∧ r.cnt ≤ 8 * r.pos ∧ r.buf.toNat = nextBits m r r.cnt

/-- What holds of an instance (R23 to R27). -/
def brInv (m : Memory) (r : Br) : Prop :=
  (r.st = .ready → readyInv m r) ∧ (r.st = .dead ↔ r.err ≠ .noError)

/-! ### SampleCodec -/

/-- What holds of SC between steps (R31, R32, R34, R35, R182, R180): counts that agree with the
output, a legal width and a READY reader inside SSRC while a block is open, ERR set exactly in
FAULT. -/
def scInv (m : Memory) (cp : CodecParams) (c : Sc) : Prop :=
  (c.st = .fault ↔ c.err ≠ .noError) ∧
  (c.st = .done → c.out.length = c.slen) ∧
  (c.st = .busy →
    c.blk ≤ c.rem ∧ c.blk ≤ cp.maxBlock ∧ c.out.length + c.rem = c.slen ∧
    c.spos ≤ c.srclen ∧
    (0 < c.blk → 1 ≤ c.w.toNat ∧ c.br.st = .ready ∧ readyInv m c.br ∧ c.br.base + c.br.len = c.spos))

/-! ### PatternDecoder -/

/-- An entry's note is never in 122..252, its volume command never above 10 (R40). -/
def entryOk (e : PatternEntry) : Prop :=
  (e.note ≤ 121 ∨ 253 ≤ e.note) ∧ e.volumeCommand ≤ 10

/-- Every entry of the row under construction and of the finished rows is legal. -/
def rowsOk (p : Pd) : Prop :=
  (∀ e ∈ p.cur, entryOk e) ∧ ∀ row ∈ p.out, ∀ e ∈ row, entryOk e

/-- What holds of PD between steps (R37, R39 to R41, R223): rows that agree with the output, ERR
set exactly in FAULT, a command in progress only inside a row. -/
def pdInv (p : Pd) : Prop :=
  (p.st = .fault ↔ p.err ≠ .noError) ∧
  (p.st = .done → p.out.length = p.rows ∧ p.cur = [] ∧ rowsOk p) ∧
  (p.st = .busy →
    p.row ≤ p.rows ∧ p.out.length = p.row ∧ p.pos ≤ p.srclen ∧ rowsOk p ∧
    (p.row = p.rows → p.cur = [])) ∧
  (∀ k, p.cmd = some k → p.st = .busy ∧ p.row < p.rows ∧ entryOk k.entry ∧
    ∀ x ∈ k.todo, Slot.selected k.mask x = true)

/-! ### The machine -/

/-- The source spaces are in canonical form. -/
def memInv (s : State) : Prop :=
  Memory.wf s.bsrc = true ∧ Memory.wf s.ssrc = true ∧ Memory.wf s.psrc = true

/-- The machine's invariant. `BR0` is bound to all of BSRC (R22). -/
def Inv (s : State) : Prop :=
  memInv s ∧ brInv s.bsrc s.br0 ∧ s.br0.base = 0 ∧ scInv s.ssrc s.params s.sc ∧ pdInv s.pd

/-- No unit has failed: the safe runs are those along which this holds. -/
def noFault (s : State) : Prop :=
  s.br0.st ≠ .dead ∧ s.sc.st ≠ .fault ∧ s.pd.st ≠ .fault

/-- `n` turns of one unit, stopping at the first fault or refusal. -/
def runTurns (turn : State → Host.Outcome State Fault Refusal) :
    Nat → State → Host.Outcome State Fault Refusal
  | 0, s => .next s
  | n + 1, s =>
      match turn s with
      | .next s' => runTurns turn n s'
      | .fault r => .fault r
      | .refused r => .refused r

/-! ### Values as the spec computes them -/

/-- `sext_N(x)`: `t = x mod 2^N`, `t` below `2^(N-1)`, else `t - 2^N` (00_scope.md R13). -/
def sextInt (n : Nat) (x : Int) : Int :=
  let t := x % 2 ^ n
  if t < 2 ^ (n - 1) then t else t - 2 ^ n

/-- The native width `N` (10_state.md R29). -/
def nativeWidth (depth16 : Bool) : Nat := if depth16 then 16 else 8

/-- `W0` (10_state.md R29). -/
def maxWidth (depth16 : Bool) : Nat := if depth16 then 17 else 9

/-- `FW` (10_state.md R29). -/
def fwWidth (depth16 : Bool) : Nat := if depth16 then 4 else 3

/-- `LOWER_BIAS[N]` (10_state.md R29). -/
def lowerBiasOf (b : Biases) (depth16 : Bool) : Int := if depth16 then b.lower16 else b.lower8

/-- `UPPER_BIAS[N]` (10_state.md R29). -/
def upperBiasOf (b : Biases) (depth16 : Bool) : Int := if depth16 then b.upper16 else b.upper8

/-- The accumulator a delta leaves in the output path: `MEM2` in second-order mode, else `MEM1`
(41_samplecodec.md R176). -/
def emitted (c : Sc) (e : Int) : Word :=
  if c.so then c.mem2 + (c.mem1 + BitVec.ofInt 32 e) else c.mem1 + BitVec.ofInt 32 e

/-- SC after a delta `e` that emits the sample `x` (R176). -/
def afterDelta (c : Sc) (e : Int) (x : Sample) : Sc :=
  { c with mem1 := c.mem1 + BitVec.ofInt 32 e,
           mem2 := c.mem2 + (c.mem1 + BitVec.ofInt 32 e),
           out := c.out ++ [x], blk := c.blk - 1, rem := c.rem - 1 }

/-- Running sums: `e1, e1 + e2, ...` (41_samplecodec.md R178). -/
def runningSums (acc : Int) : List Int → List Int
  | [] => []
  | e :: es => (acc + e) :: runningSums (acc + e) es

/-- BR.READ issued once per width, with the results (40_bitreader.md R138). -/
def readSeq : List Nat → State → Option (List Nat × State)
  | [], s => some ([], s)
  | w :: ws, s =>
      match exec (.brRead (BitVec.ofNat 32 w)) s with
      | .next t => (readSeq ws t).map fun (vs, u) => (t.br0.res.toNat :: vs, u)
      | _ => none

/-- `r1 + r2*2^w1 + r3*2^(w1+w2) + ...` (R138). -/
def recombine : List Nat → List Nat → Nat
  | w :: ws, v :: vs => v + 2 ^ w * recombine ws vs
  | _, _ => 0

/-! ### A pattern command as the spec lays it out (30_encoding.md R95 to R97) -/

/-- Bit `i` of the mask as a number. -/
def maskBit (m : Byte) (i : Nat) : Nat := if m.getLsbD i then 1 else 0

/-- The channel `(b - 1) & 63` of a select byte (R99). -/
def selectedChannel (b : Byte) : BitVec 6 := BitVec.ofNat 6 (b.toNat - 1)

/-- The effective mask (42_patterndecoder.md R216): the byte after the select byte, or the
channel's stored one. PD.POS is past the select byte. -/
def effectiveMask (m : Memory) (b : Byte) (p : Pd) : Byte :=
  if b.getLsbD 7 then readByte m p.pos else (p.chan (selectedChannel b)).mask

/-- Where the field bytes start. -/
def fieldsAt (b : Byte) (p : Pd) : Nat := p.pos + if b.getLsbD 7 then 1 else 0

/-- Where the command ends (R97). -/
def commandEnd (m : Memory) (b : Byte) (p : Pd) : Nat :=
  let mask := effectiveMask m b p
  fieldsAt b p + maskBit mask 0 + maskBit mask 1 + maskBit mask 2 + 2 * maskBit mask 3

/-- The channel's record after the command (R216 to R220). -/
def recordAfter (m : Memory) (b : Byte) (p : Pd) : ChannelState :=
  let mask := effectiveMask m b p
  let old := p.chan (selectedChannel b)
  let noteAt := fieldsAt b p
  let insAt := noteAt + maskBit mask 0
  let volAt := insAt + maskBit mask 1
  let effAt := volAt + maskBit mask 2
  { mask := mask
    note := if mask.getLsbD 0 then readByte m noteAt else old.note
    ins := if mask.getLsbD 1 then readByte m insAt else old.ins
    vol := if mask.getLsbD 2 then readByte m volAt else old.vol
    eff := if mask.getLsbD 3 then readByte m effAt else old.eff
    prm := if mask.getLsbD 3 then readByte m (effAt + 1) else old.prm }

/-- The entry of the command (R215, R217 to R220): a field is emitted when its present bit or its
repeat bit is set, else it is left at 0. -/
def entryOf (c : BitVec 6) (mask : Byte) (x : ChannelState) : PatternEntry :=
  { channel := c
    note := if mask.getLsbD 0 || mask.getLsbD 4 then noteXlat x.note else 0
    instrument := if mask.getLsbD 1 || mask.getLsbD 5 then x.ins else 0
    volumeCommand := if mask.getLsbD 2 || mask.getLsbD 6 then (volXlat x.vol).1 else 0
    volumeParam := if mask.getLsbD 2 || mask.getLsbD 6 then (volXlat x.vol).2 else 0
    effect := if mask.getLsbD 3 || mask.getLsbD 7 then x.eff else 0
    effectParam := if mask.getLsbD 3 || mask.getLsbD 7 then x.prm else 0 }

end Sys2Proof.Machine
end

