-- ==== Sys2Proof/Certificates/Slice0/Obligations.lean ====
section
/-! DEFINITION. The statements for the provers. -/

open Sys2Proof Sys2Proof.Machine

/-! ### Encodings -/

/-- No bit of an encoding is dropped: 30_encoding.md R90 to R104. -/
def Obligations.DecodeOfEncodeIsTheInstruction : Prop :=
  ∀ (cp : CodecParams) (i : Instr), WellFormed cp i = true → decode cp (encode i) = .ok i

/-- Every form that decodes has one instruction, which is well formed and encodes to that form:
R90 to R104. -/
def Obligations.DecodedFormsAreWellFormedAndReencode : Prop :=
  ∀ (cp : CodecParams) (c : Code) (i : Instr), decode cp c = .ok i →
    WellFormed cp i = true ∧ encode i = c

/-- The stream bits of an encoded instruction, least significant first, spell its field: R15, R63,
R64, R91, R92, R94. -/
def Obligations.StreamBitsSpellTheField : Prop :=
  ∀ (cp : CodecParams) (i : Instr), WellFormed cp i = true →
    (∀ w v, encode i = .sym w v →
      (encode i).bits.length = w ∧ bitsValue (encode i).bits = v) ∧
    (∀ len, i = .scChunk len →
      (encode i).bits.length = 16 ∧ bitsValue (encode i).bits = len.toNat) ∧
    (∀ b, encode i = .sel b →
      (encode i).bits.length = 8 ∧ bitsValue (encode i).bits = b.toNat)

/-- A few words written out from the encodings: R91, R92, R94, R102, R104 and
95_test_vectors.md P1, P5. -/
def Obligations.WordsOfTheSpecDecode : Prop :=
  (∀ b : Biases,
    decode (codecParams b false) (.sym 9 0x103) = .ok (.scCSetw 9 0x103) ∧
    decode (codecParams b false) (.sym 9 250) = .ok (.scCDelta 9 250) ∧
    decode (codecParams b false) (.sym 4 8) = .ok (.scAEsc 4) ∧
    decode (codecParams b false) (.sym 4 15) = .ok (.scADelta 4 15) ∧
    decode (codecParams b true) (.sym 17 0x10010) = .ok (.scCSetw 17 0x10010) ∧
    decode (codecParams b false) (.chunk 0x05 0x08) = .ok (.scChunk 0x0805) ∧
    decode (codecParams b false) (.sel 0x00) = .ok .pdEnd ∧
    decode (codecParams b false) (.sel 0x81) = .ok (.pdSelm 0x81) ∧
    decode (codecParams b false) (.sel 0x02) = .ok (.pdSel 0x02) ∧
    decode (codecParams b false) (.field .vol 0x40) = .ok (.pdFVol 0x40)) ∧
  (∀ b : Biases, b.lower8 = -4 → b.upper8 = 3 →
    decode (codecParams b false) (.sym 7 60) = .ok (.scBEsc 7 60) ∧
    decode (codecParams b false) (.sym 7 59) = .ok (.scBDelta 7 59))

/-- The opcode map of the symbols, R102: every value of every legal width selects one row, by the
tests in their order; a width above `W0` is the width fault, whatever the value. -/
def Obligations.SymbolMapFollowsTheTable : Prop :=
  ∀ (b : Biases) (d : Bool) (w v : Nat),
    let cp := codecParams b d
    let tb : Nat := 2 ^ (w - 1)
    let inside : Prop :=
      (tb : Int) + lowerBiasOf b d ≤ v ∧ (v : Int) ≤ (tb : Int) + upperBiasOf b d
    (maxWidth d < w → decodeSymbol cp w v = .error .widthAboveMax) ∧
    (v < 2 ^ w →
      (1 ≤ w → w ≤ 6 → v = tb → decodeSymbol cp w v = .ok (.scAEsc w)) ∧
      (1 ≤ w → w ≤ 6 → v ≠ tb → decodeSymbol cp w v = .ok (.scADelta w v)) ∧
      (7 ≤ w → w < maxWidth d → inside → decodeSymbol cp w v = .ok (.scBEsc w v)) ∧
      (7 ≤ w → w < maxWidth d → ¬inside → decodeSymbol cp w v = .ok (.scBDelta w v)) ∧
      (w = maxWidth d → tb ≤ v → decodeSymbol cp w v = .ok (.scCSetw w v)) ∧
      (w = maxWidth d → v < tb → decodeSymbol cp w v = .ok (.scCDelta w v)))

/-- The channel of a select byte with its aliases, R99. -/
def Obligations.SelectByteNamesTheChannel : Prop :=
  ∀ b : Byte, b ≠ 0 →
    let n := b.toNat % 128
    (1 ≤ n → n ≤ 64 → (channelOf b).toNat = n - 1) ∧
    (65 ≤ n → (channelOf b).toNat = n - 65) ∧
    (n = 0 → (channelOf b).toNat = 63) ∧
    (maskFollows b = true ↔ 128 ≤ b.toNat)

/-! ### BitReader -/

/-- `BR.OPEN`, 40_bitreader.md R130, 10_state.md R28 and R46: legal in every status, binds all of
BSRC, overwrites every register, so that the instance depends on nothing an earlier source left;
the rest of the machine is unchanged. BR.RES gets a free value (note 14), which is not stated; the
binding is an index in the model (note 12). -/
def Obligations.BrOpenBindsTheSource : Prop :=
  ∀ (len : Nat) (s : State), ∃ t, exec (.brOpen len) s = .next t ∧
    t = { s with br0 := t.br0, free := t.free } ∧
    t.br0.st = .ready ∧ t.br0.err = .noError ∧ t.br0.base = 0 ∧ t.br0.len = len ∧
    t.br0.pos = 0 ∧ t.br0.buf = 0 ∧ t.br0.cnt = 0 ∧
    ∀ r : Br, ∃ t', exec (.brOpen len) { s with br0 := r } = .next t' ∧ t'.br0 = t.br0

/-- The registers implement the read of a bit cursor, 40_bitreader.md R137: for a READY instance
whose pending bits are the stream's. -/
def Obligations.ReadOfRegistersIsReadOfTheBitCursor : Prop :=
  ∀ (w : Word) (s : State), s.br0.st = .ready → readyInv s.bsrc s.br0 →
    if w.toInt < 0 ∨ 32 ≤ w.toInt then
      exec (.brRead w) s = .next (raise .br0 .badParameter s)
    else if 8 * s.br0.len < bitPos s.br0 + w.toNat then
      exec (.brRead w) s = .next (raise .br0 .endOfStream s)
    else
      ∃ r, exec (.brRead w) s = .next { s with br0 := r } ∧
        r.res.toNat = (streamValue s.bsrc s.br0 / 2 ^ bitPos s.br0) % 2 ^ w.toNat ∧
        bitPos r = bitPos s.br0 + w.toNat ∧ readyInv s.bsrc r ∧
        r.st = .ready ∧ r.err = s.br0.err ∧ r.base = s.br0.base ∧ r.len = s.br0.len

/-- The parameter check, 40_bitreader.md R132: `w < 0` or `w >= 32`, the same test as `u >= 32`
unsigned, fails with BadParameter whatever the source and the pending bits are. -/
def Obligations.BadWidthIsBadParameter : Prop :=
  ∀ (w : Word) (s : State), s.br0.st = .ready →
    ((w.toInt < 0 ∨ 32 ≤ w.toInt) ↔ 32 ≤ w.toNat) ∧
    (32 ≤ w.toNat → ∃ t, exec (.brRead w) s = .next t ∧
      t.br0.st = .dead ∧ t.br0.err = .badParameter ∧ t.br0.err.code = 1 ∧
      t.br0.res = s.br0.res ∧ t.sc = s.sc ∧ t.pd = s.pd)

/-- The dead check, 40_bitreader.md R133: a DEAD instance fails again and nothing changes, for
every width; a CLOSED one refuses. -/
def Obligations.DeadReaderStaysDead : Prop :=
  ∀ (w : Word) (s : State),
    (s.br0.st = .dead → exec (.brRead w) s = .next s) ∧
    (s.br0.st = .closed → exec (.brRead w) s = .refused .readOnClosed)

/-- `BR.READ 0`, 40_bitreader.md R139: returns 0, reads no byte, never EndOfStream. That RES is
written is the model's reading (note 15). -/
def Obligations.ReadOfWidthZeroReturnsZero : Prop :=
  ∀ s : State, s.br0.st = .ready →
    exec (.brRead 0) s = .next { s with br0 := { s.br0 with res := 0 } }

/-- The chunking law, 40_bitreader.md R138: however the requests are cut, the results recombine to
the stream's bits. -/
def Obligations.ChunkedReadsReproduceTheStream : Prop :=
  ∀ (ws : List Nat) (s : State), s.br0.st = .ready → readyInv s.bsrc s.br0 →
    (∀ w ∈ ws, w ≤ 31) → bitPos s.br0 + ws.sum ≤ 8 * s.br0.len →
    ∃ vs t, readSeq ws s = some (vs, t) ∧ vs.length = ws.length ∧ t.br0.st = .ready ∧
      recombine ws vs = (streamValue s.bsrc s.br0 / 2 ^ bitPos s.br0) % 2 ^ ws.sum ∧
      bitPos t.br0 = bitPos s.br0 + ws.sum

/-! ### SampleCodec -/

/-- `SC.DECODE` starts, 41_samplecodec.md R160, 10_state.md R47: the configuration from the
operands, DONE at once for no samples, else BUSY; nothing outside SC changes. -/
def Obligations.ScDecodeStartsTheCodec : Prop :=
  ∀ (slen : Nat) (depth16 so : Bool) (srclen : Nat) (s : State), s.sc.st ≠ .busy →
    ∃ t, exec (.scDecode slen depth16 so srclen) s = .next t ∧ t = { s with sc := t.sc } ∧
      t.sc.depth16 = depth16 ∧ t.sc.so = so ∧ t.sc.slen = slen ∧ t.sc.srclen = srclen ∧
      t.sc.spos = 0 ∧ t.sc.rem = slen ∧ t.sc.blk = 0 ∧ t.sc.out = [] ∧ t.sc.err = .noError ∧
      t.sc.st = if slen = 0 then .done else .busy

/-- Commands without a step, 70_reset_and_hazards.md R306: refused. -/
def Obligations.CommandsWithoutAStepAreRefused : Prop :=
  ∀ s : State,
    (s.br0.st = .closed → ∀ w, exec (.brRead w) s = .refused .readOnClosed) ∧
    (s.sc.st = .busy → ∀ n d o k, exec (.scDecode n d o k) s = .refused .startOnBusy) ∧
    (s.pd.st = .busy → ∀ r k, exec (.pdDecode r k) s = .refused .startOnBusy)

/-- `SC.CHUNK` opens a block: the window, whose start is an index in the model (note 12), and SPOS by
41_samplecodec.md R164; sample count, width and accumulators by R165. Everything else of SC and of
the machine is unchanged, but that the free-value counter advances for the result register of the
fresh reader (note 14), of which nothing is stated. -/
def Obligations.ChunkOpensAFreshBlock : Prop :=
  ∀ (len : BitVec 16) (s : State), s.sc.st = .busy → 0 < s.sc.rem → s.sc.blk = 0 →
    s.sc.spos + 2 + len.toNat ≤ s.sc.srclen →
    ∃ r, exec (.scChunk len) s = .next
        { s with
          sc := { s.sc with
            br := r, spos := s.sc.spos + 2 + len.toNat,
            blk := min s.sc.rem (if s.sc.depth16 then 16384 else 32768),
            w := BitVec.ofNat 17 (maxWidth s.sc.depth16), mem1 := 0, mem2 := 0 },
          free := s.free + 1 } ∧
      1 ≤ min s.sc.rem (if s.sc.depth16 then 16384 else 32768) ∧
      r.st = .ready ∧ r.err = .noError ∧ r.base = s.sc.spos + 2 ∧ r.len = len.toNat ∧
      r.pos = 0 ∧ r.buf = 0 ∧ r.cnt = 0

/-- The chunk fetch from the stream, 41_samplecodec.md R163: the little-endian length at
`SC.SPOS`; EndOfStream where header or payload is not wholly inside SSRC; else the window and SPOS
of R164, the window's start an index in the model (note 12). -/
def Obligations.ChunkFetchChecksHeaderAndPayload : Prop :=
  ∀ s : State, s.sc.st = .busy → 0 < s.sc.rem → s.sc.blk = 0 →
    let len := (readByte s.ssrc s.sc.spos).toNat + 256 * (readByte s.ssrc (s.sc.spos + 1)).toNat
    if s.sc.srclen < s.sc.spos + 2 then scTurn s = .next (raise .sc .endOfStream s)
    else if s.sc.srclen < s.sc.spos + 2 + len then scTurn s = .next (raise .sc .endOfStream s)
    else ∃ t, scTurn s = .next t ∧ scTurn s = exec (.scChunk (BitVec.ofNat 16 len)) s ∧
      t.sc.st = .busy ∧ t.sc.spos = s.sc.spos + 2 + len ∧ t.sc.br.len = len ∧
      t.sc.br.base = s.sc.spos + 2

/-- The width guard, 41_samplecodec.md R167, 60_exceptions.md R267: an illegal width is
DecodingError before any bit is read, whatever the payload holds. -/
def Obligations.IllegalWidthIsDecodingError : Prop :=
  ∀ s : State, s.sc.st = .busy → 0 < s.sc.blk →
    maxWidth s.sc.depth16 < s.sc.w.toNat → scTurn s = .next (raise .sc .decodingError s)

/-- The symbol step, 41_samplecodec.md R166, R168: at a legal width it reads the next `SC.W` stream
bits and runs the instruction they decode to, the reader past them; with fewer bits left it raises
EndOfStream. -/
def Obligations.SymbolStepRunsTheNextStreamBits : Prop :=
  ∀ s : State, s.sc.st = .busy → 0 < s.sc.blk → 1 ≤ s.sc.w.toNat →
    s.sc.w.toNat ≤ maxWidth s.sc.depth16 → readyInv s.ssrc s.sc.br →
    let v := (streamValue s.ssrc s.sc.br / 2 ^ bitPos s.sc.br) % 2 ^ s.sc.w.toNat
    if 8 * s.sc.br.len < bitPos s.sc.br + s.sc.w.toNat then
      scTurn s = .next (raise .scBr .endOfStream s)
    else
      ∃ i r, decode s.params (.sym s.sc.w.toNat v) = .ok i ∧ WellFormed s.params i = true ∧
        scTurn s = exec i { s with sc := { s.sc with br := r } } ∧
        bitPos r = bitPos s.sc.br + s.sc.w.toNat ∧ readyInv s.ssrc r ∧
        r.st = s.sc.br.st ∧ r.err = s.sc.br.err ∧ r.base = s.sc.br.base ∧
        r.len = s.sc.br.len ∧ r.res.toNat = v

/-- `SC.A.DELTA`, 41_samplecodec.md R170, R176, R177: adds `sext_w(v)` and emits the sample;
nothing else changes. -/
def Obligations.ModeADeltaAddsSignedValue : Prop :=
  ∀ (w v : Nat) (s : State), s.sc.st = .busy → 0 < s.sc.blk → s.sc.w.toNat = w →
    1 ≤ w → w ≤ 6 → v < 2 ^ w → v ≠ 2 ^ (w - 1) →
    ∃ x : Sample,
      x.toInt = sextInt (nativeWidth s.sc.depth16) (emitted s.sc (sextInt w v)).toInt ∧
      exec (.scADelta w v) s = .next { s with sc := afterDelta s.sc (sextInt w v) x }

/-- `SC.B.DELTA`, 41_samplecodec.md R173, R176, R177, for every value of the biases. -/
def Obligations.ModeBDeltaAddsSignedValue : Prop :=
  ∀ (w v : Nat) (s : State), s.sc.st = .busy → 0 < s.sc.blk → s.sc.w.toNat = w →
    6 < w → w < maxWidth s.sc.depth16 → v < 2 ^ w →
    ¬((2 ^ (w - 1) : Int) + lowerBiasOf s.biases s.sc.depth16 ≤ v ∧
      (v : Int) ≤ 2 ^ (w - 1) + upperBiasOf s.biases s.sc.depth16) →
    ∃ x : Sample,
      x.toInt = sextInt (nativeWidth s.sc.depth16) (emitted s.sc (sextInt w v)).toInt ∧
      exec (.scBDelta w v) s = .next { s with sc := afterDelta s.sc (sextInt w v) x }

/-- `SC.C.DELTA`, 41_samplecodec.md R174, R176, R177: adds the value unsigned. -/
def Obligations.ModeCDeltaAddsUnsignedValue : Prop :=
  ∀ (w v : Nat) (s : State), s.sc.st = .busy → 0 < s.sc.blk → s.sc.w.toNat = w →
    w = maxWidth s.sc.depth16 → v < 2 ^ (w - 1) →
    ∃ x : Sample,
      x.toInt = sextInt (nativeWidth s.sc.depth16) (emitted s.sc v).toInt ∧
      exec (.scCDelta w v) s = .next { s with sc := afterDelta s.sc v x }

/-- `SC.A.ESC`, 41_samplecodec.md R169, R171: the FW field `d` gives the width `d + 1`, or `d + 2`
from the current width on; no sample; EndOfStream where the field is cut. -/
def Obligations.ModeAEscapeChangesTheWidth : Prop :=
  ∀ (w : Nat) (s : State), s.sc.st = .busy → 0 < s.sc.blk → s.sc.w.toNat = w → 1 ≤ w → w ≤ 6 →
    readyInv s.ssrc s.sc.br →
    let fw := fwWidth s.sc.depth16
    let d := (streamValue s.ssrc s.sc.br / 2 ^ bitPos s.sc.br) % 2 ^ fw
    let x := if d + 1 < w then d + 1 else d + 2
    if 8 * s.sc.br.len < bitPos s.sc.br + fw then
      exec (.scAEsc w) s = .next (raise .scBr .endOfStream s)
    else
      ∃ r, exec (.scAEsc w) s =
          .next { s with sc := { s.sc with br := r, w := BitVec.ofNat 17 x } } ∧
        bitPos r = bitPos s.sc.br + fw ∧ readyInv s.ssrc r ∧ r.st = s.sc.br.st ∧
        r.err = s.sc.br.err ∧ r.base = s.sc.br.base ∧ r.len = s.sc.br.len ∧ r.res.toNat = d ∧
        x ≠ w ∧ 1 ≤ x ∧ x ≤ 2 ^ fw + 1

/-- `SC.B.ESC`, 41_samplecodec.md R172, R171, for every value of the biases under which the new
width fits the 17-bit register (10_state.md R32): the width from `v - (tb + LB)`; nothing else
changes. The other biases are `ModeBEscapePastTheRegisterIsIllegal`'s. -/
def Obligations.ModeBEscapeChangesTheWidth : Prop :=
  ∀ (w v : Nat) (s : State), s.sc.st = .busy → 0 < s.sc.blk → s.sc.w.toNat = w →
    6 < w → w < maxWidth s.sc.depth16 → v < 2 ^ w →
    (2 ^ (w - 1) : Int) + lowerBiasOf s.biases s.sc.depth16 ≤ v →
    (v : Int) ≤ 2 ^ (w - 1) + upperBiasOf s.biases s.sc.depth16 →
    ∃ x d : Nat, (d : Int) = v - (2 ^ (w - 1) + lowerBiasOf s.biases s.sc.depth16) ∧
      x = (if d + 1 < w then d + 1 else d + 2) ∧
      (x < 2 ^ 17 →
        exec (.scBEsc w v) s = .next { s with sc := { s.sc with w := BitVec.ofNat 17 x } })

/-- `SC.B.ESC` under biases so far apart that the new width does not fit 17 bits: the step runs,
the register gets a free value above `W0` (note 24), and the next step of SC is the width fault
that 30_encoding.md R107 predicts; nothing else changes. -/
def Obligations.ModeBEscapePastTheRegisterIsIllegal : Prop :=
  ∀ (w v : Nat) (s : State), s.sc.st = .busy → 0 < s.sc.blk → s.sc.w.toNat = w →
    6 < w → w < maxWidth s.sc.depth16 → v < 2 ^ w →
    (2 ^ (w - 1) : Int) + lowerBiasOf s.biases s.sc.depth16 ≤ v →
    (v : Int) ≤ 2 ^ (w - 1) + upperBiasOf s.biases s.sc.depth16 →
    (2 ^ 17 : Int) ≤ v - (2 ^ (w - 1) + lowerBiasOf s.biases s.sc.depth16) + 2 →
    ∃ t, exec (.scBEsc w v) s = .next t ∧ maxWidth s.sc.depth16 < t.sc.w.toNat ∧
      t = { s with sc := { s.sc with w := t.sc.w }, free := t.free } ∧
      scTurn t = .next (raise .sc .decodingError t)

/-- `SC.C.SETW`, 41_samplecodec.md R175: the low part plus one, absolute, in `1..2^(W0-1)`; nothing
else changes. -/
def Obligations.ModeCSetsTheWidthAbsolutely : Prop :=
  ∀ (w v : Nat) (s : State), s.sc.st = .busy → 0 < s.sc.blk → s.sc.w.toNat = w →
    w = maxWidth s.sc.depth16 → 2 ^ (w - 1) ≤ v → v < 2 ^ w →
    exec (.scCSetw w v) s =
        .next { s with sc := { s.sc with w := BitVec.ofNat 17 (v - 2 ^ (w - 1) + 1) } } ∧
      1 ≤ v - 2 ^ (w - 1) + 1 ∧ v - 2 ^ (w - 1) + 1 ≤ 2 ^ (maxWidth s.sc.depth16 - 1)

/-- `change_width`, 41_samplecodec.md R171: the deltas count through the widths in order with the
current one left out. -/
def Obligations.ChangeWidthSkipsTheCurrentWidth : Prop :=
  ∀ w : Nat, 1 ≤ w →
    (∀ d, changeWidth w d ≠ w ∧ changeWidth w d = if d + 1 < w then d + 1 else d + 2) ∧
    (∀ d, changeWidth w d < changeWidth w (d + 1)) ∧
    (∀ x, 1 ≤ x → x ≠ w → ∃ d, changeWidth w d = x)

/-- Only the low `N` bits matter, 41_samplecodec.md R178: the samples of a block are `sext_N` of
the running sums of its deltas, or of the running sums of those. -/
def Obligations.SamplesAreRunningSumsOfDeltas : Prop :=
  ∀ (l : List (Nat × Nat)) (c : Sc), c.mem1 = 0 → c.mem2 = 0 →
    let es := l.map fun p => writeDelta p.1 p.2
    let sums := if c.so then runningSums 0 (runningSums 0 es) else runningSums 0 es
    ∃ xs : List Sample,
      (l.foldl (fun c p => writeSample p.1 p.2 c) c).out = c.out ++ xs ∧
      xs.map BitVec.toInt = sums.map (sextInt (nativeWidth c.depth16))

/-- Completion of SC and of PD, 41_samplecodec.md R180, 42_patterndecoder.md R223. -/
def Obligations.FinishedUnitsBecomeDone : Prop :=
  ∀ s : State,
    (s.sc.st = .busy → s.sc.blk = 0 → s.sc.rem = 0 →
      scTurn s = .next { s with sc := { s.sc with st := .done } }) ∧
    (s.pd.st = .busy → s.pd.cmd = none → s.pd.row = s.pd.rows →
      pdTurn s = .next { s with pd := { s.pd with st := .done } })

/-- Block isolation, 41_samplecodec.md R184: between blocks, what an earlier block left in the
width, the accumulators, the reader and the output changes nothing of the samples to come. -/
def Obligations.BlocksAreIsolated : Prop :=
  ∀ (s : State) (w : Width) (mem1 mem2 : Word) (br : Br) (out : List Sample) (n : Nat),
    s.sc.st = .busy → s.sc.blk = 0 →
    ∃ t u, runTurns scTurn n s = .next t ∧
      runTurns scTurn n { s with sc := { s.sc with
        w := w, mem1 := mem1, mem2 := mem2, br := br, out := out } } = .next u ∧
      u.sc.st = t.sc.st ∧ u.sc.err = t.sc.err ∧
      (t.sc.st ≠ .fault → ∃ xs, t.sc.out = s.sc.out ++ xs ∧ u.sc.out = out ++ xs)

/-- A decode is a function of its operands and source bytes, 10_state.md R49, 20_memory.md R79. -/
def Obligations.ScDecodeDependsOnlyOnItsInputs : Prop :=
  ∀ (slen : Nat) (depth16 so : Bool) (srclen : Nat) (s s' : State) (n : Nat),
    s.sc.st ≠ .busy → s'.sc.st ≠ .busy → s.ssrc = s'.ssrc → s.biases = s'.biases →
    ∃ a a' t t', exec (.scDecode slen depth16 so srclen) s = .next a ∧
      exec (.scDecode slen depth16 so srclen) s' = .next a' ∧
      runTurns scTurn n a = .next t ∧ runTurns scTurn n a' = .next t' ∧
      t.sc.st = t'.sc.st ∧ t.sc.err = t'.sc.err ∧ (t.sc.st ≠ .fault → t.sc.out = t'.sc.out)

/-- Every `SC.DECODE` ends in DONE or FAULT, 60_exceptions.md R278. -/
def Obligations.EveryScDecodeTerminates : Prop :=
  ∀ s : State, Inv s → s.sc.st = .busy →
    ∃ n t, runTurns scTurn n s = .next t ∧
      ((t.sc.st = .done ∧ t.sc.out.length = t.sc.slen) ∨
        (t.sc.st = .fault ∧ t.sc.err ≠ .noError))

/-! ### PatternDecoder -/

/-- `PD.DECODE` starts, 10_state.md R48, 42_patterndecoder.md R210: every register initialised,
nothing outside PD changes. -/
def Obligations.PdDecodeStartsAFreshPattern : Prop :=
  ∀ (rows srclen : Nat) (s : State), s.pd.st ≠ .busy →
    ∃ t, exec (.pdDecode rows srclen) s = .next t ∧ t = { s with pd := t.pd } ∧
      t.pd.rows = rows ∧ t.pd.srclen = srclen ∧ t.pd.pos = 0 ∧ t.pd.row = 0 ∧
      (∀ c, t.pd.chan c = { mask := 0, note := 0, ins := 0, vol := 0, eff := 0, prm := 0 }) ∧
      t.pd.cur = [] ∧ t.pd.out = [] ∧ t.pd.err = .noError ∧
      t.pd.st = if rows = 0 then .done else .busy

/-- `PD.END`, 42_patterndecoder.md R213: the row joins the output, the ChannelState records stay. -/
def Obligations.RowEndEmitsTheRow : Prop :=
  ∀ s : State, s.pd.st = .busy → s.pd.row < s.pd.rows → s.pd.cmd = none →
    exec .pdEnd s = .next { s with pd := { s.pd with
      out := s.pd.out ++ [s.pd.cur], cur := [], row := s.pd.row + 1 } }

/-- `PD.SELM` and `PD.SEL`, 30_encoding.md R95 to R99, 42_patterndecoder.md R214 to R222: the bytes
the effective mask asks for are consumed, the channel's record and only it is written, the entry
joins the row unless the mask is 0, and nothing else changes; InvalidSource where a byte is
missing. PD.POS is past the select byte. -/
def Obligations.ChannelSelectCommandDecodesItsFields : Prop :=
  ∀ (b : Byte) (s : State), b ≠ 0 → s.pd.st = .busy → s.pd.row < s.pd.rows →
    s.pd.cmd = none → s.pd.pos ≤ s.pd.srclen →
    let i : Instr := if b.getLsbD 7 then .pdSelm b else .pdSel b
    let c := selectedChannel b
    let mask := effectiveMask s.psrc b s.pd
    let x := recordAfter s.psrc b s.pd
    commandEnd s.psrc b s.pd ≤ s.pd.pos + 6 ∧
    if s.pd.srclen < commandEnd s.psrc b s.pd then
      exec i s = .next (raise .pd .invalidSource s)
    else
      exec i s = .next { s with pd := { s.pd with
        pos := commandEnd s.psrc b s.pd,
        ch := s.pd.ch.set c.toNat x c.isLt,
        cur := if mask = 0 then s.pd.cur else s.pd.cur ++ [entryOf c mask x] } }

/-- The finer view, 42_patterndecoder.md R212: opening a command and doing its fields one step each
ends where the whole command ends, in the same state, errors included. -/
def Obligations.FieldStepsComposeToTheWholeCommand : Prop :=
  ∀ s : State, s.pd.st = .busy → s.pd.row < s.pd.rows → s.pd.cmd = none →
    ∃ t, pdBeginTurn s = .next t ∧
      runTurns pdTurn (match t.pd.cmd with
        | some k => k.todo.length + 1
        | none => 0) t = pdTurn s

/-- `PD.F.NOTE`, 42_patterndecoder.md R217, on the command in progress. -/
def Obligations.NoteFieldReadsOrRepeats : Prop :=
  ∀ (m : Byte) (k : PdCmd) (s : State), s.pd.st = .busy → s.pd.cmd = some k → k.mask = m →
    k.todo.head? = some .note → (m.getLsbD 0 || m.getLsbD 4) = true →
    let old := s.pd.chan k.chan
    let n := maskBit m 0
    let x := if m.getLsbD 0 then readByte s.psrc s.pd.pos else old.note
    if m.getLsbD 0 = true ∧ s.pd.srclen ≤ s.pd.pos then
      exec (.pdFNote m) s = .next (raise .pd .invalidSource s)
    else
      exec (.pdFNote m) s = .next { s with pd := { s.pd with
        pos := s.pd.pos + n,
        ch := s.pd.ch.set k.chan.toNat { old with note := x } k.chan.isLt,
        cmd := some { k with entry := { k.entry with note := noteXlat x },
                             todo := k.todo.tail } } }

/-- `PD.F.INS`, 42_patterndecoder.md R218, on the command in progress. -/
def Obligations.InstrumentFieldReadsOrRepeats : Prop :=
  ∀ (m : Byte) (k : PdCmd) (s : State), s.pd.st = .busy → s.pd.cmd = some k → k.mask = m →
    k.todo.head? = some .ins → (m.getLsbD 1 || m.getLsbD 5) = true →
    let old := s.pd.chan k.chan
    let n := maskBit m 1
    let x := if m.getLsbD 1 then readByte s.psrc s.pd.pos else old.ins
    if m.getLsbD 1 = true ∧ s.pd.srclen ≤ s.pd.pos then
      exec (.pdFIns m) s = .next (raise .pd .invalidSource s)
    else
      exec (.pdFIns m) s = .next { s with pd := { s.pd with
        pos := s.pd.pos + n,
        ch := s.pd.ch.set k.chan.toNat { old with ins := x } k.chan.isLt,
        cmd := some { k with entry := { k.entry with instrument := x },
                             todo := k.todo.tail } } }

/-- `PD.F.VOL`, 42_patterndecoder.md R219, on the command in progress. -/
def Obligations.VolumeFieldReadsOrRepeats : Prop :=
  ∀ (m : Byte) (k : PdCmd) (s : State), s.pd.st = .busy → s.pd.cmd = some k → k.mask = m →
    k.todo.head? = some .vol → (m.getLsbD 2 || m.getLsbD 6) = true →
    let old := s.pd.chan k.chan
    let n := maskBit m 2
    let x := if m.getLsbD 2 then readByte s.psrc s.pd.pos else old.vol
    if m.getLsbD 2 = true ∧ s.pd.srclen ≤ s.pd.pos then
      exec (.pdFVol m) s = .next (raise .pd .invalidSource s)
    else
      exec (.pdFVol m) s = .next { s with pd := { s.pd with
        pos := s.pd.pos + n,
        ch := s.pd.ch.set k.chan.toNat { old with vol := x } k.chan.isLt,
        cmd := some { k with entry := { k.entry with volumeCommand := (volXlat x).1,
                                                     volumeParam := (volXlat x).2 },
                             todo := k.todo.tail } } }

/-- `PD.F.EFF`, 42_patterndecoder.md R220, on the command in progress: both bytes or neither. -/
def Obligations.EffectFieldReadsOrRepeats : Prop :=
  ∀ (m : Byte) (k : PdCmd) (s : State), s.pd.st = .busy → s.pd.cmd = some k → k.mask = m →
    k.todo.head? = some .eff → (m.getLsbD 3 || m.getLsbD 7) = true →
    let old := s.pd.chan k.chan
    let n := 2 * maskBit m 3
    let x := if m.getLsbD 3 then readByte s.psrc s.pd.pos else old.eff
    let y := if m.getLsbD 3 then readByte s.psrc (s.pd.pos + 1) else old.prm
    if m.getLsbD 3 = true ∧ s.pd.srclen < s.pd.pos + 2 then
      exec (.pdFEff m) s = .next (raise .pd .invalidSource s)
    else
      exec (.pdFEff m) s = .next { s with pd := { s.pd with
        pos := s.pd.pos + n,
        ch := s.pd.ch.set k.chan.toNat { old with eff := x, prm := y } k.chan.isLt,
        cmd := some { k with entry := { k.entry with effect := x, effectParam := y },
                             todo := k.todo.tail } } }

/-- `NoteXlat`, 42_patterndecoder.md R225. -/
def Obligations.NoteTranslationTable : Prop :=
  ∀ r : Byte,
    (r.toNat ≤ 120 → (noteXlat r).toNat = r.toNat + 1) ∧
    (r.toNat = 254 → (noteXlat r).toNat = 254) ∧
    (r.toNat = 255 → (noteXlat r).toNat = 255) ∧
    (121 ≤ r.toNat → r.toNat ≤ 253 → (noteXlat r).toNat = 253) ∧
    (noteXlat r).toNat ≠ 0 ∧ ¬(122 ≤ (noteXlat r).toNat ∧ (noteXlat r).toNat ≤ 252)

/-- `VolXlat`, 42_patterndecoder.md R226, R227: every range of the table. -/
def Obligations.VolumeTranslationTable : Prop :=
  ∀ r : Byte,
    let v := r.toNat
    let p : Nat × Nat := ((volXlat r).1.toNat, (volXlat r).2.toNat)
    (v ≤ 64 → p = (1, v)) ∧
    (65 ≤ v → v ≤ 74 → p = (2, v - 65)) ∧
    (75 ≤ v → v ≤ 84 → p = (3, v - 75)) ∧
    (85 ≤ v → v ≤ 94 → p = (4, v - 85)) ∧
    (95 ≤ v → v ≤ 104 → p = (5, v - 95)) ∧
    (105 ≤ v → v ≤ 114 → p = (6, v - 105)) ∧
    (115 ≤ v → v ≤ 124 → p = (7, v + 256 - 125)) ∧
    (125 ≤ v → v ≤ 127 → p = (0, 0)) ∧
    (v = 128 → p = (8, 0)) ∧
    (129 ≤ v → v ≤ 202 → p = (9, v - 129)) ∧
    (203 ≤ v → v ≤ 212 → p = (10, v - 203)) ∧
    (213 ≤ v → p = (0, 0))

/-- Every `PD.DECODE` ends in DONE or FAULT, 60_exceptions.md R278. -/
def Obligations.EveryPdDecodeTerminates : Prop :=
  ∀ s : State, Inv s → s.pd.st = .busy →
    ∃ n t, runTurns pdTurn n s = .next t ∧
      ((t.pd.st = .done ∧ t.pd.out.length = t.pd.rows) ∨
        (t.pd.st = .fault ∧ t.pd.err = .invalidSource))

/-! ### Faults, steps and the whole machine -/

/-- `raise K`, 60_exceptions.md R270: the unit's ST and ERR are set and no other unit is touched.
The unit's other registers become free values (note 6), but for BR0.RES, which is kept; of the
free ones nothing is stated. -/
def Obligations.RaiseFailsItsUnitAndNoOther : Prop :=
  ∀ (k : ErrKind) (s : State),
    ((raise .br0 k s).br0.st = .dead ∧ (raise .br0 k s).br0.err = k ∧
      (raise .br0 k s).br0.res = s.br0.res ∧ (raise .br0 k s).sc = s.sc ∧
      (raise .br0 k s).pd = s.pd) ∧
    ((raise .sc k s).sc.st = .fault ∧ (raise .sc k s).sc.err = k ∧
      (raise .sc k s).br0 = s.br0 ∧ (raise .sc k s).pd = s.pd) ∧
    ((raise .scBr k s).sc.st = .fault ∧ (raise .scBr k s).sc.err = k ∧
      (raise .scBr k s).sc.br.st = .dead ∧ (raise .scBr k s).sc.br.err = k ∧
      (raise .scBr k s).br0 = s.br0 ∧ (raise .scBr k s).pd = s.pd) ∧
    ((raise .pd k s).pd.st = .fault ∧ (raise .pd k s).pd.err = k ∧
      (raise .pd k s).br0 = s.br0 ∧ (raise .pd k s).sc = s.sc) ∧
    ∀ who, (raise who k s).bsrc = s.bsrc ∧ (raise who k s).ssrc = s.ssrc ∧
      (raise who k s).psrc = s.psrc ∧ (raise who k s).biases = s.biases ∧
      (raise who k s).agenda = s.agenda

/-- The error codes, 60_exceptions.md R260. -/
def Obligations.ErrorCodesOfTheKinds : Prop :=
  ErrKind.noError.code = 0 ∧ ErrKind.badParameter.code = 1 ∧ ErrKind.endOfStream.code = 2 ∧
    ErrKind.decodingError.code = 3 ∧ ErrKind.invalidSource.code = 4

/-- A start command revives a failed unit, 60_exceptions.md R271. -/
def Obligations.StartCommandsReviveFailedUnits : Prop :=
  ∀ s : State,
    (s.br0.st = .dead → ∀ len, ∃ t, exec (.brOpen len) s = .next t ∧
      t.br0.st = .ready ∧ t.br0.err = .noError) ∧
    (s.sc.st = .fault → ∀ n d o k, ∃ t, exec (.scDecode n d o k) s = .next t ∧
      t.sc.st ≠ .fault ∧ t.sc.err = .noError) ∧
    (s.pd.st = .fault → ∀ r k, ∃ t, exec (.pdDecode r k) s = .next t ∧
      t.pd.st ≠ .fault ∧ t.pd.err = .noError)

/-- A step runs the decoded instruction, for each kind of fetch: a host command, a symbol, a chunk
header, a select byte, a field of a command in progress. The turn is taken from the agenda, the
host's bytes are placed, a symbol's bits and a select byte are consumed. -/
def Obligations.StepRunsTheDecodedInstruction : Prop :=
  ∀ (s : State) (l : List Turn) (i : Instr),
    (∀ m s', s.agenda = .host m :: l → placeSource m (s.setAgenda l) = .ok s' →
      decode s'.params (.cmd m.command) = .ok i → step s = exec i s') ∧
    (∀ r, s.agenda = .sc :: l → s.sc.st = .busy → 0 < s.sc.blk →
      s.sc.w.toNat ≤ s.params.defaultWidth → readBr s.ssrc s.sc.w.toNat s.sc.br = .ok r →
      decode s.params (.sym s.sc.w.toNat r.res.toNat) = .ok i →
      step s = exec i { s with agenda := l, sc := { s.sc with br := r } }) ∧
    (s.agenda = .sc :: l → s.sc.st = .busy → s.sc.blk = 0 → 0 < s.sc.rem →
      s.sc.spos + 2 ≤ s.sc.srclen →
      decode s.params (.chunk (readByte s.ssrc s.sc.spos) (readByte s.ssrc (s.sc.spos + 1))) =
        .ok i →
      step s = exec i { s with agenda := l }) ∧
    (s.agenda = .pd :: l → s.pd.st = .busy → s.pd.cmd = none → s.pd.row < s.pd.rows →
      s.pd.pos < s.pd.srclen → decode s.params (.sel (readByte s.psrc s.pd.pos)) = .ok i →
      step s = exec i { s with agenda := l, pd := { s.pd with pos := s.pd.pos + 1 } }) ∧
    (∀ k x xs, s.agenda = .pd :: l → s.pd.st = .busy → s.pd.cmd = some k → k.todo = x :: xs →
      decode s.params (.field x k.mask) = .ok i → step s = exec i { s with agenda := l })

/-- An empty agenda lets a BUSY unit step, SC first, and leaves an idle machine as it is: the
model's scheduling (note 1) and 10_state.md R45, 'a unit does nothing until the host issues a
command'. -/
def Obligations.EmptyAgendaRunsBusyUnitsOrIdles : Prop :=
  ∀ s : State, s.agenda = [] →
    (s.sc.st = .busy → step s = scTurn s) ∧
    (s.sc.st ≠ .busy → s.pd.st = .busy → step s = pdTurn s) ∧
    (s.sc.st ≠ .busy → s.pd.st ≠ .busy → step s = .next s)

/-- An instruction changes its own unit only, and never a source space, 00_scope.md R6,
20_memory.md R62, 40_bitreader.md R141. -/
def Obligations.InstructionsTouchOnlyTheirUnit : Prop :=
  ∀ (i : Instr) (s t : State), exec i s = .next t →
    t.bsrc = s.bsrc ∧ t.ssrc = s.ssrc ∧ t.psrc = s.psrc ∧ t.biases = s.biases ∧
    t.agenda = s.agenda ∧
    match i with
    | .brOpen _ | .brRead _ => t.sc = s.sc ∧ t.pd = s.pd
    | .scDecode _ _ _ _ | .scChunk _ | .scAEsc _ | .scADelta _ _ | .scBEsc _ _ | .scBDelta _ _
    | .scCSetw _ _ | .scCDelta _ _ => t.br0 = s.br0 ∧ t.pd = s.pd
    | .pdDecode _ _ | .pdEnd | .pdSelm _ | .pdSel _ | .pdFNote _ | .pdFIns _ | .pdFVol _
    | .pdFEff _ => t.br0 = s.br0 ∧ t.sc = s.sc

/-- Only the host changes a source space, 20_memory.md R62; the open parameters never change. That
the host does so only together with the start command of the space's unit, and as a whole new
space, is the model's choice (note 9): 20_memory.md R77 lets it rewrite a buffer freely between
commands. -/
def Obligations.OnlyTheHostWritesSourceSpaces : Prop :=
  ∀ s t : State, step s = .next t →
    t.biases = s.biases ∧
    ((t.bsrc = s.bsrc ∧ t.ssrc = s.ssrc ∧ t.psrc = s.psrc) ∨
      ∃ m l bytes, s.agenda = .host m :: l ∧ m.source = some bytes ∧
        ((m.command.name = .brOpen ∧ t.ssrc = s.ssrc ∧ t.psrc = s.psrc ∧
            t.bsrc = loadBytes [] 0 bytes ∧
            ∀ i (h : i < bytes.length), readByte t.bsrc i = bytes[i]) ∨
         (m.command.name = .scDecode ∧ s.sc.st ≠ .busy ∧ t.bsrc = s.bsrc ∧ t.psrc = s.psrc ∧
            t.ssrc = loadBytes [] 0 bytes ∧
            ∀ i (h : i < bytes.length), readByte t.ssrc i = bytes[i]) ∨
         (m.command.name = .pdDecode ∧ s.pd.st ≠ .busy ∧ t.bsrc = s.bsrc ∧ t.ssrc = s.ssrc ∧
            t.psrc = loadBytes [] 0 bytes ∧
            ∀ i (h : i < bytes.length), readByte t.psrc i = bytes[i])))

/-- A host turn with a start command and the bytes for its unit answers, and an index reads the byte
the host placed there, 20_memory.md R74(a), R77, 70_reset_and_hazards.md R302. The agenda and the
form of a host move are the model's own (notes 1, 9, 18). -/
def Obligations.HostBytesAreWhatTheUnitReads : Prop :=
  ∀ (s : State) (bytes : List Byte) (l : List Turn) (c : Transaction),
    s.agenda = .host { source := some bytes, command := c } :: l →
    (∀ len, encode (.brOpen len) = .cmd c → ∃ t, step s = .next t ∧ t.agenda = l ∧
      t.br0.st = .ready ∧ t.br0.len = len ∧
      ∀ i (h : i < bytes.length), readByte t.bsrc i = bytes[i]) ∧
    (∀ n d o k, encode (.scDecode n d o k) = .cmd c → s.sc.st ≠ .busy →
      ∃ t, step s = .next t ∧ t.agenda = l ∧ t.sc.slen = n ∧ t.sc.srclen = k ∧
        ∀ i (h : i < bytes.length), readByte t.ssrc i = bytes[i]) ∧
    (∀ r k, encode (.pdDecode r k) = .cmd c → s.pd.st ≠ .busy →
      ∃ t, step s = .next t ∧ t.agenda = l ∧ t.pd.rows = r ∧ t.pd.srclen = k ∧
        ∀ i (h : i < bytes.length), readByte t.psrc i = bytes[i])

/-- A unit's step sees nothing of the other units, 20_memory.md R70, R74: a BR.OPEN or BR.READ
depends on BR0 and BSRC, SC's step on SC, SSRC and the open parameters, PD's step, in both views
of a command, on PD and PSRC (and each on the free value to come). -/
def Obligations.UnitStepsSeeOnlyTheirOwnUnit : Prop :=
  ∀ s s' : State, s.free = s'.free →
    (s.br0 = s'.br0 → s.bsrc = s'.bsrc →
      (∀ len t, exec (.brOpen len) s = .next t →
        ∃ t', exec (.brOpen len) s' = .next t' ∧ t'.br0 = t.br0 ∧ t'.free = t.free) ∧
      (∀ w t, exec (.brRead w) s = .next t →
        ∃ t', exec (.brRead w) s' = .next t' ∧ t'.br0 = t.br0 ∧ t'.free = t.free)) ∧
    (s.sc = s'.sc → s.ssrc = s'.ssrc → s.biases = s'.biases → ∀ t, scTurn s = .next t →
      ∃ t', scTurn s' = .next t' ∧ t'.sc = t.sc ∧ t'.free = t.free) ∧
    (s.pd = s'.pd → s.psrc = s'.psrc →
      (∀ t, pdTurn s = .next t →
        ∃ t', pdTurn s' = .next t' ∧ t'.pd = t.pd ∧ t'.free = t.free) ∧
      (∀ t, pdBeginTurn s = .next t →
        ∃ t', pdBeginTurn s' = .next t' ∧ t'.pd = t.pd ∧ t'.free = t.free))

/-- Power-on reset, 10_state.md R45. The reader inside SC is CLOSED and the model's own fields are
empty by the model's choice (notes 1, 6, 8, 13); they are not stated here. -/
def Obligations.ResetLeavesTheUnitsIdle : Prop :=
  let s := State.reset
  s.br0.st = .closed ∧ s.sc.st = .idle ∧ s.pd.st = .idle ∧
  s.br0.err = .noError ∧ s.sc.err = .noError ∧ s.pd.err = .noError ∧ s.br0.res = 0 ∧
  s.sc.out = [] ∧ s.pd.out = [] ∧ s.pd.cur = [] ∧
  s.br0.len = 0 ∧ s.br0.pos = 0 ∧ s.br0.buf = 0 ∧ s.br0.cnt = 0 ∧
  s.sc.depth16 = false ∧ s.sc.so = false ∧ s.sc.slen = 0 ∧ s.sc.srclen = 0 ∧ s.sc.spos = 0 ∧
  s.sc.rem = 0 ∧ s.sc.blk = 0 ∧ s.sc.w = 0 ∧ s.sc.mem1 = 0 ∧ s.sc.mem2 = 0 ∧
  s.sc.br.err = .noError ∧ s.sc.br.res = 0 ∧ s.sc.br.len = 0 ∧ s.sc.br.pos = 0 ∧
  s.sc.br.buf = 0 ∧ s.sc.br.cnt = 0 ∧
  s.pd.rows = 0 ∧ s.pd.srclen = 0 ∧ s.pd.pos = 0 ∧ s.pd.row = 0 ∧
  ∀ c, s.pd.chan c = { mask := 0, note := 0, ins := 0, vol := 0, eff := 0, prm := 0 }

/-- The invariant holds at reset. -/
def Obligations.ResetMeetsTheInvariant : Prop := Inv State.reset

/-- Every step keeps the invariant: source spaces canonical (note 3), the readers' pending bits the
stream's, ERR exactly in a failed unit, counts that agree with the output, legal entries
(10_state.md R24 to R27, R31, R34, R35, R39 to R41; 41_samplecodec.md R182). -/
def Obligations.EveryStepKeepsTheInvariant : Prop :=
  ∀ s t : State, Inv s → step s = .next t → Inv t

/-- SC's and PD's turns always answer in a machine that meets the invariant, and so does every step
that is no host move, 60_exceptions.md R278, 'There is no hang and no wait state in the CORE'. A
host move can be refused (note 21). -/
def Obligations.ScAndPdTurnsAlwaysAnswer : Prop :=
  ∀ s : State, Inv s → (∃ t, scTurn s = .next t) ∧ (∃ t, pdTurn s = .next t) ∧
    (∃ t, pdBeginTurn s = .next t) ∧
    ((∀ m l, s.agenda ≠ .host m :: l) → ∃ t, step s = .next t)
end

