-- ==== Sys2Proof/Laws/BitReader.lean ====
section
/-! SUPPORT. What the BitReader's operations change and leave (40_bitreader.md R130 to R136). -/

namespace Sys2Proof.Machine

/-- Two readers with the same status, error, binding and result. -/
def sameBinding (r r' : Br) : Prop :=
  r'.st = r.st ∧ r'.err = r.err ∧ r'.base = r.base ∧ r'.len = r.len

theorem sameBinding_rfl (r : Br) : sameBinding r r := ⟨rfl, rfl, rfl, rfl⟩

theorem sameBinding_trans {r r' r'' : Br} (h : sameBinding r r') (h' : sameBinding r' r'') :
    sameBinding r r'' :=
  ⟨h'.1.trans h.1, h'.2.1.trans h.2.1, h'.2.2.1.trans h.2.2.1, h'.2.2.2.trans h.2.2.2⟩

@[simp] theorem openBr_st (f : Br) (base len : Nat) : (openBr f base len).st = .ready := rfl
@[simp] theorem openBr_err (f : Br) (base len : Nat) : (openBr f base len).err = .noError := rfl
@[simp] theorem openBr_res (f : Br) (base len : Nat) : (openBr f base len).res = f.res := rfl
@[simp] theorem openBr_base (f : Br) (base len : Nat) : (openBr f base len).base = base := rfl
@[simp] theorem openBr_len (f : Br) (base len : Nat) : (openBr f base len).len = len := rfl
@[simp] theorem openBr_pos (f : Br) (base len : Nat) : (openBr f base len).pos = 0 := rfl
@[simp] theorem openBr_buf (f : Br) (base len : Nat) : (openBr f base len).buf = 0 := rfl
@[simp] theorem openBr_cnt (f : Br) (base len : Nat) : (openBr f base len).cnt = 0 := rfl

@[simp] theorem loadByte_pos (m : Memory) (r : Br) : (loadByte m r).pos = r.pos + 1 := rfl
@[simp] theorem loadByte_cnt (m : Memory) (r : Br) : (loadByte m r).cnt = r.cnt + 8 := rfl
@[simp] theorem loadByte_len (m : Memory) (r : Br) : (loadByte m r).len = r.len := rfl
@[simp] theorem loadByte_base (m : Memory) (r : Br) : (loadByte m r).base = r.base := rfl
@[simp] theorem loadByte_res (m : Memory) (r : Br) : (loadByte m r).res = r.res := rfl

@[simp] theorem extract_pos (w : Nat) (r : Br) : (extract w r).pos = r.pos := rfl
@[simp] theorem extract_cnt (w : Nat) (r : Br) : (extract w r).cnt = r.cnt - w := rfl
@[simp] theorem extract_buf (w : Nat) (r : Br) : (extract w r).buf = r.buf >>> w := rfl
@[simp] theorem extract_res (w : Nat) (r : Br) :
    (extract w r).res = BitVec.ofNat 32 (r.buf.toNat % 2 ^ w) := rfl

theorem loadByte_sameBinding (m : Memory) (r : Br) : sameBinding r (loadByte m r) :=
  ⟨rfl, rfl, rfl, rfl⟩

theorem extract_sameBinding (w : Nat) (r : Br) : sameBinding r (extract w r) :=
  ⟨rfl, rfl, rfl, rfl⟩

/-- The refill keeps the binding and RES, only ever loads bytes inside the length, and moves POS
and CNT together, eight bits a byte. -/
theorem refill_frame {m : Memory} {f w : Nat} {r r' : Br} (h : refill m f w r = some r') :
    sameBinding r r' ∧ r'.res = r.res ∧ r.pos ≤ r'.pos ∧
      r'.cnt + 8 * r.pos = r.cnt + 8 * r'.pos ∧ (r.pos ≤ r.len → r'.pos ≤ r'.len) := by
  induction f generalizing r with
  | zero =>
      obtain rfl : r = r' := by simpa [refill] using h
      exact ⟨sameBinding_rfl r, rfl, le_rfl, rfl, id⟩
  | succ f ih =>
      unfold refill at h
      split at h
      · split at h
        · exact absurd h (by simp)
        · next hpos =>
            obtain ⟨hb, hres, hle, hcnt, hlen⟩ := ih h
            refine ⟨sameBinding_trans (loadByte_sameBinding m r) hb, hres, ?_, ?_, ?_⟩
            · simp only [loadByte_pos] at hle; omega
            · simp only [loadByte_pos, loadByte_cnt] at hcnt; omega
            · intro _
              exact hlen (by simp only [loadByte_pos, loadByte_len]; omega)
      · obtain rfl : r = r' := by simpa using h
        exact ⟨sameBinding_rfl r, rfl, le_rfl, rfl, id⟩

/-- With turns enough, the refill ends with at least `w` pending bits (R134). -/
theorem refill_enough {m : Memory} {f w : Nat} {r r' : Br} (hf : w ≤ r.cnt + 8 * f)
    (h : refill m f w r = some r') : w ≤ r'.cnt := by
  induction f generalizing r with
  | zero =>
      obtain rfl : r = r' := by simpa [refill] using h
      simpa using hf
  | succ f ih =>
      unfold refill at h
      split at h
      · split at h
        · exact absurd h (by simp)
        · exact ih (by simp only [loadByte_cnt]; omega) h
      · obtain rfl : r = r' := by simpa using h
        omega

/-- The loop bound of `readBr` is enough. -/
theorem refill_width {m : Memory} {w : Nat} {r r' : Br} (h : refill m w w r = some r') :
    w ≤ r'.cnt := refill_enough (by omega) h

/-- What a read can do (R131 to R136): BadParameter for a bad width; else EndOfStream where the
refill runs out of bytes; else the reader after refill and extract. -/
theorem readBr_cases (m : Memory) (w : Int) (r : Br) :
    ((w < 0 ∨ 31 < w) ∧ readBr m w r = .error .badParameter) ∨
    ((0 ≤ w ∧ w ≤ 31) ∧ refill m w.toNat w.toNat r = none ∧
      readBr m w r = .error .endOfStream) ∨
    ((0 ≤ w ∧ w ≤ 31) ∧ ∃ r', refill m w.toNat w.toNat r = some r' ∧
      readBr m w r = .ok (extract w.toNat r')) := by
  by_cases hw : w < 0 ∨ (brMaxWidth : Int) < w
  · left
    exact ⟨by simpa [brMaxWidth] using hw, by rw [readBr, if_pos hw]⟩
  · right
    have hr : 0 ≤ w ∧ w ≤ 31 := by
      simp only [brMaxWidth, not_or, not_lt] at hw
      exact_mod_cast hw
    cases hf : refill m w.toNat w.toNat r with
    | none => left; exact ⟨hr, rfl, by rw [readBr, if_neg hw, hf]⟩
    | some r' => right; exact ⟨hr, r', rfl, by rw [readBr, if_neg hw, hf]⟩

/-- A read that answers keeps status, error and binding. -/
theorem readBr_sameBinding {m : Memory} {w : Int} {r r' : Br} (h : readBr m w r = .ok r') :
    sameBinding r r' := by
  rcases readBr_cases m w r with ⟨_, he⟩ | ⟨_, _, he⟩ | ⟨_, r1, hf, he⟩
  · exact absurd (he.symm.trans h) (by simp)
  · exact absurd (he.symm.trans h) (by simp)
  · obtain rfl : extract w.toNat r1 = r' := by simpa [he] using h
    exact sameBinding_trans (refill_frame hf).1 (extract_sameBinding _ _)

/-- A read that fails gives BadParameter or EndOfStream, never `noError`. -/
theorem readBr_error {m : Memory} {w : Int} {r : Br} {k : ErrKind}
    (h : readBr m w r = .error k) : k = .badParameter ∨ k = .endOfStream := by
  rcases readBr_cases m w r with ⟨_, he⟩ | ⟨_, _, he⟩ | ⟨_, r1, _, he⟩
  · left; simpa using (he.symm.trans h).symm
  · right; simpa using (he.symm.trans h).symm
  · exact absurd (he.symm.trans h) (by simp)

end Sys2Proof.Machine
end

