-- ==== Sys2Proof/Laws/Codec.lean ====
section
/-! SUPPORT. What `write` leaves, and the conditions of the symbol step unfolded
(41_samplecodec.md R166, R176). -/

namespace Sys2Proof.Machine

@[simp] theorem writeSample_depth16 (v tb : Nat) (c : Sc) :
    (writeSample v tb c).depth16 = c.depth16 := rfl
@[simp] theorem writeSample_so (v tb : Nat) (c : Sc) : (writeSample v tb c).so = c.so := rfl
@[simp] theorem writeSample_slen (v tb : Nat) (c : Sc) : (writeSample v tb c).slen = c.slen := rfl
@[simp] theorem writeSample_srclen (v tb : Nat) (c : Sc) :
    (writeSample v tb c).srclen = c.srclen := rfl
@[simp] theorem writeSample_spos (v tb : Nat) (c : Sc) : (writeSample v tb c).spos = c.spos := rfl
@[simp] theorem writeSample_rem (v tb : Nat) (c : Sc) :
    (writeSample v tb c).rem = c.rem - 1 := rfl
@[simp] theorem writeSample_blk (v tb : Nat) (c : Sc) :
    (writeSample v tb c).blk = c.blk - 1 := rfl
@[simp] theorem writeSample_w (v tb : Nat) (c : Sc) : (writeSample v tb c).w = c.w := rfl
@[simp] theorem writeSample_mem1 (v tb : Nat) (c : Sc) :
    (writeSample v tb c).mem1 = c.mem1 + BitVec.ofInt 32 (writeDelta v tb) := rfl
@[simp] theorem writeSample_mem2 (v tb : Nat) (c : Sc) :
    (writeSample v tb c).mem2 = c.mem2 + (writeSample v tb c).mem1 := rfl
@[simp] theorem writeSample_st (v tb : Nat) (c : Sc) : (writeSample v tb c).st = c.st := rfl
@[simp] theorem writeSample_err (v tb : Nat) (c : Sc) : (writeSample v tb c).err = c.err := rfl
@[simp] theorem writeSample_br (v tb : Nat) (c : Sc) : (writeSample v tb c).br = c.br := rfl
@[simp] theorem writeSample_out (v tb : Nat) (c : Sc) :
    (writeSample v tb c).out =
      c.out ++ [sampleOf c.depth16
        (if c.so then (writeSample v tb c).mem2 else (writeSample v tb c).mem1)] := rfl

@[simp] theorem isBusy_iff (st : UnitStatus) : st.isBusy = true ↔ st = .busy := by
  simp [UnitStatus.isBusy]

theorem symbolEnabled_iff (w : Nat) (c : Sc) :
    symbolEnabled w c = true ↔ c.st = .busy ∧ 0 < c.blk ∧ c.w.toNat = w := by
  simp [symbolEnabled, and_assoc]

theorem isModeA_iff (w : Nat) : isModeA w = true ↔ 1 ≤ w ∧ w ≤ 6 := by
  simp only [isModeA, modeAMax, Bool.and_eq_true, decide_eq_true_eq]

theorem isModeB_iff (cp : CodecParams) (w : Nat) :
    isModeB cp w = true ↔ 6 < w ∧ w < cp.defaultWidth := by
  simp only [isModeB, modeAMax, Bool.and_eq_true, decide_eq_true_eq]

theorem isModeC_iff (cp : CodecParams) (w : Nat) :
    isModeC cp w = true ↔ 6 < w ∧ w = cp.defaultWidth := by
  simp only [isModeC, modeAMax, Bool.and_eq_true, decide_eq_true_eq]

theorem inWindow_iff (cp : CodecParams) (w v : Nat) :
    inWindow cp w v = true ↔
      (topBit w : Int) + cp.lowerBias ≤ v ∧ (v : Int) ≤ topBit w + cp.upperBias := by
  simp [inWindow]

theorem fits_iff (w v : Nat) : fits w v = true ↔ v < 2 ^ w := by simp [fits]

/-- The width register is never 0 after a change (R171). -/
theorem one_le_changeWidth (w d : Nat) : 1 ≤ changeWidth w d := by
  unfold changeWidth
  dsimp only
  split <;> omega

theorem widthAfter_of_lt {cp : CodecParams} {f : Width} {x : Nat} (h : x < 2 ^ 17) :
    widthAfter cp f x = BitVec.ofNat 17 x := if_pos h

/-- The width register holds what is written where 17 bits hold it (10_state.md R32). -/
theorem widthAfter_toNat_of_lt {cp : CodecParams} {f : Width} {x : Nat} (h : x < 2 ^ 17) :
    (widthAfter cp f x).toNat = x := by
  rw [widthAfter_of_lt h, BitVec.toNat_ofNat, Nat.mod_eq_of_lt h]

/-- Past 17 bits it holds a width above `W0` (30_encoding.md R107). -/
theorem defaultWidth_lt_widthAfter {cp : CodecParams} {f : Width} {x : Nat}
    (hcp : cp.defaultWidth + 1 < 2 ^ 17) (h : ¬x < 2 ^ 17) :
    cp.defaultWidth < (widthAfter cp f x).toNat := by
  rw [widthAfter, if_neg h]
  split
  · assumption
  · rw [BitVec.toNat_ofNat, Nat.mod_eq_of_lt hcp]; omega

/-- `W0` of the two instances (00_scope.md R8). -/
theorem codecParams_defaultWidth (b : Biases) (d : Bool) :
    (codecParams b d).defaultWidth = if d then 17 else 9 := by cases d <;> rfl

/-- What `SC.W <- x` can do: write `x`, or draw a free value above `W0` for it. -/
theorem State.setWidth_cases (s : State) (x : Nat) :
    (x < 2 ^ 17 ∧ s.setWidth x = s.setSc { s.sc with w := BitVec.ofNat 17 x }) ∨
    (2 ^ 17 ≤ x ∧ ∃ y : Width, s.params.defaultWidth < y.toNat ∧
      s.setWidth x = { s with sc := { s.sc with w := y }, free := s.free + 1 }) := by
  by_cases h : x < 2 ^ 17
  · left; exact ⟨h, by rw [State.setWidth, widthAfter_of_lt h, if_pos h]; rfl⟩
  · right
    refine ⟨Nat.le_of_not_lt h, _, defaultWidth_lt_widthAfter ?_ h, by
      rw [State.setWidth, if_neg h]⟩
    rw [State.params, codecParams_defaultWidth]
    split <;> norm_num

/-- The width register never holds 0 after a change to `x >= 1` (41_samplecodec.md R182). -/
theorem one_le_widthAfter {cp : CodecParams} {f : Width} {x : Nat}
    (hcp : cp.defaultWidth + 1 < 2 ^ 17) (hx : 1 ≤ x) : 1 ≤ (widthAfter cp f x).toNat := by
  by_cases h : x < 2 ^ 17
  · rwa [widthAfter_toNat_of_lt h]
  · exact Nat.lt_of_le_of_lt (Nat.zero_le _) (defaultWidth_lt_widthAfter hcp h)

end Sys2Proof.Machine
end

