-- ==== Sys2Proof/Laws/Memory.lean ====
section
/-! SUPPORT. Source spaces: a read after a placement, and the canonical form every placement keeps. -/

namespace Sys2Proof.Machine

theorem wfFrom_of_le {lo lo' : Nat} {m : Memory} (hle : lo' ≤ lo) (h : wfFrom lo m = true) :
    wfFrom lo' m = true := by
  cases m with
  | nil => rfl
  | cons c m =>
      obtain ⟨a, b⟩ := c
      simp only [wfFrom, Bool.and_eq_true, decide_eq_true_eq] at h ⊢
      exact ⟨⟨hle.trans h.1.1, h.1.2⟩, h.2⟩

theorem writeByte_wfFrom {lo a : Nat} {m : Memory} (b : Byte) (hle : lo ≤ a)
    (h : wfFrom lo m = true) : wfFrom lo (writeByte m a b) = true := by
  induction m generalizing lo with
  | nil => by_cases hb : b = emptyByte <;> simp [writeByte, wfFrom, hb, hle]
  | cons c m ih =>
      obtain ⟨a', b'⟩ := c
      simp only [wfFrom, Bool.and_eq_true, decide_eq_true_eq] at h
      obtain ⟨⟨hlo, hb'⟩, hm⟩ := h
      unfold writeByte
      split
      · next hlt =>
          have hm' : wfFrom (a + 1) ((a', b') :: m) = true := by
            simp only [wfFrom, Bool.and_eq_true, decide_eq_true_eq]
            exact ⟨⟨hlt, hb'⟩, hm⟩
          by_cases hb : b = emptyByte
          · simpa [hb] using wfFrom_of_le (Nat.le_succ_of_le hle) hm'
          · rw [if_neg hb]
            simp only [wfFrom, Bool.and_eq_true, decide_eq_true_eq] at hm' ⊢
            exact ⟨⟨hle, hb⟩, hm'⟩
      · split
        · next heq =>
            subst heq
            by_cases hb : b = emptyByte
            · simpa [hb] using wfFrom_of_le (Nat.le_succ_of_le hle) hm
            · simp [wfFrom, hb, hle, hm]
        · next hlt hne =>
            simp only [wfFrom, Bool.and_eq_true, decide_eq_true_eq]
            exact ⟨⟨hlo, hb'⟩, ih (by omega) hm⟩

/-- Placing a byte keeps the canonical form. -/
theorem writeByte_wf {m : Memory} (a : Nat) (b : Byte) (h : Memory.wf m = true) :
    Memory.wf (writeByte m a b) = true := writeByte_wfFrom b (Nat.zero_le a) h

/-- Placing bytes keeps the canonical form. -/
theorem loadBytes_wf {m : Memory} (a : Nat) (bs : List Byte) (h : Memory.wf m = true) :
    Memory.wf (loadBytes m a bs) = true := by
  induction bs generalizing m a with
  | nil => exact h
  | cons b bs ih => exact ih (a + 1) (writeByte_wf a b h)

/-- A space with nothing listed is in canonical form. -/
@[simp] theorem wf_nil : Memory.wf [] = true := rfl

theorem readByte_of_lt {lo a : Nat} {m : Memory} (h : wfFrom lo m = true) (ha : a < lo) :
    readByte m a = emptyByte := by
  induction m generalizing lo with
  | nil => rfl
  | cons c m ih =>
      obtain ⟨a', b'⟩ := c
      simp only [wfFrom, Bool.and_eq_true, decide_eq_true_eq] at h
      have hne : a ≠ a' := by omega
      simp only [readByte, if_neg hne]
      exact ih h.2 (by omega)

theorem readByte_writeByte_from {lo a : Nat} {m : Memory} (b : Byte) (x : Nat)
    (h : wfFrom lo m = true) :
    readByte (writeByte m a b) x = if x = a then b else readByte m x := by
  induction m generalizing lo with
  | nil =>
      by_cases hb : b = emptyByte
      · by_cases hx : x = a <;> simp [writeByte, readByte, hb, hx]
      · simp [writeByte, readByte, hb]
  | cons c m ih =>
      obtain ⟨a', b'⟩ := c
      simp only [wfFrom, Bool.and_eq_true, decide_eq_true_eq] at h
      obtain ⟨_, hm⟩ := h
      unfold writeByte
      split
      · next hlt =>
          by_cases hb : b = emptyByte
          · rw [if_pos hb]
            by_cases hx : x = a
            · subst hx
              have hne : x ≠ a' := by omega
              simp only [readByte, if_neg hne, if_pos, hb]
              exact readByte_of_lt hm (by omega)
            · rw [if_neg hx]
          · rw [if_neg hb]
            by_cases hx : x = a <;> simp [readByte, hx]
      · split
        · next heq =>
            subst heq
            by_cases hb : b = emptyByte
            · rw [if_pos hb]
              by_cases hx : x = a
              · subst hx
                simpa [hb] using readByte_of_lt hm (Nat.lt_succ_self x)
              · simp [readByte, hx]
            · rw [if_neg hb]
              by_cases hx : x = a <;> simp [readByte, hx]
        · next hlt hne =>
            by_cases hxa : x = a'
            · have : x ≠ a := by omega
              simp [readByte, hxa, hxa ▸ this]
            · simp only [readByte, if_neg hxa]
              exact ih hm

/-- A read after a placement to the same index gives the byte placed. -/
theorem readByte_writeByte_same {m : Memory} (a : Nat) (b : Byte) (h : Memory.wf m = true) :
    readByte (writeByte m a b) a = b := by
  rw [readByte_writeByte_from b a h, if_pos rfl]

/-- A placement leaves every other index alone. -/
theorem readByte_writeByte_other {m : Memory} {a x : Nat} (b : Byte) (h : Memory.wf m = true)
    (hx : x ≠ a) : readByte (writeByte m a b) x = readByte m x := by
  rw [readByte_writeByte_from b x h, if_neg hx]

/-- What a buffer placed at index `a` reads as: its own bytes there, the old ones elsewhere. -/
theorem readByte_loadBytes {m : Memory} (a x : Nat) (bs : List Byte) (h : Memory.wf m = true) :
    readByte (loadBytes m a bs) x =
      if a ≤ x ∧ x < a + bs.length then bs.getD (x - a) emptyByte else readByte m x := by
  induction bs generalizing m a with
  | nil =>
      have : ¬(a ≤ x ∧ x < a + ([] : List Byte).length) := by simp
      rw [if_neg this]; rfl
  | cons b bs ih =>
      show readByte (loadBytes (writeByte m a b) (a + 1) bs) x = _
      rw [ih (a + 1) (writeByte_wf a b h), readByte_writeByte_from b x h]
      by_cases hx : x = a
      · subst hx
        simp
      · by_cases hin : a + 1 ≤ x ∧ x < a + 1 + bs.length
        · have hin' : a ≤ x ∧ x < a + (b :: bs).length := by simp; omega
          rw [if_pos hin, if_pos hin']
          obtain ⟨d, hd⟩ : ∃ d, x - a = d + 1 := ⟨x - a - 1, by omega⟩
          have : x - (a + 1) = d := by omega
          rw [hd, this, List.getD_cons_succ]
        · have hin' : ¬(a ≤ x ∧ x < a + (b :: bs).length) := by simp; omega
          rw [if_neg hin, if_neg hx, if_neg hin']

/-- `MemRead` of `n` bytes is below `2^(8n)`. -/
theorem memRead_lt (m : Memory) (a n : Nat) : memRead m a n < 2 ^ (8 * n) := by
  induction n generalizing a with
  | zero => simp [memRead]
  | succ n ih =>
      have hb := (readByte m a).isLt
      have hr := ih (a + 1)
      have hp : 2 ^ (8 * (n + 1)) = 256 * 2 ^ (8 * n) := by rw [Nat.mul_succ, Nat.pow_add]; omega
      simp only [memRead]
      omega

/-- The two header bytes as the little-endian length (R64). -/
theorem memRead_two (m : Memory) (a : Nat) :
    memRead m a 2 = (readByte m a).toNat + 256 * (readByte m (a + 1)).toNat := by
  simp [memRead]

end Sys2Proof.Machine
end

