-- ==== Sys2Proof/Laws/Pattern.lean ====
section
/-! SUPPORT. What the PatternDecoder's operations change and leave (42_patterndecoder.md R211 to
R222). -/

namespace Sys2Proof.Machine

@[simp] theorem setChan_rows (p : Pd) (c : BitVec 6) (x : ChannelState) :
    (p.setChan c x).rows = p.rows := rfl
@[simp] theorem setChan_srclen (p : Pd) (c : BitVec 6) (x : ChannelState) :
    (p.setChan c x).srclen = p.srclen := rfl
@[simp] theorem setChan_pos (p : Pd) (c : BitVec 6) (x : ChannelState) :
    (p.setChan c x).pos = p.pos := rfl
@[simp] theorem setChan_row (p : Pd) (c : BitVec 6) (x : ChannelState) :
    (p.setChan c x).row = p.row := rfl
@[simp] theorem setChan_cur (p : Pd) (c : BitVec 6) (x : ChannelState) :
    (p.setChan c x).cur = p.cur := rfl
@[simp] theorem setChan_out (p : Pd) (c : BitVec 6) (x : ChannelState) :
    (p.setChan c x).out = p.out := rfl
@[simp] theorem setChan_st (p : Pd) (c : BitVec 6) (x : ChannelState) :
    (p.setChan c x).st = p.st := rfl
@[simp] theorem setChan_err (p : Pd) (c : BitVec 6) (x : ChannelState) :
    (p.setChan c x).err = p.err := rfl
@[simp] theorem setChan_cmd (p : Pd) (c : BitVec 6) (x : ChannelState) :
    (p.setChan c x).cmd = p.cmd := rfl

/-- The record written is the record read. -/
@[simp] theorem chan_setChan_same (p : Pd) (c : BitVec 6) (x : ChannelState) :
    (p.setChan c x).chan c = x := by simp [Pd.chan, Pd.setChan]

/-- Every other channel's record is unchanged. -/
theorem chan_setChan_other (p : Pd) {c d : BitVec 6} (x : ChannelState) (h : d ≠ c) :
    (p.setChan c x).chan d = p.chan d := by
  have hne : c.toNat ≠ d.toNat := fun e => h (BitVec.eq_of_toNat_eq e.symm)
  simp [Pd.chan, Pd.setChan, hne]

theorem commandEnabled_iff (p : Pd) :
    commandEnabled p = true ↔ p.st = .busy ∧ p.row < p.rows ∧ p.cmd = none := by
  simp [commandEnabled, and_assoc]

/-- `NextByte()` answers inside the length, with the byte at POS, and moves POS by one (R211). -/
theorem nextByte_eq_some {m : Memory} {p p' : Pd} {x : Byte} :
    nextByte m p = some (x, p') ↔
      p.pos < p.srclen ∧ x = readByte m p.pos ∧ p' = { p with pos := p.pos + 1 } := by
  unfold nextByte
  split
  · next h => simp [Nat.not_lt.mpr h]
  · next h =>
      simp only [Option.some.injEq, Prod.mk.injEq]
      exact ⟨fun ⟨h1, h2⟩ => ⟨by omega, h1.symm, h2.symm⟩, fun ⟨_, h1, h2⟩ => ⟨h1.symm, h2.symm⟩⟩

/-- `NextByte()` raises exactly at or past the length (R211). -/
theorem nextByte_eq_none {m : Memory} {p : Pd} : nextByte m p = none ↔ p.srclen ≤ p.pos := by
  unfold nextByte
  split <;> simp_all

/-- What a part of a command leaves of PD: everything but POS and the ChannelState records; POS
never passes the length. -/
def samePattern (p p' : Pd) : Prop :=
  p'.rows = p.rows ∧ p'.srclen = p.srclen ∧ p'.row = p.row ∧ p'.cur = p.cur ∧ p'.out = p.out ∧
    p'.st = p.st ∧ p'.err = p.err ∧ p'.cmd = p.cmd ∧ p.pos ≤ p'.pos ∧
    (p.pos ≤ p.srclen → p'.pos ≤ p'.srclen)

theorem samePattern_rfl (p : Pd) : samePattern p p :=
  ⟨rfl, rfl, rfl, rfl, rfl, rfl, rfl, rfl, le_rfl, id⟩

theorem samePattern_trans {p q r : Pd} (h : samePattern p q) (h' : samePattern q r) :
    samePattern p r := by
  obtain ⟨a1, a2, a3, a4, a5, a6, a7, a8, a9, a10⟩ := h
  obtain ⟨b1, b2, b3, b4, b5, b6, b7, b8, b9, b10⟩ := h'
  exact ⟨b1.trans a1, b2.trans a2, b3.trans a3, b4.trans a4, b5.trans a5, b6.trans a6,
    b7.trans a7, b8.trans a8, a9.trans b9, fun h => b10 (a10 h)⟩

theorem samePattern_setChan (p : Pd) (c : BitVec 6) (x : ChannelState) :
    samePattern p (p.setChan c x) := ⟨rfl, rfl, rfl, rfl, rfl, rfl, rfl, rfl, le_rfl, id⟩

theorem nextByte_samePattern {m : Memory} {p p' : Pd} {x : Byte}
    (h : nextByte m p = some (x, p')) : samePattern p p' := by
  obtain ⟨hlt, -, rfl⟩ := nextByte_eq_some.mp h
  exact ⟨rfl, rfl, rfl, rfl, rfl, rfl, rfl, rfl, Nat.le_succ _, fun _ => hlt⟩

theorem openCommand_samePattern {m : Memory} {b : Byte} {p p' : Pd} {k : PdCmd}
    (h : openCommand m b p = some (k, p')) : samePattern p p' := by
  unfold openCommand at h
  dsimp only at h
  split at h
  · exact absurd h (by simp)
  · next q hq =>
      obtain ⟨-, rfl⟩ : _ ∧ q = p' := by simpa using h
      split at hq
      · split at hq
        · exact absurd hq (by simp)
        · next x q1 hn =>
            obtain rfl := Option.some.inj hq
            exact samePattern_trans (nextByte_samePattern hn) (samePattern_setChan _ _ _)
      · obtain rfl := Option.some.inj hq
        exact samePattern_rfl p

/-- The command opened carries the channel of the select byte, the channel's mask, an entry of that
channel with every other field empty, and the fields the mask selects (R215, R216). -/
theorem openCommand_cmd {m : Memory} {b : Byte} {p p' : Pd} {k : PdCmd}
    (h : openCommand m b p = some (k, p')) :
    k.chan = channelOf b ∧ k.mask = (p'.chan (channelOf b)).mask ∧
      k.entry = { channel := channelOf b } ∧ k.todo = selectedSlots k.mask := by
  unfold openCommand at h
  dsimp only at h
  split at h
  · exact absurd h (by simp)
  · next q _ =>
      simp only [Option.some.injEq, Prod.mk.injEq] at h
      obtain ⟨rfl, rfl⟩ := h
      exact ⟨rfl, rfl, rfl, rfl⟩

theorem fieldNote_samePattern {m : Memory} {k k' : PdCmd} {p p' : Pd}
    (h : fieldNote m k p = some (k', p')) : samePattern p p' := by
  unfold fieldNote at h
  dsimp only at h
  split at h
  · exact absurd h (by simp)
  · next q hq =>
      obtain ⟨-, rfl⟩ : _ ∧ q = p' := by simpa using h
      split at hq
      · split at hq
        · exact absurd hq (by simp)
        · next x q1 hn =>
            obtain rfl := Option.some.inj hq
            exact samePattern_trans (nextByte_samePattern hn) (samePattern_setChan _ _ _)
      · obtain rfl := Option.some.inj hq
        exact samePattern_rfl p

theorem fieldIns_samePattern {m : Memory} {k k' : PdCmd} {p p' : Pd}
    (h : fieldIns m k p = some (k', p')) : samePattern p p' := by
  unfold fieldIns at h
  dsimp only at h
  split at h
  · exact absurd h (by simp)
  · next q hq =>
      obtain ⟨-, rfl⟩ : _ ∧ q = p' := by simpa using h
      split at hq
      · split at hq
        · exact absurd hq (by simp)
        · next x q1 hn =>
            obtain rfl := Option.some.inj hq
            exact samePattern_trans (nextByte_samePattern hn) (samePattern_setChan _ _ _)
      · obtain rfl := Option.some.inj hq
        exact samePattern_rfl p

theorem fieldVol_samePattern {m : Memory} {k k' : PdCmd} {p p' : Pd}
    (h : fieldVol m k p = some (k', p')) : samePattern p p' := by
  unfold fieldVol at h
  dsimp only at h
  split at h
  · exact absurd h (by simp)
  · next q hq =>
      obtain ⟨-, rfl⟩ : _ ∧ q = p' := by simpa using h
      split at hq
      · split at hq
        · exact absurd hq (by simp)
        · next x q1 hn =>
            obtain rfl := Option.some.inj hq
            exact samePattern_trans (nextByte_samePattern hn) (samePattern_setChan _ _ _)
      · obtain rfl := Option.some.inj hq
        exact samePattern_rfl p

theorem fieldEff_samePattern {m : Memory} {k k' : PdCmd} {p p' : Pd}
    (h : fieldEff m k p = some (k', p')) : samePattern p p' := by
  unfold fieldEff at h
  dsimp only at h
  split at h
  · exact absurd h (by simp)
  · next q hq =>
      obtain ⟨-, rfl⟩ : _ ∧ q = p' := by simpa using h
      split at hq
      · split at hq
        · exact absurd hq (by simp)
        · split at hq
          · exact absurd hq (by simp)
          · next x q1 hn =>
              split at hq
              · exact absurd hq (by simp)
              · next y q2 hn2 =>
                  obtain rfl := Option.some.inj hq
                  exact samePattern_trans (nextByte_samePattern hn)
                    (samePattern_trans (nextByte_samePattern hn2) (samePattern_setChan _ _ _))
      · obtain rfl := Option.some.inj hq
        exact samePattern_rfl p

@[simp] theorem closeCommand_cmd (k : PdCmd) (p : Pd) : (closeCommand k p).cmd = none := rfl
@[simp] theorem closeCommand_ch (k : PdCmd) (p : Pd) : (closeCommand k p).ch = p.ch := rfl
@[simp] theorem closeCommand_pos (k : PdCmd) (p : Pd) : (closeCommand k p).pos = p.pos := rfl
@[simp] theorem closeCommand_out (k : PdCmd) (p : Pd) : (closeCommand k p).out = p.out := rfl
@[simp] theorem closeCommand_row (k : PdCmd) (p : Pd) : (closeCommand k p).row = p.row := rfl
@[simp] theorem closeCommand_st (k : PdCmd) (p : Pd) : (closeCommand k p).st = p.st := rfl

/-- A whole command is its parts in order (R214). -/
theorem selectCommand_eq_some {m : Memory} {b : Byte} {p q : Pd}
    (h : selectCommand m b p = some q) :
    ∃ k p0 k1 p1 k2 p2 k3 p3 k4 p4, openCommand m b p = some (k, p0) ∧
      fieldNote m k p0 = some (k1, p1) ∧ fieldIns m k1 p1 = some (k2, p2) ∧
      fieldVol m k2 p2 = some (k3, p3) ∧ fieldEff m k3 p3 = some (k4, p4) ∧
      q = closeCommand k4 p4 := by
  simp only [selectCommand, Option.bind_eq_some_iff, Option.map_eq_some_iff] at h
  obtain ⟨⟨k, p0⟩, h0, ⟨k1, p1⟩, h1, ⟨k2, p2⟩, h2, ⟨k3, p3⟩, h3, ⟨k4, p4⟩, h4, rfl⟩ := h
  exact ⟨k, p0, k1, p1, k2, p2, k3, p3, k4, p4, h0, h1, h2, h3, h4, rfl⟩

end Sys2Proof.Machine
end

