-- ==== Sys2Proof/Laws/PerInstr.lean ====
section
/-! SUPPORT. Families of statements about every instruction, one lemma per constructor. -/

namespace Sys2Proof.Laws.FormatOfRow

open Machine

/-- The format column of the opcode table: which form encodes the instruction, and that a symbol's
value fits its field and its width is legal under `cp` (30_encoding.md R90 to R96, R102). -/
def formatOk (cp : CodecParams) : Instr → Code → Prop
  | .brOpen _, .cmd t => t.name = .brOpen
  | .brRead _, .cmd t => t.name = .brRead
  | .scDecode _ _ _ _, .cmd t => t.name = .scDecode
  | .pdDecode _ _, .cmd t => t.name = .pdDecode
  | .scChunk _, .chunk _ _ => True
  | .scAEsc _, .sym w v => 1 ≤ w ∧ w ≤ cp.defaultWidth ∧ v < 2 ^ w
  | .scADelta _ _, .sym w v => 1 ≤ w ∧ w ≤ cp.defaultWidth ∧ v < 2 ^ w
  | .scBEsc _ _, .sym w v => 1 ≤ w ∧ w ≤ cp.defaultWidth ∧ v < 2 ^ w
  | .scBDelta _ _, .sym w v => 1 ≤ w ∧ w ≤ cp.defaultWidth ∧ v < 2 ^ w
  | .scCSetw _ _, .sym w v => 1 ≤ w ∧ w ≤ cp.defaultWidth ∧ v < 2 ^ w
  | .scCDelta _ _, .sym w v => 1 ≤ w ∧ w ≤ cp.defaultWidth ∧ v < 2 ^ w
  | .pdEnd, .sel b => b = 0
  | .pdSelm _, .sel b => b ≠ 0
  | .pdSel _, .sel b => b ≠ 0
  | .pdFNote _, .field x _ => x = .note
  | .pdFIns _, .field x _ => x = .ins
  | .pdFVol _, .field x _ => x = .vol
  | .pdFEff _, .field x _ => x = .eff
  | _, _ => False

/-- A well-formed instruction is encoded in its row's format. -/
def Statement (i : Instr) : Prop :=
  ∀ cp : CodecParams, WellFormed cp i = true → formatOk cp i (encode i)

theorem brOpen (len : Nat) : Statement (.brOpen len) := fun _ _ => rfl
theorem brRead (w : Word) : Statement (.brRead w) := fun _ _ => rfl
theorem scDecode (slen : Nat) (depth16 so : Bool) (srclen : Nat) :
    Statement (.scDecode slen depth16 so srclen) := fun _ _ => rfl
theorem pdDecode (rows srclen : Nat) : Statement (.pdDecode rows srclen) := fun _ _ => rfl
theorem scChunk (len : BitVec 16) : Statement (.scChunk len) := fun _ _ => trivial

theorem scAEsc (w : Nat) : Statement (.scAEsc w) := by
  intro cp h
  simp only [WellFormed, Bool.and_eq_true, isModeA_iff, decide_eq_true_eq] at h
  exact ⟨h.1.1, h.2, Nat.pow_lt_pow_right (by omega) (by omega)⟩

theorem scADelta (w v : Nat) : Statement (.scADelta w v) := by
  intro cp h
  simp only [WellFormed, Bool.and_eq_true, isModeA_iff, decide_eq_true_eq, fits_iff] at h
  exact ⟨h.1.1.1.1, h.1.1.2, h.1.2⟩

theorem scBEsc (w v : Nat) : Statement (.scBEsc w v) := by
  intro cp h
  simp only [WellFormed, Bool.and_eq_true, isModeB_iff, fits_iff] at h
  exact ⟨by omega, by omega, h.1.2⟩

theorem scBDelta (w v : Nat) : Statement (.scBDelta w v) := by
  intro cp h
  simp only [WellFormed, Bool.and_eq_true, isModeB_iff, fits_iff] at h
  exact ⟨by omega, by omega, h.1.2⟩

theorem scCSetw (w v : Nat) : Statement (.scCSetw w v) := by
  intro cp h
  simp only [WellFormed, Bool.and_eq_true, isModeC_iff, fits_iff] at h
  exact ⟨by omega, by omega, h.1.2⟩

theorem scCDelta (w v : Nat) : Statement (.scCDelta w v) := by
  intro cp h
  simp only [WellFormed, Bool.and_eq_true, isModeC_iff, fits_iff] at h
  exact ⟨by omega, by omega, h.1.2⟩

theorem pdEnd : Statement .pdEnd := fun _ _ => rfl

theorem pdSelm (b : Byte) : Statement (.pdSelm b) := by
  rintro cp h (rfl : b = 0)
  exact absurd h (by simp [WellFormed, maskFollows])

theorem pdSel (b : Byte) : Statement (.pdSel b) := by
  intro cp h
  simp only [WellFormed, Bool.and_eq_true, decide_eq_true_eq] at h
  exact h.2

theorem pdFNote (m : Byte) : Statement (.pdFNote m) := fun _ _ => rfl
theorem pdFIns (m : Byte) : Statement (.pdFIns m) := fun _ _ => rfl
theorem pdFVol (m : Byte) : Statement (.pdFVol m) := fun _ _ => rfl
theorem pdFEff (m : Byte) : Statement (.pdFEff m) := fun _ _ => rfl

end Sys2Proof.Laws.FormatOfRow
end

