-- ==== Sys2Proof/Laws/State.lean ====
section
/-! SUPPORT. One lemma per field of the state per update, and what `raise` leaves. -/

namespace Sys2Proof.Machine

@[simp] theorem State.setBr0_br0 (s : State) (r : Br) : (s.setBr0 r).br0 = r := rfl
@[simp] theorem State.setBr0_sc (s : State) (r : Br) : (s.setBr0 r).sc = s.sc := rfl
@[simp] theorem State.setBr0_pd (s : State) (r : Br) : (s.setBr0 r).pd = s.pd := rfl
@[simp] theorem State.setBr0_bsrc (s : State) (r : Br) : (s.setBr0 r).bsrc = s.bsrc := rfl
@[simp] theorem State.setBr0_ssrc (s : State) (r : Br) : (s.setBr0 r).ssrc = s.ssrc := rfl
@[simp] theorem State.setBr0_psrc (s : State) (r : Br) : (s.setBr0 r).psrc = s.psrc := rfl
@[simp] theorem State.setBr0_biases (s : State) (r : Br) : (s.setBr0 r).biases = s.biases := rfl
@[simp] theorem State.setBr0_free (s : State) (r : Br) : (s.setBr0 r).free = s.free := rfl
@[simp] theorem State.setBr0_agenda (s : State) (r : Br) : (s.setBr0 r).agenda = s.agenda := rfl

@[simp] theorem State.setSc_br0 (s : State) (c : Sc) : (s.setSc c).br0 = s.br0 := rfl
@[simp] theorem State.setSc_sc (s : State) (c : Sc) : (s.setSc c).sc = c := rfl
@[simp] theorem State.setSc_pd (s : State) (c : Sc) : (s.setSc c).pd = s.pd := rfl
@[simp] theorem State.setSc_bsrc (s : State) (c : Sc) : (s.setSc c).bsrc = s.bsrc := rfl
@[simp] theorem State.setSc_ssrc (s : State) (c : Sc) : (s.setSc c).ssrc = s.ssrc := rfl
@[simp] theorem State.setSc_psrc (s : State) (c : Sc) : (s.setSc c).psrc = s.psrc := rfl
@[simp] theorem State.setSc_biases (s : State) (c : Sc) : (s.setSc c).biases = s.biases := rfl
@[simp] theorem State.setSc_free (s : State) (c : Sc) : (s.setSc c).free = s.free := rfl
@[simp] theorem State.setSc_agenda (s : State) (c : Sc) : (s.setSc c).agenda = s.agenda := rfl

@[simp] theorem State.setPd_br0 (s : State) (p : Pd) : (s.setPd p).br0 = s.br0 := rfl
@[simp] theorem State.setPd_sc (s : State) (p : Pd) : (s.setPd p).sc = s.sc := rfl
@[simp] theorem State.setPd_pd (s : State) (p : Pd) : (s.setPd p).pd = p := rfl
@[simp] theorem State.setPd_bsrc (s : State) (p : Pd) : (s.setPd p).bsrc = s.bsrc := rfl
@[simp] theorem State.setPd_ssrc (s : State) (p : Pd) : (s.setPd p).ssrc = s.ssrc := rfl
@[simp] theorem State.setPd_psrc (s : State) (p : Pd) : (s.setPd p).psrc = s.psrc := rfl
@[simp] theorem State.setPd_biases (s : State) (p : Pd) : (s.setPd p).biases = s.biases := rfl
@[simp] theorem State.setPd_free (s : State) (p : Pd) : (s.setPd p).free = s.free := rfl
@[simp] theorem State.setPd_agenda (s : State) (p : Pd) : (s.setPd p).agenda = s.agenda := rfl

@[simp] theorem State.setAgenda_br0 (s : State) (l : List Turn) : (s.setAgenda l).br0 = s.br0 := rfl
@[simp] theorem State.setAgenda_sc (s : State) (l : List Turn) : (s.setAgenda l).sc = s.sc := rfl
@[simp] theorem State.setAgenda_pd (s : State) (l : List Turn) : (s.setAgenda l).pd = s.pd := rfl
@[simp] theorem State.setAgenda_bsrc (s : State) (l : List Turn) : (s.setAgenda l).bsrc = s.bsrc := rfl
@[simp] theorem State.setAgenda_ssrc (s : State) (l : List Turn) : (s.setAgenda l).ssrc = s.ssrc := rfl
@[simp] theorem State.setAgenda_psrc (s : State) (l : List Turn) : (s.setAgenda l).psrc = s.psrc := rfl
@[simp] theorem State.setAgenda_biases (s : State) (l : List Turn) : (s.setAgenda l).biases = s.biases := rfl
@[simp] theorem State.setAgenda_free (s : State) (l : List Turn) : (s.setAgenda l).free = s.free := rfl
@[simp] theorem State.setAgenda_agenda (s : State) (l : List Turn) : (s.setAgenda l).agenda = l := rfl

@[simp] theorem State.setBr0_params (s : State) (r : Br) : (s.setBr0 r).params = s.params := rfl
@[simp] theorem State.setPd_params (s : State) (p : Pd) : (s.setPd p).params = s.params := rfl
@[simp] theorem State.setAgenda_params (s : State) (l : List Turn) : (s.setAgenda l).params = s.params := rfl
@[simp] theorem State.setSc_params (s : State) (c : Sc) :
    (s.setSc c).params = codecParams s.biases c.depth16 := rfl

/-! ### `setWidth` (10_state.md R32) -/

@[simp] theorem State.setWidth_br0 (s : State) (x : Nat) : (s.setWidth x).br0 = s.br0 := rfl
@[simp] theorem State.setWidth_pd (s : State) (x : Nat) : (s.setWidth x).pd = s.pd := rfl
@[simp] theorem State.setWidth_bsrc (s : State) (x : Nat) : (s.setWidth x).bsrc = s.bsrc := rfl
@[simp] theorem State.setWidth_ssrc (s : State) (x : Nat) : (s.setWidth x).ssrc = s.ssrc := rfl
@[simp] theorem State.setWidth_psrc (s : State) (x : Nat) : (s.setWidth x).psrc = s.psrc := rfl
@[simp] theorem State.setWidth_biases (s : State) (x : Nat) :
    (s.setWidth x).biases = s.biases := rfl
@[simp] theorem State.setWidth_agenda (s : State) (x : Nat) :
    (s.setWidth x).agenda = s.agenda := rfl
@[simp] theorem State.setWidth_params (s : State) (x : Nat) :
    (s.setWidth x).params = s.params := rfl
@[simp] theorem State.setWidth_sc (s : State) (x : Nat) :
    (s.setWidth x).sc = { s.sc with w := widthAfter s.params (Config.freeSc s.free).w x } := rfl

/-! ### `raise` (60_exceptions.md R270) -/

@[simp] theorem raise_bsrc (who : Raiser) (k : ErrKind) (s : State) :
    (raise who k s).bsrc = s.bsrc := by cases who <;> rfl
@[simp] theorem raise_ssrc (who : Raiser) (k : ErrKind) (s : State) :
    (raise who k s).ssrc = s.ssrc := by cases who <;> rfl
@[simp] theorem raise_psrc (who : Raiser) (k : ErrKind) (s : State) :
    (raise who k s).psrc = s.psrc := by cases who <;> rfl
@[simp] theorem raise_biases (who : Raiser) (k : ErrKind) (s : State) :
    (raise who k s).biases = s.biases := by cases who <;> rfl
@[simp] theorem raise_agenda (who : Raiser) (k : ErrKind) (s : State) :
    (raise who k s).agenda = s.agenda := by cases who <;> rfl
@[simp] theorem raise_free (who : Raiser) (k : ErrKind) (s : State) :
    (raise who k s).free = s.free + 1 := by cases who <;> rfl

@[simp] theorem raise_br0_sc (k : ErrKind) (s : State) : (raise .br0 k s).sc = s.sc := rfl
@[simp] theorem raise_br0_pd (k : ErrKind) (s : State) : (raise .br0 k s).pd = s.pd := rfl
@[simp] theorem raise_br0_st (k : ErrKind) (s : State) : (raise .br0 k s).br0.st = .dead := rfl
@[simp] theorem raise_br0_err (k : ErrKind) (s : State) : (raise .br0 k s).br0.err = k := rfl
@[simp] theorem raise_br0_res (k : ErrKind) (s : State) :
    (raise .br0 k s).br0.res = s.br0.res := rfl
@[simp] theorem raise_br0_base (k : ErrKind) (s : State) :
    (raise .br0 k s).br0.base = s.br0.base := rfl
@[simp] theorem raise_br0_len (k : ErrKind) (s : State) :
    (raise .br0 k s).br0.len = s.br0.len := rfl

@[simp] theorem raise_sc_br0 (k : ErrKind) (s : State) : (raise .sc k s).br0 = s.br0 := rfl
@[simp] theorem raise_sc_pd (k : ErrKind) (s : State) : (raise .sc k s).pd = s.pd := rfl
@[simp] theorem raise_sc_st (k : ErrKind) (s : State) : (raise .sc k s).sc.st = .fault := rfl
@[simp] theorem raise_sc_err (k : ErrKind) (s : State) : (raise .sc k s).sc.err = k := rfl

@[simp] theorem raise_scBr_br0 (k : ErrKind) (s : State) : (raise .scBr k s).br0 = s.br0 := rfl
@[simp] theorem raise_scBr_pd (k : ErrKind) (s : State) : (raise .scBr k s).pd = s.pd := rfl
@[simp] theorem raise_scBr_st (k : ErrKind) (s : State) : (raise .scBr k s).sc.st = .fault := rfl
@[simp] theorem raise_scBr_err (k : ErrKind) (s : State) : (raise .scBr k s).sc.err = k := rfl
@[simp] theorem raise_scBr_br_st (k : ErrKind) (s : State) :
    (raise .scBr k s).sc.br.st = .dead := rfl
@[simp] theorem raise_scBr_br_err (k : ErrKind) (s : State) :
    (raise .scBr k s).sc.br.err = k := rfl

@[simp] theorem raise_pd_br0 (k : ErrKind) (s : State) : (raise .pd k s).br0 = s.br0 := rfl
@[simp] theorem raise_pd_sc (k : ErrKind) (s : State) : (raise .pd k s).sc = s.sc := rfl
@[simp] theorem raise_pd_st (k : ErrKind) (s : State) : (raise .pd k s).pd.st = .fault := rfl
@[simp] theorem raise_pd_err (k : ErrKind) (s : State) : (raise .pd k s).pd.err = k := rfl
@[simp] theorem raise_pd_cmd (k : ErrKind) (s : State) : (raise .pd k s).pd.cmd = none := rfl

end Sys2Proof.Machine
end

