-- ==== Sys2Proof/Laws/Step.lean ====
section
/-! SUPPORT. What each agent's turn can do, said once: the inversions that step lemmas cite. -/

namespace Sys2Proof.Machine

/-- What an outcome of PD's shared operation can be: the next state, or InvalidSource raised. -/
theorem pdOutcome_cases (s t : State) (o : Option Pd) (h : pdOutcome s o = .next t) :
    (∃ p, o = some p ∧ t = s.setPd p) ∨ (o = none ∧ t = raise .pd .invalidSource s) := by
  cases o with
  | none => right; exact ⟨rfl, by simpa [pdOutcome] using h.symm⟩
  | some p => left; exact ⟨p, rfl, by simpa [pdOutcome] using h.symm⟩

/-- What a field sub-operation can do: it runs on the command in progress, which it leaves in
progress, or raises InvalidSource. -/
theorem fieldStep_cases {x : Slot} {op : Memory → PdCmd → Pd → Option (PdCmd × Pd)} {m : Byte}
    {s t : State} (h : fieldStep x op m s = .next t) :
    ∃ k, s.pd.cmd = some k ∧ s.pd.st = .busy ∧ k.mask = m ∧ Slot.selected m x = true ∧
      k.todo.head? = some x ∧
      ((∃ k' p', op s.psrc k s.pd = some (k', p') ∧ t = s.setPd { p' with cmd := some k' }) ∨
        (op s.psrc k s.pd = none ∧ t = raise .pd .invalidSource s)) := by
  unfold fieldStep at h
  split at h
  · exact absurd h (by simp)
  · next k hk =>
      split at h
      · next hen =>
          simp only [Bool.and_eq_true, decide_eq_true_eq, isBusy_iff] at hen
          obtain ⟨⟨⟨hst, hm⟩, hsel⟩, htodo⟩ := hen
          refine ⟨k, hk, hst, hm, hsel, htodo, ?_⟩
          rcases pdOutcome_cases s t _ h with ⟨p, hp, rfl⟩ | ⟨hp, rfl⟩
          · obtain ⟨⟨k', p'⟩, hop, rfl⟩ := Option.map_eq_some_iff.mp hp
            exact .inl ⟨k', p', hop, rfl⟩
          · exact .inr ⟨Option.map_eq_none_iff.mp hp, rfl⟩
      · exact absurd h (by simp)

/-- What running a fetched step can do: the instruction's own next state, or the state of a step
without an instruction. -/
theorem runFetched_next {f : Fetched} {t : State} (h : runFetched f = .next t) :
    (∃ i s, f = .instr i s ∧ exec i s = .next t) ∨ f = .silent t := by
  cases f with
  | instr i s => exact .inl ⟨i, s, rfl, h⟩
  | silent s => exact .inr (by simpa [runFetched] using h)
  | rejected r => exact absurd h (by simp [runFetched])

/-- A form that decodes is fetched as its instruction. -/
theorem fetchedOf_instr {d : Except Reject Instr} {s s' : State} {i : Instr}
    (h : fetchedOf d s = .instr i s') : d = .ok i ∧ s' = s := by
  cases d with
  | ok j =>
      simp only [fetchedOf, Fetched.instr.injEq] at h
      exact ⟨by rw [h.1], h.2.symm⟩
  | error e => exact absurd h (by simp [fetchedOf])

theorem fetchedOf_silent (d : Except Reject Instr) (s s' : State) :
    fetchedOf d s ≠ .silent s' := by
  cases d <;> simp [fetchedOf]

/-- What SC's symbol fetch can give (R166 to R168): DecodingError for an illegal width; an error of
the symbol read; else the decoded symbol, its bits consumed. -/
theorem fetchSymbol_cases (s : State) :
    (s.params.defaultWidth < s.sc.w.toNat ∧ fetchSymbol s = .silent (raise .sc .decodingError s)) ∨
    (s.sc.w.toNat ≤ s.params.defaultWidth ∧
      ((∃ k, readBr s.ssrc s.sc.w.toNat s.sc.br = .error k ∧
          fetchSymbol s = .silent (raise .scBr k s)) ∨
        (∃ r, readBr s.ssrc s.sc.w.toNat s.sc.br = .ok r ∧
          fetchSymbol s = fetchedOf (decodeSymbol s.params s.sc.w.toNat r.res.toNat)
            (s.setSc { s.sc with br := r })))) := by
  by_cases hw : s.params.defaultWidth < s.sc.w.toNat
  · exact .inl ⟨hw, by rw [fetchSymbol, if_pos hw]⟩
  · refine .inr ⟨Nat.le_of_not_lt hw, ?_⟩
    cases hr : readBr s.ssrc s.sc.w.toNat s.sc.br with
    | error k => exact .inl ⟨k, rfl, by rw [fetchSymbol, if_neg hw, hr]⟩
    | ok r => exact .inr ⟨r, rfl, by rw [fetchSymbol, if_neg hw, hr]; rfl⟩

/-- What SC's chunk fetch can give (R163): EndOfStream for a cut header, else the header. -/
theorem fetchChunk_cases (s : State) :
    (s.sc.srclen < s.sc.spos + 2 ∧ fetchChunk s = .silent (raise .sc .endOfStream s)) ∨
    (s.sc.spos + 2 ≤ s.sc.srclen ∧
      fetchChunk s =
        .instr (.scChunk (readByte s.ssrc (s.sc.spos + 1) ++ readByte s.ssrc s.sc.spos)) s) := by
  by_cases h : s.sc.srclen < s.sc.spos + chunkLenBytes
  · exact .inl ⟨h, by rw [fetchChunk, if_pos h]⟩
  · exact .inr ⟨Nat.le_of_not_lt h, by rw [fetchChunk, if_neg h]; rfl⟩

/-- What PD's select fetch can give (R210, R211): InvalidSource where no byte is left, else the
decoded select byte, consumed. -/
theorem fetchSelect_cases (s : State) :
    (s.pd.srclen ≤ s.pd.pos ∧ fetchSelect s = .silent (raise .pd .invalidSource s)) ∨
    (s.pd.pos < s.pd.srclen ∧
      fetchSelect s = .instr (decodeSelect (readByte s.psrc s.pd.pos))
        (s.setPd { s.pd with pos := s.pd.pos + 1 })) := by
  by_cases h : s.pd.srclen ≤ s.pd.pos
  · exact .inl ⟨h, by rw [fetchSelect, nextByte_eq_none.mpr h]⟩
  · have hlt : s.pd.pos < s.pd.srclen := Nat.lt_of_not_le h
    refine .inr ⟨hlt, ?_⟩
    rw [fetchSelect, nextByte_eq_some.mpr ⟨hlt, rfl, rfl⟩]
    rfl

/-- The host's placement writes one source space, none where the move carries no bytes. -/
theorem placeSource_ok {m : HostMove} {s s' : State} (h : placeSource m s = .ok s') :
    s' = s ∨ ∃ bytes, m.source = some bytes ∧
      ((m.command.name = .brOpen ∧ s' = { s with bsrc := loadBytes [] 0 bytes }) ∨
       (m.command.name = .scDecode ∧ s.sc.st ≠ .busy ∧
          s' = { s with ssrc := loadBytes [] 0 bytes }) ∨
       (m.command.name = .pdDecode ∧ s.pd.st ≠ .busy ∧
          s' = { s with psrc := loadBytes [] 0 bytes })) := by
  unfold placeSource at h
  split at h
  · exact .inl (by simpa using h.symm)
  · next bytes hs hn => exact .inr ⟨bytes, hs, .inl ⟨hn, by simpa using h.symm⟩⟩
  · next bytes hs hn =>
      split at h
      · exact absurd h (by simp)
      · next hb =>
          exact .inr ⟨bytes, hs, .inr (.inl ⟨hn, by simpa using hb, by simpa using h.symm⟩)⟩
  · next bytes hs hn =>
      split at h
      · exact absurd h (by simp)
      · next hb =>
          exact .inr ⟨bytes, hs, .inr (.inr ⟨hn, by simpa using hb, by simpa using h.symm⟩)⟩
  · exact absurd h (by simp)

end Sys2Proof.Machine
end

