-- ==== Sys2Proof/Tests/Slice0.lean ====
section
/-! SUPPORT. Tests whose expected values come from the spec (95_test_vectors.md and the worked
examples of the rules), and a witness for the hypotheses of every statement. -/

namespace Sys2Proof.Tests

open Machine

/-! ### Helpers -/

/-- The state of a next step. -/
def got : Host.Outcome State Fault Refusal → Option State
  | .next s => some s
  | .fault _ => none
  | .refused _ => none

/-- The codec parameters under the recommended biases. -/
def cp8 : CodecParams := codecParams recommendedBiases false

/-- The same for 16-bit samples. -/
def cp16 : CodecParams := codecParams recommendedBiases true

/-- BR0 on `A5 3C F0` (T1) after three bits: `BUF = A5 >> 3`. -/
def brMid : State :=
  { State.reset with
    bsrc := loadBytes [] 0 [0xA5, 0x3C, 0xF0]
    br0 := { st := .ready, len := 3, pos := 1, buf := 0x14, cnt := 5 } }

/-- SC in a block of two samples at width `w`, its reader at the start of the three payload
bytes `bs`. -/
def scAt (depth16 so : Bool) (w : Nat) (bs : List Byte) : State :=
  { State.reset with
    ssrc := loadBytes [] 0 (3 :: 0 :: bs)
    sc := { depth16 := depth16, so := so, slen := 2, srclen := 5, spos := 5, rem := 2, blk := 2,
            w := BitVec.ofNat 17 w, st := .busy, br := { st := .ready, base := 2, len := 3 } } }

/-- SC between blocks, one sample owed, the stream `bs` ahead. -/
def scBetween (bs : List Byte) : State :=
  { State.reset with
    ssrc := loadBytes [] 0 bs
    sc := { slen := 1, srclen := bs.length, rem := 1, st := .busy } }

/-- PD at the start of the first of two rows, the bytes `bs` ahead. -/
def pdAt (bs : List Byte) : State :=
  { State.reset with
    psrc := loadBytes [] 0 bs
    pd := { rows := 2, srclen := bs.length, st := .busy } }

/-- PD in a command of channel 0 with the mask `m`, the fields `todo` left, `bs` ahead. -/
def pdIn (m : Byte) (todo : List Slot) (bs : List Byte) : State :=
  { pdAt bs with
    pd := { (pdAt bs).pd with cmd := some { chan := 0, mask := m, entry := {}, todo := todo } } }

/-- The command in progress of `pdIn`. -/
def cmdIn (m : Byte) (todo : List Slot) : PdCmd := { chan := 0, mask := m, entry := {}, todo := todo }

/-! ### Well-formedness: each check refuses an ill-formed term -/

theorem test_wf_aesc_width_zero : WellFormed cp8 (.scAEsc 0) = false := by decide
theorem test_wf_aesc_width_seven : WellFormed cp8 (.scAEsc 7) = false := by decide
theorem test_wf_adelta_width : WellFormed cp8 (.scADelta 7 0) = false := by decide
theorem test_wf_adelta_is_escape : WellFormed cp8 (.scADelta 4 8) = false := by decide
theorem test_wf_adelta_too_wide : WellFormed cp8 (.scADelta 4 16) = false := by decide
theorem test_wf_besc_below_window : WellFormed cp8 (.scBEsc 7 59) = false := by decide
theorem test_wf_besc_above_window : WellFormed cp8 (.scBEsc 7 68) = false := by decide
theorem test_wf_besc_width : WellFormed cp8 (.scBEsc 9 256) = false := by decide
theorem test_wf_bdelta_inside_window : WellFormed cp8 (.scBDelta 7 60) = false := by decide
theorem test_wf_bdelta_too_wide : WellFormed cp8 (.scBDelta 8 256) = false := by decide
theorem test_wf_csetw_top_clear : WellFormed cp8 (.scCSetw 9 0xFF) = false := by decide
theorem test_wf_csetw_width : WellFormed cp16 (.scCSetw 9 0x103) = false := by decide
theorem test_wf_cdelta_top_set : WellFormed cp8 (.scCDelta 9 0x100) = false := by decide
theorem test_wf_pdselm_bit_clear : WellFormed cp8 (.pdSelm 0x01) = false := by decide
theorem test_wf_pdsel_bit_set : WellFormed cp8 (.pdSel 0x81) = false := by decide
theorem test_wf_pdsel_zero : WellFormed cp8 (.pdSel 0) = false := by decide
theorem test_wf_note_not_selected : WellFormed cp8 (.pdFNote 0xEE) = false := by decide
theorem test_wf_ins_not_selected : WellFormed cp8 (.pdFIns 0xDD) = false := by decide
theorem test_wf_vol_not_selected : WellFormed cp8 (.pdFVol 0xBB) = false := by decide
theorem test_wf_eff_not_selected : WellFormed cp8 (.pdFEff 0x77) = false := by decide

/-! ### Decoding: the words of the encodings -/

/-- R90. -/
theorem test_decode_commands :
    decode cp8 (.cmd { name := .brOpen, operands := [(.len, 3)] }) = .ok (.brOpen 3) ∧
    decode cp8 (.cmd { name := .brRead, operands := [(.w, -1)] }) = .ok (.brRead 0xFFFFFFFF) ∧
    decode cp8 (.cmd
      { name := .scDecode, operands := [(.slen, 6), (.depth16, 0), (.so, 1), (.srclen, 9)] }) =
        .ok (.scDecode 6 false true 9) ∧
    decode cp8 (.cmd { name := .pdDecode, operands := [(.rows, 4), (.srclen, 26)] }) =
        .ok (.pdDecode 4 26) := by decide

/-- Operands that are not R90's. -/
theorem test_decode_bad_commands :
    decode cp8 (.cmd { name := .brOpen, operands := [(.len, -1)] }) = .error .badOperands ∧
    decode cp8 (.cmd { name := .brRead, operands := [(.w, 2147483648)] }) = .error .badOperands ∧
    decode cp8 (.cmd { name := .pdDecode, operands := [(.rows, 4)] }) = .error .badOperands ∧
    decode cp8 (.cmd
      { name := .scDecode, operands := [(.slen, 6), (.depth16, 2), (.so, 1), (.srclen, 9)] }) =
        .error .badOperands := by decide

/-- R91: the header `05 08` of P3 is 2053. -/
theorem test_decode_chunk : decode cp8 (.chunk 0x05 0x08) = .ok (.scChunk 2053) := by decide

/-- R102 with the symbols of P1, P2 and P4, at the edges of every clause. -/
theorem test_decode_symbols_8 :
    decodeSymbol cp8 1 1 = .ok (.scAEsc 1) ∧ decodeSymbol cp8 1 0 = .ok (.scADelta 1 0) ∧
    decodeSymbol cp8 6 0x20 = .ok (.scAEsc 6) ∧ decodeSymbol cp8 6 63 = .ok (.scADelta 6 63) ∧
    decodeSymbol cp8 7 60 = .ok (.scBEsc 7 60) ∧ decodeSymbol cp8 7 67 = .ok (.scBEsc 7 67) ∧
    decodeSymbol cp8 7 59 = .ok (.scBDelta 7 59) ∧ decodeSymbol cp8 7 68 = .ok (.scBDelta 7 68) ∧
    decodeSymbol cp8 8 131 = .ok (.scBEsc 8 131) ∧ decodeSymbol cp8 8 132 = .ok (.scBDelta 8 132) ∧
    decodeSymbol cp8 9 256 = .ok (.scCSetw 9 256) ∧ decodeSymbol cp8 9 255 = .ok (.scCDelta 9 255) ∧
    decodeSymbol cp8 10 0 = .error .widthAboveMax := by decide

/-- R102 at 16 bits: P4 and X11. -/
theorem test_decode_symbols_16 :
    decodeSymbol cp16 16 32760 = .ok (.scBEsc 16 32760) ∧
    decodeSymbol cp16 16 65535 = .ok (.scBDelta 16 65535) ∧
    decodeSymbol cp16 9 0x103 = .ok (.scBEsc 9 0x103) ∧
    decodeSymbol cp16 17 0x10010 = .ok (.scCSetw 17 0x10010) ∧
    decodeSymbol cp16 17 0xFFFF = .ok (.scCDelta 17 0xFFFF) ∧
    decodeSymbol cp16 18 0 = .error .widthAboveMax := by decide

/-- R104 and R99: the select bytes of P5 and Q5. -/
theorem test_decode_select :
    decodeSelect 0x00 = .pdEnd ∧ decodeSelect 0x81 = .pdSelm 0x81 ∧
    decodeSelect 0x80 = .pdSelm 0x80 ∧ decodeSelect 0x02 = .pdSel 0x02 ∧
    decodeSelect 0x7F = .pdSel 0x7F ∧
    (channelOf 0x01).toNat = 0 ∧ (channelOf 0x40).toNat = 63 ∧ (channelOf 0x41).toNat = 0 ∧
    (channelOf 0x7F).toNat = 62 ∧ (channelOf 0x80).toNat = 63 ∧ (channelOf 0xC1).toNat = 0 := by
  decide

/-- R95: each field under its present bit and under its repeat bit. -/
theorem test_decode_fields :
    decodeField .note 0x01 = .ok (.pdFNote 0x01) ∧ decodeField .note 0x10 = .ok (.pdFNote 0x10) ∧
    decodeField .ins 0x02 = .ok (.pdFIns 0x02) ∧ decodeField .ins 0x20 = .ok (.pdFIns 0x20) ∧
    decodeField .vol 0x04 = .ok (.pdFVol 0x04) ∧ decodeField .vol 0x40 = .ok (.pdFVol 0x40) ∧
    decodeField .eff 0x08 = .ok (.pdFEff 0x08) ∧ decodeField .eff 0x80 = .ok (.pdFEff 0x80) ∧
    decodeField .eff 0x77 = .error .notSelected := by decide

/-- Rejections of a symbol that is no field of its width. -/
theorem test_decode_bad_symbols :
    decodeSymbol cp8 0 0 = .error .zeroWidth ∧ decodeSymbol cp8 4 16 = .error .fieldTooWide := by
  decide

/-- The table words of PD.END, PD.SELM, PD.SEL and SC.CHUNK run as the first step after reset. -/
theorem test_table_words :
    decodeTableWord 8 0x00 = some .pdEnd ∧ decodeTableWord 8 0x80 = some (.pdSelm 0x80) ∧
    decodeTableWord 8 0x01 = some (.pdSel 0x01) ∧ decodeTableWord 16 0x0102 = some (.scChunk 0x0102) ∧
    decodeTableWord 9 0 = none := by decide

/-! ### One step of each instruction -/

/-- R130. -/
theorem test_brOpen :
    (got (exec (.brOpen 3) brMid)).map (fun t => (t.br0.st, t.br0.pos, t.br0.cnt, t.br0.len)) =
      some (.ready, 0, 0, 3) := by decide

/-- R28: nothing of an earlier source survives BR.OPEN. -/
theorem test_brOpen_forgets :
    (got (exec (.brOpen 3) brMid)).map State.br0 =
      (got (exec (.brOpen 3) { brMid with br0 := { st := .dead, err := .endOfStream, res := 5 } })).map
        State.br0 := rfl

/-- T4: after 1 and 2 bits, `BR.READ 3` gives 4. -/
theorem test_brRead_value :
    (got (exec (.brRead 3) brMid)).map (fun t => (t.br0.res.toNat, bitPos t.br0)) = some (4, 6) := by
  decide

/-- R139. -/
theorem test_brRead_zero :
    (got (exec (.brRead 0) brMid)).map (fun t => (t.br0.res.toNat, bitPos t.br0)) = some (0, 3) := by
  decide

/-- R160: a decode of no samples is DONE at once (X19). -/
theorem test_scDecode_empty :
    (got (exec (.scDecode 0 false false 0) State.reset)).map (fun t => (t.sc.st, t.sc.out)) =
      some (.done, []) := by decide

/-- R163 to R165. -/
theorem test_scChunk :
    (got (exec (.scChunk 3) (scBetween [3, 0, 8, 7, 0]))).map
        (fun t => (t.sc.spos, t.sc.blk, t.sc.w.toNat, t.sc.br.base, t.sc.br.len)) =
      some (5, 1, 9, 2, 3) := by decide

/-- X17: a cut payload. -/
theorem test_scChunk_cut :
    (got (exec (.scChunk 5) (scBetween [5, 0, 1, 2]))).map (fun t => (t.sc.st, t.sc.err)) =
      some (.fault, .endOfStream) := by decide

/-- R169: width 4, `d = 5` gives 7. -/
theorem test_scAEsc :
    (got (exec (.scAEsc 4) (scAt false false 4 [5, 0, 0]))).map
        (fun t => (t.sc.w.toNat, t.sc.blk, bitPos t.sc.br)) = some (7, 2, 3) := by decide

/-- R170: width 4, `v = 9` is -7. -/
theorem test_scADelta :
    (got (exec (.scADelta 4 9) (scAt false false 4 [0, 0, 0]))).map
        (fun t => (t.sc.out.map BitVec.toInt, t.sc.blk, t.sc.rem)) = some ([-7], 1, 1) := by decide

/-- R172: width 7, `v = 67` gives 9 under the recommended biases. -/
theorem test_scBEsc :
    (got (exec (.scBEsc 7 67) (scAt false false 7 [0, 0, 0]))).map (fun t => (t.sc.w.toNat, t.sc.out)) =
      some (9, []) := by decide

/-- R107 with R32: a window so wide that the new width passes 17 bits: the escape runs, emits
nothing and draws a free value for the width. -/
theorem test_scBEsc_wide :
    (got (exec (.scBEsc 7 64) { scAt false false 7 [0, 0, 0] with
      biases := { lower8 := -131070, upper8 := 0, lower16 := 0, upper16 := 0 } })).map
        (fun t => (t.sc.blk, t.free)) = some (2, 1) := by decide

/-- R173: width 7, `v = 68` is -60. -/
theorem test_scBDelta :
    (got (exec (.scBDelta 7 68) (scAt false false 7 [0, 0, 0]))).map
        (fun t => t.sc.out.map BitVec.toInt) = some [-60] := by decide

/-- R175: `0x103` sets width 4, `0x1FF` sets 256. -/
theorem test_scCSetw :
    (got (exec (.scCSetw 9 0x103) (scAt false false 9 [0, 0, 0]))).map (fun t => t.sc.w.toNat) = some 4 ∧
    (got (exec (.scCSetw 9 0x1FF) (scAt false false 9 [0, 0, 0]))).map (fun t => t.sc.w.toNat) =
      some 256 := by decide

/-- X1, X2: the 8-bit wrap; X4: the 16-bit wrap. -/
theorem test_scCDelta :
    (got (exec (.scCDelta 9 255) (scAt false false 9 [0, 0, 0]))).map
        (fun t => t.sc.out.map BitVec.toInt) = some [-1] ∧
    (got (exec (.scCDelta 17 0x8000) (scAt true true 17 [0, 0, 0]))).map
        (fun t => t.sc.out.map BitVec.toInt) = some [-32768] := by decide

/-- R167 with R267: the guard comes before the read of an exhausted payload. -/
theorem test_width_guard :
    (got (scTurn (scAt false false 10 []))).map (fun t => (t.sc.st, t.sc.err)) =
      some (.fault, .decodingError) := by decide

/-- R210: `rows = 0` is DONE at once (Q13). -/
theorem test_pdDecode_empty :
    (got (exec (.pdDecode 0 0) State.reset)).map (fun t => (t.pd.st, t.pd.out)) =
      some (.done, []) := by decide

/-- R213 (Q4). -/
theorem test_pdEnd :
    (got (exec .pdEnd (pdAt [0]))).map (fun t => (t.pd.out, t.pd.row)) = some ([[]], 1) := by decide

/-- R214: `81 0F 3C 01 20 07 20`. -/
theorem test_pdSelm :
    (got (pdTurn (pdAt [0x81, 0x0F, 0x3C, 1, 0x20, 7, 0x20]))).map (fun t => (t.pd.cur, t.pd.pos)) =
      some ([{ channel := 0, note := 61, instrument := 1, volumeCommand := 1, volumeParam := 32,
               effect := 7, effectParam := 0x20 }], 7) := by decide

/-- Q11: the mask byte missing. -/
theorem test_pdSelm_cut :
    (got (pdTurn (pdAt [0x81]))).map (fun t => (t.pd.st, t.pd.err)) =
      some (.fault, .invalidSource) := by decide

/-- Q5: channel 63 with a stored mask 0 leaves no entry. -/
theorem test_pdSel :
    (got (pdTurn (pdAt [0x40]))).map (fun t => (t.pd.cur, t.pd.pos)) = some ([], 1) := by decide

/-- R217: `m = 01`, byte `3C`. -/
theorem test_pdFNote :
    (got (exec (.pdFNote 0x01) (pdIn 0x01 [.note] [0x3C]))).map
        (fun t => ((t.pd.chan 0).note, t.pd.cmd.map (fun k => (k.entry.note, k.todo)))) =
      some (60, some (61, [])) := by decide

/-- R218: the repeat bit reads nothing. -/
theorem test_pdFIns :
    (got (exec (.pdFIns 0x20) (pdIn 0x20 [.ins] [9]))).map
        (fun t => (t.pd.pos, t.pd.cmd.map (fun k => k.entry.instrument))) = some (0, some 0) := by
  decide

/-- R219: `m = 04`, byte `20`. -/
theorem test_pdFVol :
    (got (exec (.pdFVol 0x04) (pdIn 0x04 [.vol] [0x20]))).map
        (fun t => ((t.pd.chan 0).vol,
          t.pd.cmd.map (fun k => (k.entry.volumeCommand.toNat, k.entry.volumeParam.toNat)))) =
      some (32, some (1, 32)) := by decide

/-- R220: `m = 08`, bytes `07 20`; one byte short is InvalidSource (Q10). -/
theorem test_pdFEff :
    (got (exec (.pdFEff 0x08) (pdIn 0x08 [.eff] [7, 0x20]))).map
        (fun t => (t.pd.chan 0).prm) = some 0x20 ∧
    (got (exec (.pdFEff 0x08) (pdIn 0x08 [.eff] [0x0A]))).map (fun t => t.pd.err) =
      some .invalidSource := by decide

/-- The N-table of 95_test_vectors.md. -/
theorem test_noteXlat :
    ([0, 119, 120, 121, 200, 252, 253, 254, 255] : List Byte).map noteXlat =
      [1, 120, 121, 253, 253, 253, 253, 254, 255] := by decide

/-- The V-table of 95_test_vectors.md. -/
theorem test_volXlat :
    ([0, 64, 65, 74, 75, 84, 85, 94, 95, 104, 105, 114] : List Byte).map volXlat =
      [(1, 0), (1, 64), (2, 0), (2, 9), (3, 0), (3, 9), (4, 0), (4, 9), (5, 0), (5, 9), (6, 0),
       (6, 9)] ∧
    ([115, 120, 124, 125, 127, 128, 129, 202, 203, 212, 213, 255] : List Byte).map volXlat =
      [(7, 246), (7, 251), (7, 255), (0, 0), (0, 0), (8, 0), (9, 0), (9, 73), (10, 0), (10, 9),
       (0, 0), (0, 0)] := by decide

/-- The table of 2.2 of 95_test_vectors.md, its rows 1, 4 and 7. -/
theorem test_changeWidth :
    (List.range 8).map (changeWidth 1) = [2, 3, 4, 5, 6, 7, 8, 9] ∧
    (List.range 8).map (changeWidth 4) = [1, 2, 3, 5, 6, 7, 8, 9] ∧
    (List.range 8).map (changeWidth 7) = [1, 2, 3, 4, 5, 6, 8, 9] := by decide

/-- `step` runs a table word as the first instruction after reset. -/
theorem test_withFetchWord :
    (got (step (State.reset.withFetchWord 8 0x00))).map (fun t => (t.pd.row, t.pd.out)) =
      some (1, [[]]) ∧
    (got (step (State.reset.withFetchWord 16 0x0005))).map (fun t => (t.sc.spos, t.sc.br.len)) =
      some (7, 5) := by decide

/-! ### Witnesses: states and operands that meet the hypotheses of the statements -/

/-- The pending bits of `brMid` are the stream's. -/
theorem test_readyInv_brMid : readyInv brMid.bsrc brMid.br0 := by unfold readyInv; decide

/-- An open block's reader at the start of its payload. -/
theorem test_readyInv_scAt :
    readyInv (scAt false false 4 [5, 0, 0]).ssrc (scAt false false 4 [5, 0, 0]).sc.br ∧
    readyInv (scAt true true 17 [1, 2, 3]).ssrc (scAt true true 17 [1, 2, 3]).sc.br := by
  unfold readyInv; decide

/-- The invariant holds of BR0 in mid-stream. -/
theorem test_inv_brMid : Inv brMid := by
  refine ⟨by unfold memInv; decide, ⟨fun _ => test_readyInv_brMid, by decide⟩, by decide,
    by unfold scInv readyInv; decide, by decide, by unfold rowsOk entryOk; decide,
    by unfold rowsOk entryOk; decide, by simp [brMid, State.reset]⟩

/-- The invariant holds of SC in an open block. -/
theorem test_inv_scAt : Inv (scAt false false 4 [5, 0, 0]) := by
  refine ⟨by unfold memInv; decide, by unfold brInv readyInv; decide, by decide,
    by unfold scInv readyInv; decide, by decide, by unfold rowsOk entryOk; decide,
    by unfold rowsOk entryOk; decide, by simp [scAt, State.reset]⟩

/-- The invariant holds of PD at the start of a row. -/
theorem test_inv_pdAt : Inv (pdAt [0x81, 1, 5, 0, 0]) := by
  refine ⟨by unfold memInv; decide, by unfold brInv readyInv; decide, by decide,
    by unfold scInv readyInv; decide, by decide, by unfold rowsOk entryOk; decide,
    by unfold rowsOk entryOk; decide, by simp [pdAt, State.reset]⟩

/-- Every constructor at an edge of its encodings, for the statements on decode and encode. -/
theorem test_witness_wellFormed :
    ([.brOpen 0, .brRead 0x80000000, .scDecode 0 true false 5, .pdDecode 4 26, .scChunk 0xFFFF,
      .scAEsc 6, .scADelta 1 0, .scBEsc 7 60, .scBDelta 8 132, .scCSetw 9 0x1FF, .scCDelta 9 0xFF,
      .pdEnd, .pdSelm 0x80, .pdSel 0x7F, .pdFNote 0x10, .pdFIns 0x02, .pdFVol 0x44,
      .pdFEff 0x80] : List Instr).all (WellFormed cp8) = true := by decide

/-- DecodeOfEncodeIsTheInstruction, DecodedFormsAreWellFormedAndReencode, StreamBitsSpellTheField:
one form for each of the three clauses. -/
theorem test_witness_forms :
    WellFormed cp8 (.scCSetw 9 0x103) = true ∧ encode (.scCSetw 9 0x103) = .sym 9 0x103 ∧
    encode (.scChunk 0x0805) = .chunk 0x05 0x08 ∧ encode (.pdSelm 0x81) = .sel 0x81 ∧
    decode cp8 (encode (.pdFEff 0x80)) = .ok (.pdFEff 0x80) := by decide

/-- WordsOfTheSpecDecode: the biases of its second clause. -/
theorem test_witness_biases :
    recommendedBiases.lower8 = -4 ∧ recommendedBiases.upper8 = 3 := by decide

/-- SymbolMapFollowsTheTable: each clause at the edges of its widths. -/
theorem test_witness_symbolMap :
    maxWidth false < 10 ∧ maxWidth true < 18 ∧ (1 : Nat) < 2 ^ 1 ∧ (63 : Nat) < 2 ^ 6 ∧
    maxWidth false = 9 ∧ maxWidth true = 17 ∧
    (2 ^ 6 : Int) + lowerBiasOf recommendedBiases false ≤ 60 ∧
    (67 : Int) ≤ 2 ^ 6 + upperBiasOf recommendedBiases false ∧
    ¬(68 : Int) ≤ 2 ^ 6 + upperBiasOf recommendedBiases false ∧
    (2 ^ 15 : Int) + lowerBiasOf recommendedBiases true ≤ 32760 := by decide

/-- ReadOfRegistersIsReadOfTheBitCursor: bad widths, the last width that fits, the first that does
not. -/
theorem test_witness_readOfRegisters :
    brMid.br0.st = .ready ∧ (0xFFFFFFFF : Word).toInt < 0 ∧ 32 ≤ (32 : Word).toInt ∧
    8 * brMid.br0.len = bitPos brMid.br0 + (21 : Word).toNat ∧
    8 * brMid.br0.len < bitPos brMid.br0 + (22 : Word).toNat ∧ (22 : Word).toInt < 32 := by decide

/-- ChunkedReadsReproduceTheStream: widths that use up the source. -/
theorem test_witness_chunkedReads :
    (∀ w ∈ [0, 3, 5, 7, 6], w ≤ 31) ∧ bitPos brMid.br0 + [0, 3, 5, 7, 6].sum = 8 * brMid.br0.len := by
  decide

/-- BR0 in every status (BadWidthIsBadParameter, DeadReaderStaysDead, ReadOfWidthZeroReturnsZero,
CommandsWithoutAStepAreRefused, StartCommandsReviveFailedUnits). -/
theorem test_witness_brStatus :
    brMid.br0.st = .ready ∧ (raise .br0 .endOfStream brMid).br0.st = .dead ∧
    State.reset.br0.st = .closed ∧ 32 ≤ (32 : Word).toNat ∧ (31 : Word).toNat < 32 := by decide

/-- SC and PD in every status (the statements on the start commands). -/
theorem test_witness_unitStatus :
    State.reset.sc.st ≠ .busy ∧ State.reset.pd.st ≠ .busy ∧ (scBetween [3]).sc.st = .busy ∧
    (pdAt [0]).pd.st = .busy ∧ (raise .sc .decodingError (scBetween [3])).sc.st = .fault ∧
    (raise .pd .invalidSource (pdAt [0])).pd.st = .fault := by decide

/-- ChunkOpensAFreshBlock and ChunkFetchChecksHeaderAndPayload: a header cut, a payload one byte
short, a payload that just fits. -/
theorem test_witness_chunk :
    (let s := scBetween [5]
     s.sc.st = .busy ∧ 0 < s.sc.rem ∧ s.sc.blk = 0 ∧ s.sc.srclen < s.sc.spos + 2) ∧
    (let s := scBetween [3, 0, 8, 7]
     s.sc.spos + 2 ≤ s.sc.srclen ∧ s.sc.srclen + 1 = s.sc.spos + 2 + (readByte s.ssrc 0).toNat) ∧
    (let s := scBetween [3, 0, 8, 7, 0]
     s.sc.st = .busy ∧ 0 < s.sc.rem ∧ s.sc.blk = 0 ∧
       s.sc.srclen = s.sc.spos + 2 + (readByte s.ssrc 0).toNat) := by decide

/-- IllegalWidthIsDecodingError: the first illegal width of each depth. -/
theorem test_witness_illegalWidth :
    (let s := scAt false false 10 []
     s.sc.st = .busy ∧ 0 < s.sc.blk ∧ maxWidth s.sc.depth16 < s.sc.w.toNat) ∧
    (let s := scAt true false 18 []
     s.sc.st = .busy ∧ 0 < s.sc.blk ∧ maxWidth s.sc.depth16 < s.sc.w.toNat) := by decide

/-- SymbolStepRunsTheNextStreamBits: enough bits, and one bit too few. -/
theorem test_witness_symbolStep :
    (let s := scAt false false 9 [5, 0, 0]
     s.sc.st = .busy ∧ 0 < s.sc.blk ∧ 1 ≤ s.sc.w.toNat ∧ s.sc.w.toNat ≤ maxWidth s.sc.depth16 ∧
       readyInv s.ssrc s.sc.br ∧ bitPos s.sc.br + s.sc.w.toNat ≤ 8 * s.sc.br.len) ∧
    (let s := { scAt false false 9 [5, 0, 0] with
       sc := { (scAt false false 9 [5, 0, 0]).sc with
         br := { st := .ready, base := 2, len := 1 } } }
     s.sc.st = .busy ∧ readyInv s.ssrc s.sc.br ∧
       8 * s.sc.br.len + 1 = bitPos s.sc.br + s.sc.w.toNat) := by
  unfold readyInv; decide

/-- The three delta statements, at both ends of their widths. -/
theorem test_witness_deltas :
    (let s := scAt false false 1 [0, 0, 0]
     s.sc.st = .busy ∧ 0 < s.sc.blk ∧ s.sc.w.toNat = 1 ∧ 0 < 2 ^ 1 ∧ 0 ≠ 2 ^ (1 - 1)) ∧
    (let s := scAt true true 6 [0, 0, 0]
     s.sc.w.toNat = 6 ∧ 63 < 2 ^ 6 ∧ 63 ≠ 2 ^ (6 - 1)) ∧
    (let s := scAt false false 7 [0, 0, 0]
     s.sc.st = .busy ∧ 0 < s.sc.blk ∧ s.sc.w.toNat = 7 ∧ 7 < maxWidth s.sc.depth16 ∧ 68 < 2 ^ 7 ∧
       ¬((2 ^ (7 - 1) : Int) + lowerBiasOf s.biases s.sc.depth16 ≤ 68 ∧
         (68 : Int) ≤ 2 ^ (7 - 1) + upperBiasOf s.biases s.sc.depth16)) ∧
    (let s := scAt true true 17 [0, 0, 0]
     s.sc.st = .busy ∧ 0 < s.sc.blk ∧ s.sc.w.toNat = 17 ∧ 17 = maxWidth s.sc.depth16 ∧
       0xFFFF < 2 ^ (17 - 1)) := by decide

/-- The three escape statements: an FW field that fits and one that is cut, `d + 1` below the
current width and at it; the window's lower end; the smallest and largest width set. -/
theorem test_witness_escapes :
    (let s := scAt false false 4 [2, 0, 0]
     s.sc.st = .busy ∧ 0 < s.sc.blk ∧ s.sc.w.toNat = 4 ∧ readyInv s.ssrc s.sc.br ∧
       bitPos s.sc.br + fwWidth s.sc.depth16 ≤ 8 * s.sc.br.len ∧
       nextBits s.ssrc s.sc.br 3 + 1 < 4) ∧
    (let s := scAt false false 4 [3, 0, 0]
     readyInv s.ssrc s.sc.br ∧ nextBits s.ssrc s.sc.br 3 + 1 = 4) ∧
    (let s := { scAt false false 1 [0, 0, 0] with
       sc := { (scAt false false 1 [0, 0, 0]).sc with
         br := { st := .ready, base := 2, len := 0 } } }
     s.sc.w.toNat = 1 ∧ readyInv s.ssrc s.sc.br ∧
       8 * s.sc.br.len < bitPos s.sc.br + fwWidth s.sc.depth16) ∧
    (let s := scAt false false 7 [0, 0, 0]
     s.sc.st = .busy ∧ 0 < s.sc.blk ∧ s.sc.w.toNat = 7 ∧ 7 < maxWidth s.sc.depth16 ∧ 60 < 2 ^ 7 ∧
       (2 ^ (7 - 1) : Int) + lowerBiasOf s.biases s.sc.depth16 ≤ 60 ∧
       (60 : Int) ≤ 2 ^ (7 - 1) + upperBiasOf s.biases s.sc.depth16) ∧
    (let s := scAt false false 9 [0, 0, 0]
     s.sc.st = .busy ∧ 0 < s.sc.blk ∧ s.sc.w.toNat = 9 ∧ 9 = maxWidth s.sc.depth16 ∧
       2 ^ (9 - 1) ≤ 0x100 ∧ 0x1FF < 2 ^ 9) := by
  unfold readyInv; decide

/-- ModeBEscapePastTheRegisterIsIllegal: the first width 17 bits do not hold;
ModeBEscapeChangesTheWidth: the last one they do. -/
theorem test_witness_wideEscape :
    (let s := { scAt false false 7 [0, 0, 0] with
       biases := { lower8 := -131070, upper8 := 0, lower16 := 0, upper16 := 0 } }
     s.sc.st = .busy ∧ 0 < s.sc.blk ∧ s.sc.w.toNat = 7 ∧ 7 < maxWidth s.sc.depth16 ∧ 64 < 2 ^ 7 ∧
       (2 ^ (7 - 1) : Int) + lowerBiasOf s.biases s.sc.depth16 ≤ 64 ∧
       (64 : Int) ≤ 2 ^ (7 - 1) + upperBiasOf s.biases s.sc.depth16 ∧
       (2 ^ 17 : Int) = 64 - (2 ^ (7 - 1) + lowerBiasOf s.biases s.sc.depth16) + 2) ∧
    (let s := { scAt false false 7 [0, 0, 0] with
       biases := { lower8 := -131069, upper8 := 0, lower16 := 0, upper16 := 0 } }
     (2 ^ (7 - 1) : Int) + lowerBiasOf s.biases s.sc.depth16 ≤ 64 ∧
       (2 ^ 17 : Int) = 64 - (2 ^ (7 - 1) + lowerBiasOf s.biases s.sc.depth16) + 3) := by decide

/-- SamplesAreRunningSumsOfDeltas: zero accumulators, in both orders; the samples of X6. -/
theorem test_witness_runningSums :
    (scAt false true 9 []).sc.mem1 = 0 ∧ (scAt false true 9 []).sc.mem2 = 0 ∧
    ([(1, 0), (1, 0), (1, 0), (1, 0)].foldl (fun c p => writeSample p.1 p.2 c)
      (scAt false true 9 []).sc).out.map BitVec.toInt = [1, 3, 6, 10] := by decide

/-- FinishedUnitsBecomeDone. -/
theorem test_witness_finished :
    (let s := { State.reset with sc := { st := .busy } }
     s.sc.st = .busy ∧ s.sc.blk = 0 ∧ s.sc.rem = 0) ∧
    (let s := { State.reset with pd := { st := .busy, rows := 1, row := 1 } }
     s.pd.st = .busy ∧ s.pd.cmd = none ∧ s.pd.row = s.pd.rows) := by decide

/-- BlocksAreIsolated: a second block to come; ScDecodeDependsOnlyOnItsInputs: two machines that
agree only on SSRC and the biases. -/
theorem test_witness_isolation :
    (scBetween [3, 0, 8, 7, 0]).sc.st = .busy ∧ (scBetween [3, 0, 8, 7, 0]).sc.blk = 0 ∧
    (let s := { State.reset with ssrc := loadBytes [] 0 [2, 0, 255, 0] }
     let s' := { brMid with ssrc := loadBytes [] 0 [2, 0, 255, 0], free := 7,
                            sc := { w := 3, mem1 := 5, out := [9], st := .done } }
     s.sc.st ≠ .busy ∧ s'.sc.st ≠ .busy ∧ s.ssrc = s'.ssrc ∧ s.biases = s'.biases ∧ s ≠ s') := by
  decide

/-- EveryScDecodeTerminates, EveryPdDecodeTerminates, ScAndPdTurnsAlwaysAnswer (both agendas are
empty). -/
theorem test_witness_terminates :
    (Inv (scAt false false 4 [5, 0, 0]) ∧ (scAt false false 4 [5, 0, 0]).sc.st = .busy) ∧
    (Inv (pdAt [0x81, 1, 5, 0, 0]) ∧ (pdAt [0x81, 1, 5, 0, 0]).pd.st = .busy) :=
  ⟨⟨test_inv_scAt, rfl⟩, test_inv_pdAt, rfl⟩

/-- RowEndEmitsTheRow, FieldStepsComposeToTheWholeCommand. -/
theorem test_witness_command :
    let s := pdAt [0x81, 0x0F, 1, 2, 3, 4, 5]
    s.pd.st = .busy ∧ s.pd.row < s.pd.rows ∧ s.pd.cmd = none := by decide

/-- ChannelSelectCommandDecodesItsFields, PD.POS past the select byte: the longest command that
just fits, the same one byte short, and a stored mask 0. -/
theorem test_witness_channelSelect :
    (let s := pdAt [0x0F, 1, 2, 3, 4, 5]
     s.pd.pos ≤ s.pd.srclen ∧ commandEnd s.psrc 0x81 s.pd = s.pd.srclen) ∧
    (let s := pdAt [0x0F, 1, 2, 3, 4]
     s.pd.pos ≤ s.pd.srclen ∧ commandEnd s.psrc 0x81 s.pd = s.pd.srclen + 1) ∧
    (let s := pdAt []
     s.pd.st = .busy ∧ s.pd.pos ≤ s.pd.srclen ∧ commandEnd s.psrc 0x40 s.pd = s.pd.srclen) := by
  decide

/-- The four field statements: a byte that is there, a byte that is missing, a repeat. -/
theorem test_witness_fields :
    (let s := pdIn 0x01 [.note] [60]
     s.pd.st = .busy ∧ s.pd.cmd = some (cmdIn 0x01 [.note]) ∧
       (cmdIn 0x01 [.note]).todo.head? = some .note ∧ s.pd.pos < s.pd.srclen) ∧
    (let s := pdIn 0x02 [.ins] []
     s.pd.st = .busy ∧ s.pd.cmd = some (cmdIn 0x02 [.ins]) ∧ s.pd.srclen ≤ s.pd.pos) ∧
    (let s := pdIn 0x40 [.vol] []
     s.pd.st = .busy ∧ s.pd.cmd = some (cmdIn 0x40 [.vol]) ∧
       ((0x40 : Byte).getLsbD 2 || (0x40 : Byte).getLsbD 6) = true) ∧
    (let s := pdIn 0x08 [.eff] [7]
     s.pd.st = .busy ∧ s.pd.cmd = some (cmdIn 0x08 [.eff]) ∧ s.pd.srclen + 1 = s.pd.pos + 2) := by
  decide

/-- The same four at the other end of their clauses. -/
theorem test_witness_fields_other :
    (let s := pdIn 0x10 [.note, .eff] []
     s.pd.cmd = some (cmdIn 0x10 [.note, .eff]) ∧ (cmdIn 0x10 [.note, .eff]).todo.head? = some .note) ∧
    (let s := pdIn 0x22 [.ins] [5]
     s.pd.cmd = some (cmdIn 0x22 [.ins]) ∧ s.pd.pos < s.pd.srclen) ∧
    (let s := pdIn 0x04 [.vol] []
     s.pd.cmd = some (cmdIn 0x04 [.vol]) ∧ s.pd.srclen ≤ s.pd.pos) ∧
    (let s := pdIn 0x08 [.eff] [7, 0x20]
     s.pd.cmd = some (cmdIn 0x08 [.eff]) ∧ s.pd.srclen = s.pd.pos + 2) := by decide

/-- StepRunsTheDecodedInstruction, the host's clause. -/
theorem test_witness_stepHost :
    let m : HostMove := { source := some [0xA5],
                          command := { name := .brOpen, operands := [(.len, 1)] } }
    let s := { State.reset with agenda := [.host m] }
    s.agenda = .host m :: [] ∧
    placeSource m (s.setAgenda []) = .ok { State.reset with bsrc := [(0, 0xA5)] } ∧
    decode s.params (.cmd m.command) = .ok (.brOpen 1) := by
  refine ⟨rfl, rfl, ?_⟩; decide

/-- StepRunsTheDecodedInstruction, SC's two clauses. -/
theorem test_witness_stepSc :
    (let s := { scAt false false 4 [0x9F, 0, 0] with agenda := [.sc] }
     s.agenda = .sc :: [] ∧ s.sc.st = .busy ∧ 0 < s.sc.blk ∧ s.sc.w.toNat ≤ s.params.defaultWidth ∧
       (readBr s.ssrc s.sc.w.toNat s.sc.br).toOption.map (fun r => r.res.toNat) = some 15 ∧
       decode s.params (.sym s.sc.w.toNat 15) = .ok (.scADelta 4 15)) ∧
    (let s := { scBetween [3, 0, 8, 7, 0] with agenda := [.sc] }
     s.agenda = .sc :: [] ∧ s.sc.st = .busy ∧ s.sc.blk = 0 ∧ 0 < s.sc.rem ∧
       s.sc.spos + 2 ≤ s.sc.srclen ∧
       decode s.params (.chunk (readByte s.ssrc s.sc.spos) (readByte s.ssrc (s.sc.spos + 1))) =
         .ok (.scChunk 3)) := by decide

/-- StepRunsTheDecodedInstruction, PD's two clauses. -/
theorem test_witness_stepPd :
    (let s := { pdAt [0x81, 1, 5] with agenda := [.pd] }
     s.agenda = .pd :: [] ∧ s.pd.st = .busy ∧ s.pd.cmd = none ∧ s.pd.row < s.pd.rows ∧
       s.pd.pos < s.pd.srclen ∧
       decode s.params (.sel (readByte s.psrc s.pd.pos)) = .ok (.pdSelm 0x81)) ∧
    (let s := { pdIn 0x01 [.note] [5] with agenda := [.pd] }
     s.agenda = .pd :: [] ∧ s.pd.st = .busy ∧ s.pd.cmd = some (cmdIn 0x01 [.note]) ∧
       (cmdIn 0x01 [.note]).todo = .note :: [] ∧
       decode s.params (.field .note 0x01) = .ok (.pdFNote 0x01)) := by decide

/-- EmptyAgendaRunsBusyUnitsOrIdles: its three clauses. -/
theorem test_witness_emptyAgenda :
    ((scBetween [3]).agenda = [] ∧ (scBetween [3]).sc.st = .busy) ∧
    ((pdAt [0]).agenda = [] ∧ (pdAt [0]).sc.st ≠ .busy ∧ (pdAt [0]).pd.st = .busy) ∧
    (State.reset.agenda = [] ∧ State.reset.sc.st ≠ .busy ∧ State.reset.pd.st ≠ .busy) := by decide

/-- InstructionsTouchOnlyTheirUnit: a next state of one instruction of each unit. -/
theorem test_witness_touch :
    (∃ t, exec (.brOpen 3) State.reset = .next t) ∧
    (∃ t, exec (.scADelta 4 9) (scAt false false 4 [0, 0, 0]) = .next t) ∧
    (∃ t, exec .pdEnd (pdAt [0]) = .next t) := ⟨⟨_, rfl⟩, ⟨_, rfl⟩, ⟨_, rfl⟩⟩

/-- OnlyTheHostWritesSourceSpaces and EveryStepKeepsTheInvariant: a step from a state that meets
the invariant. -/
theorem test_witness_step :
    Inv (scAt false false 4 [5, 0, 0]) ∧ ∃ t, step (scAt false false 4 [5, 0, 0]) = .next t :=
  ⟨test_inv_scAt, _, rfl⟩

/-- HostBytesAreWhatTheUnitReads: each start command with bytes, its unit not BUSY. -/
theorem test_witness_hostBytes :
    (let c : Transaction := { name := .brOpen, operands := [(.len, 2)] }
     let s := { State.reset with agenda := [.host { source := some [0xA5, 0], command := c }] }
     s.agenda = .host { source := some [0xA5, 0], command := c } :: [] ∧
       encode (.brOpen 2) = .cmd c) ∧
    (let c : Transaction := { name := .scDecode,
                              operands := [(.slen, 1), (.depth16, 0), (.so, 1), (.srclen, 2)] }
     let s := { State.reset with agenda := [.host { source := some [0, 0], command := c }] }
     s.sc.st ≠ .busy ∧ encode (.scDecode 1 false true 2) = .cmd c) ∧
    (let c : Transaction := { name := .pdDecode, operands := [(.rows, 1), (.srclen, 1)] }
     let s := { State.reset with agenda := [.host { source := some [0], command := c }] }
     s.pd.st ≠ .busy ∧ encode (.pdDecode 1 1) = .cmd c) := by decide

/-- UnitStepsSeeOnlyTheirOwnUnit: states that differ elsewhere, and whose turns answer. -/
theorem test_witness_turns :
    (let s := scAt false false 4 [3, 0, 0]
     let s' := { s with br0 := brMid.br0, bsrc := brMid.bsrc, pd := { rows := 9 } }
     s.free = s'.free ∧ s.sc = s'.sc ∧ s.ssrc = s'.ssrc ∧ s.biases = s'.biases ∧ s ≠ s' ∧
       (got (scTurn s)).isSome = true) ∧
    (let s := pdAt [0]
     let s' := { s with br0 := brMid.br0, sc := { slen := 9 } }
     s.free = s'.free ∧ s.pd = s'.pd ∧ s.psrc = s'.psrc ∧ s ≠ s' ∧
       (got (pdTurn s)).isSome = true ∧ (got (pdBeginTurn s)).isSome = true) ∧
    (let s := brMid
     let s' := { s with sc := { slen := 9 }, psrc := [(0, 1)] }
     s.free = s'.free ∧ s.br0 = s'.br0 ∧ s.bsrc = s'.bsrc ∧ s ≠ s' ∧
       (got (exec (.brRead 4) s)).isSome = true ∧ (got (exec (.brOpen 1) s)).isSome = true) := by
  decide

end Sys2Proof.Tests
end

section
/-! The stream bits of a form spell its field, 00_scope.md R15, 20_memory.md R63, R64. -/

namespace Sys2Proof

/-- The low `n` bits of a number, least significant first, spell the number modulo `2 ^ n`. -/
theorem bitsValue_map_testBit (n v : Nat) :
    bitsValue ((List.range n).map fun k => v.testBit k) = v % 2 ^ n := by
  induction n generalizing v with
  | zero => simp [bitsValue, Nat.mod_one]
  | succ n ih =>
      have htail : ((List.range n).map Nat.succ).map (fun k => v.testBit k) =
          (List.range n).map fun k => (v / 2).testBit k := by
        simp [Function.comp_def, Nat.testBit_succ]
      have hhead : (v.testBit 0).toNat = v % 2 := by
        rw [Nat.testBit_zero]; rcases Nat.mod_two_eq_zero_or_one v with h | h <;> simp [h]
      rw [List.range_succ_eq_map, List.map_cons, htail, bitsValue, ih, hhead, Nat.pow_succ',
        Nat.mod_mul]

/-- The bits of a bit vector, least significant first, spell it. -/
theorem bitsValue_map_getLsbD {n : Nat} (x : BitVec n) :
    bitsValue ((List.range n).map fun k => x.getLsbD k) = x.toNat := by
  simp only [← BitVec.testBit_toNat]
  rw [bitsValue_map_testBit, Nat.mod_eq_of_lt x.isLt]

@[simp] theorem bits_sym_length (w v : Nat) : (Code.sym w v).bits.length = w := by
  simp [Code.bits]

@[simp] theorem bits_chunk_length (b0 b1 : Byte) : (Code.chunk b0 b1).bits.length = 16 := rfl

@[simp] theorem bits_sel_length (b : Byte) : (Code.sel b).bits.length = 8 := rfl

/-- A symbol's field holds the low `w` bits of its value (R92). -/
@[simp] theorem bitsValue_bits_sym (w v : Nat) : bitsValue (Code.sym w v).bits = v % 2 ^ w :=
  bitsValue_map_testBit w v

/-- A header's bits are those of its two bytes, the byte at the lower index first (R91). -/
@[simp] theorem bitsValue_bits_chunk (b0 b1 : Byte) :
    bitsValue (Code.chunk b0 b1).bits = (b1 ++ b0).toNat := bitsValue_map_getLsbD (b1 ++ b0)

@[simp] theorem bitsValue_bits_sel (b : Byte) : bitsValue (Code.sel b).bits = b.toNat :=
  bitsValue_map_getLsbD b

/-- The two bytes of a length, put together again, are the length. -/
theorem high_append_low (len : BitVec 16) :
    (len.extractLsb' 8 8 ++ len.extractLsb' 0 8 : BitVec 16) = len := by
  rw [BitVec.extractLsb'_append_extractLsb'_eq_extractLsb' (by rfl)]
  simp

/-- Every row of the opcode table is encoded in its own format. -/
theorem formatOk_encode {cp : CodecParams} {i : Instr} (h : WellFormed cp i = true) :
    Laws.FormatOfRow.formatOk cp i (encode i) := by
  cases i with
  | brOpen len => exact Laws.FormatOfRow.brOpen len cp h
  | brRead w => exact Laws.FormatOfRow.brRead w cp h
  | scDecode n d o k => exact Laws.FormatOfRow.scDecode n d o k cp h
  | pdDecode r k => exact Laws.FormatOfRow.pdDecode r k cp h
  | scChunk len => exact Laws.FormatOfRow.scChunk len cp h
  | scAEsc w => exact Laws.FormatOfRow.scAEsc w cp h
  | scADelta w v => exact Laws.FormatOfRow.scADelta w v cp h
  | scBEsc w v => exact Laws.FormatOfRow.scBEsc w v cp h
  | scBDelta w v => exact Laws.FormatOfRow.scBDelta w v cp h
  | scCSetw w v => exact Laws.FormatOfRow.scCSetw w v cp h
  | scCDelta w v => exact Laws.FormatOfRow.scCDelta w v cp h
  | pdEnd => exact Laws.FormatOfRow.pdEnd cp h
  | pdSelm b => exact Laws.FormatOfRow.pdSelm b cp h
  | pdSel b => exact Laws.FormatOfRow.pdSel b cp h
  | pdFNote m => exact Laws.FormatOfRow.pdFNote m cp h
  | pdFIns m => exact Laws.FormatOfRow.pdFIns m cp h
  | pdFVol m => exact Laws.FormatOfRow.pdFVol m cp h
  | pdFEff m => exact Laws.FormatOfRow.pdFEff m cp h

/-- A form in the symbol format has a legal width and a value that fits it: the one thing
`formatOk` says of a symbol, whichever of the six rows it is (R92, R102). -/
theorem symbol_of_formatOk {cp : CodecParams} {i : Instr} {w v : Nat}
    (h : Laws.FormatOfRow.formatOk cp i (.sym w v)) :
    1 ≤ w ∧ w ≤ cp.defaultWidth ∧ v < 2 ^ w := by
  cases i with
  | scAEsc _ | scADelta _ _ | scBEsc _ _ | scBDelta _ _ | scCSetw _ _ | scCDelta _ _ => exact h
  | _ => exact h.elim

/-- Settles O3: the bits of a form spell its field modulo the field's size, and a well-formed
symbol's value fits its width. -/
theorem streamBitsSpellTheField : Obligations.StreamBitsSpellTheField := by
  intro cp i hwf
  refine ⟨fun w v henc => ?symbol, fun len hi => ?header, fun b henc => ?select⟩
  case symbol =>
    have hformat := formatOk_encode hwf
    rw [henc] at hformat ⊢
    obtain ⟨-, -, hfits⟩ := symbol_of_formatOk hformat
    exact ⟨bits_sym_length w v, by rw [bitsValue_bits_sym, Nat.mod_eq_of_lt hfits]⟩
  case header =>
    subst hi
    exact ⟨rfl, by rw [encode, bitsValue_bits_chunk, high_append_low]⟩
  case select =>
    rw [henc]
    exact ⟨bits_sel_length b, bitsValue_bits_sel b⟩

end Sys2Proof
end

section
/-! What an instruction leaves unchanged: everything outside its unit but the index of the next free
value (00_scope.md R6, 20_memory.md R62, 40_bitreader.md R141, 42_patterndecoder.md R229). -/

namespace Sys2Proof.Machine

/-- `t` is `s` but for BR0 and the index of the next free value. -/
def changesOnlyBr0 (s t : State) : Prop := t = { s with br0 := t.br0, free := t.free }

/-- `t` is `s` but for SC and the index of the next free value. -/
def changesOnlySc (s t : State) : Prop := t = { s with sc := t.sc, free := t.free }

/-- `t` is `s` but for PD and the index of the next free value. -/
def changesOnlyPd (s t : State) : Prop := t = { s with pd := t.pd, free := t.free }

/-- The fields that belong to no unit and that no instruction writes: the source spaces, the open
parameters and the agenda. -/
def keepsSurroundings (s t : State) : Prop :=
  t.bsrc = s.bsrc ∧ t.ssrc = s.ssrc ∧ t.psrc = s.psrc ∧ t.biases = s.biases ∧
    t.agenda = s.agenda

section
variable {s t : State}

theorem changesOnlyBr0.surroundings (h : changesOnlyBr0 s t) : keepsSurroundings s t := by
  rw [h]; exact ⟨rfl, rfl, rfl, rfl, rfl⟩
theorem changesOnlyBr0.sc (h : changesOnlyBr0 s t) : t.sc = s.sc := by rw [h]
theorem changesOnlyBr0.pd (h : changesOnlyBr0 s t) : t.pd = s.pd := by rw [h]

theorem changesOnlySc.surroundings (h : changesOnlySc s t) : keepsSurroundings s t := by
  rw [h]; exact ⟨rfl, rfl, rfl, rfl, rfl⟩
theorem changesOnlySc.br0 (h : changesOnlySc s t) : t.br0 = s.br0 := by rw [h]
theorem changesOnlySc.pd (h : changesOnlySc s t) : t.pd = s.pd := by rw [h]

theorem changesOnlyPd.surroundings (h : changesOnlyPd s t) : keepsSurroundings s t := by
  rw [h]; exact ⟨rfl, rfl, rfl, rfl, rfl⟩
theorem changesOnlyPd.br0 (h : changesOnlyPd s t) : t.br0 = s.br0 := by rw [h]
theorem changesOnlyPd.sc (h : changesOnlyPd s t) : t.sc = s.sc := by rw [h]


/-! ### The shared operations

Both raisers of SC, SC itself and its reader, stay inside SC (60_exceptions.md R270). -/

theorem raise_sc_changesOnlySc (k : ErrKind) (s : State) : changesOnlySc s (raise .sc k s) := rfl
theorem raise_scBr_changesOnlySc (k : ErrKind) (s : State) :
    changesOnlySc s (raise .scBr k s) := rfl

theorem setSc_changesOnlySc (s : State) (c : Sc) : changesOnlySc s (s.setSc c) := rfl

theorem setWidth_changesOnlySc (s : State) (x : Nat) : changesOnlySc s (s.setWidth x) := rfl

theorem setSc_setWidth_changesOnlySc (s : State) (c : Sc) (x : Nat) :
    changesOnlySc s ((s.setSc c).setWidth x) := rfl

theorem setPd_changesOnlyPd (s : State) (p : Pd) : changesOnlyPd s (s.setPd p) := rfl

theorem raise_pd_changesOnlyPd (k : ErrKind) (s : State) : changesOnlyPd s (raise .pd k s) := rfl

/-- An instruction that stops where it is not enabled answers only where it is, as its body. -/
theorem enabled_of_next {c : Bool} {o : Host.Outcome State Fault Refusal}
    (h : (if c then o else .fault .notEnabled) = .next t) : c = true ∧ o = .next t := by
  cases c with
  | false => exact absurd h (by simp)
  | true => exact ⟨rfl, h⟩

/-- A start command answers only where its unit is not BUSY, as its body (R306). -/
theorem notBusy_of_next {c : Bool} {o : Host.Outcome State Fault Refusal}
    (h : (if c then .refused .startOnBusy else o) = .next t) : c = false ∧ o = .next t := by
  cases c with
  | false => exact ⟨rfl, h⟩
  | true => exact absurd h (by simp)

theorem pdOutcome_changesOnlyPd {o : Option Pd} (h : pdOutcome s o = .next t) :
    changesOnlyPd s t := by
  rcases pdOutcome_cases s t o h with ⟨p, -, rfl⟩ | ⟨-, rfl⟩
  · exact setPd_changesOnlyPd s p
  · exact raise_pd_changesOnlyPd .invalidSource s

theorem fieldStep_changesOnlyPd {x : Slot} {op : Memory → PdCmd → Pd → Option (PdCmd × Pd)}
    {m : Byte} (h : fieldStep x op m s = .next t) : changesOnlyPd s t := by
  obtain ⟨k, -, -, -, -, -, ⟨k', p', -, rfl⟩ | ⟨-, rfl⟩⟩ := fieldStep_cases h
  · exact setPd_changesOnlyPd s _
  · exact raise_pd_changesOnlyPd .invalidSource s

/-! ### BR0 -/

theorem execBrOpen_changesOnlyBr0 {len : Nat} (h : execBrOpen len s = .next t) :
    changesOnlyBr0 s t := by
  cases h; rfl

/-- The answers of BR.READ: the state as it is where BR0 is DEAD (R133), a raise, or the reader
after the read. -/
theorem execBrRead_cases {w : Word} (h : execBrRead w s = .next t) :
    (s.br0.st = .dead ∧ t = s) ∨
    (s.br0.st = .ready ∧
      ((∃ k, readBr s.bsrc w.toInt s.br0 = .error k ∧ t = raise .br0 k s) ∨
        (∃ r, readBr s.bsrc w.toInt s.br0 = .ok r ∧ t = s.setBr0 r))) := by
  unfold execBrRead at h
  split at h
  · exact absurd h (by simp)
  · next hst => cases h; exact .inl ⟨hst, rfl⟩
  · next hst =>
      split at h
      · next k hk => cases h; exact .inr ⟨hst, .inl ⟨k, hk, rfl⟩⟩
      · next r hr => cases h; exact .inr ⟨hst, .inr ⟨r, hr, rfl⟩⟩

theorem execBrRead_changesOnlyBr0 {w : Word} (h : execBrRead w s = .next t) :
    changesOnlyBr0 s t := by
  rcases execBrRead_cases h with ⟨-, rfl⟩ | ⟨-, ⟨k, -, rfl⟩ | ⟨r, -, rfl⟩⟩ <;> rfl

/-! ### SC -/

theorem execScDecode_changesOnlySc {n k : Nat} {d o : Bool}
    (h : execScDecode n d o k s = .next t) : changesOnlySc s t := by
  obtain ⟨-, ⟨⟩⟩ := notBusy_of_next h
  exact setSc_changesOnlySc s _

/-- The answers of SC.CHUNK: EndOfStream for a cut header or payload, else the block open
(R163 to R165). -/
theorem execScChunk_cases {len : BitVec 16} (h : execScChunk len s = .next t) :
    s.sc.st = .busy ∧ 0 < s.sc.rem ∧ s.sc.blk = 0 ∧
    ((s.sc.srclen < s.sc.spos + 2 + len.toNat ∧ t = raise .sc .endOfStream s) ∨
      (s.sc.spos + 2 + len.toNat ≤ s.sc.srclen ∧
        t = { s with sc := startBlock s.params (Config.freeBr s.free) len.toNat s.sc,
                     free := s.free + 1 })) := by
  obtain ⟨hen, h⟩ := enabled_of_next h
  simp only [Bool.and_eq_true, isBusy_iff, decide_eq_true_eq] at hen
  obtain ⟨⟨hst, hrem⟩, hblk⟩ := hen
  refine ⟨hst, hrem, hblk, ?_⟩
  unfold chunkLenBytes at h
  split at h
  · cases h; exact .inl ⟨by omega, rfl⟩
  · split at h
    · cases h; exact .inl ⟨by omega, rfl⟩
    · cases h; exact .inr ⟨by omega, rfl⟩

theorem execScChunk_changesOnlySc {len : BitVec 16} (h : execScChunk len s = .next t) :
    changesOnlySc s t := by
  obtain ⟨-, -, -, ⟨-, rfl⟩ | ⟨-, rfl⟩⟩ := execScChunk_cases h
  · exact raise_sc_changesOnlySc .endOfStream s
  · rfl

/-- The answers of SC.A.ESC: the error of the FW field's read, else the reader after it and the
changed width (R169, R171). -/
theorem execScAEsc_cases {w : Nat} (h : execScAEsc w s = .next t) :
    symbolEnabled w s.sc = true ∧ isModeA w = true ∧
    ((∃ k, readBr s.ssrc s.params.fetchWidth s.sc.br = .error k ∧ t = raise .scBr k s) ∨
      (∃ r, readBr s.ssrc s.params.fetchWidth s.sc.br = .ok r ∧
        t = (s.setSc { s.sc with br := r }).setWidth (changeWidth w r.res.toNat))) := by
  obtain ⟨hen, h⟩ := enabled_of_next h
  obtain ⟨hsym, hmode⟩ := (Bool.and_eq_true _ _).mp hen
  refine ⟨hsym, hmode, ?_⟩
  split at h
  · next k hk => cases h; exact .inl ⟨k, hk, rfl⟩
  · next r hr => cases h; exact .inr ⟨r, hr, rfl⟩

theorem execScAEsc_changesOnlySc {w : Nat} (h : execScAEsc w s = .next t) :
    changesOnlySc s t := by
  obtain ⟨-, -, ⟨k, -, rfl⟩ | ⟨r, -, rfl⟩⟩ := execScAEsc_cases h
  · exact raise_scBr_changesOnlySc k s
  · exact setSc_setWidth_changesOnlySc s _ _

theorem execScADelta_changesOnlySc {w v : Nat} (h : execScADelta w v s = .next t) :
    changesOnlySc s t := by
  obtain ⟨-, ⟨⟩⟩ := enabled_of_next h
  exact setSc_changesOnlySc s _

theorem execScBEsc_changesOnlySc {w v : Nat} (h : execScBEsc w v s = .next t) :
    changesOnlySc s t := by
  obtain ⟨-, ⟨⟩⟩ := enabled_of_next h
  exact setWidth_changesOnlySc s _

theorem execScBDelta_changesOnlySc {w v : Nat} (h : execScBDelta w v s = .next t) :
    changesOnlySc s t := by
  obtain ⟨-, ⟨⟩⟩ := enabled_of_next h
  exact setSc_changesOnlySc s _

theorem execScCSetw_changesOnlySc {w v : Nat} (h : execScCSetw w v s = .next t) :
    changesOnlySc s t := by
  obtain ⟨-, ⟨⟩⟩ := enabled_of_next h
  exact setWidth_changesOnlySc s _

theorem execScCDelta_changesOnlySc {w v : Nat} (h : execScCDelta w v s = .next t) :
    changesOnlySc s t := by
  obtain ⟨-, ⟨⟩⟩ := enabled_of_next h
  exact setSc_changesOnlySc s _

/-! ### PD -/

theorem execPdDecode_changesOnlyPd {r k : Nat} (h : execPdDecode r k s = .next t) :
    changesOnlyPd s t := by
  obtain ⟨-, ⟨⟩⟩ := notBusy_of_next h
  exact setPd_changesOnlyPd s _

theorem execPdEnd_changesOnlyPd (h : execPdEnd s = .next t) : changesOnlyPd s t := by
  obtain ⟨-, ⟨⟩⟩ := enabled_of_next h
  exact setPd_changesOnlyPd s _

theorem execPdSelm_changesOnlyPd {b : Byte} (h : execPdSelm b s = .next t) :
    changesOnlyPd s t := by
  obtain ⟨-, hout⟩ := enabled_of_next h
  exact pdOutcome_changesOnlyPd hout

theorem execPdSel_changesOnlyPd {b : Byte} (h : execPdSel b s = .next t) :
    changesOnlyPd s t := by
  obtain ⟨-, hout⟩ := enabled_of_next h
  exact pdOutcome_changesOnlyPd hout

/-! ### Every instruction -/

/-- The part of the state an instruction's unit is confined to, by the unit that runs it. -/
def changesOnlyUnitOf (i : Instr) (s t : State) : Prop :=
  match i with
  | .brOpen _ | .brRead _ => changesOnlyBr0 s t
  | .scDecode _ _ _ _ | .scChunk _ | .scAEsc _ | .scADelta _ _ | .scBEsc _ _ | .scBDelta _ _
  | .scCSetw _ _ | .scCDelta _ _ => changesOnlySc s t
  | .pdDecode _ _ | .pdEnd | .pdSelm _ | .pdSel _ | .pdFNote _ | .pdFIns _ | .pdFVol _
  | .pdFEff _ => changesOnlyPd s t

/-- An instruction that answers is confined to its unit. -/
theorem exec_changesOnlyUnitOf {i : Instr} (h : exec i s = .next t) :
    changesOnlyUnitOf i s t := by
  cases i with
  | brOpen len => exact execBrOpen_changesOnlyBr0 h
  | brRead w => exact execBrRead_changesOnlyBr0 h
  | scDecode n d o k => exact execScDecode_changesOnlySc h
  | scChunk len => exact execScChunk_changesOnlySc h
  | scAEsc w => exact execScAEsc_changesOnlySc h
  | scADelta w v => exact execScADelta_changesOnlySc h
  | scBEsc w v => exact execScBEsc_changesOnlySc h
  | scBDelta w v => exact execScBDelta_changesOnlySc h
  | scCSetw w v => exact execScCSetw_changesOnlySc h
  | scCDelta w v => exact execScCDelta_changesOnlySc h
  | pdDecode r k => exact execPdDecode_changesOnlyPd h
  | pdEnd => exact execPdEnd_changesOnlyPd h
  | pdSelm b => exact execPdSelm_changesOnlyPd h
  | pdSel b => exact execPdSel_changesOnlyPd h
  | pdFNote m | pdFIns m | pdFVol m | pdFEff m => exact fieldStep_changesOnlyPd h

/-- No instruction writes a source space, an open parameter or the agenda. -/
theorem exec_keepsSurroundings {i : Instr} (h : exec i s = .next t) : keepsSurroundings s t := by
  have hunit := exec_changesOnlyUnitOf h
  cases i with
  | brOpen _ | brRead _ => exact changesOnlyBr0.surroundings hunit
  | scDecode _ _ _ _ | scChunk _ | scAEsc _ | scADelta _ _ | scBEsc _ _ | scBDelta _ _
  | scCSetw _ _ | scCDelta _ _ => exact changesOnlySc.surroundings hunit
  | pdDecode _ _ | pdEnd | pdSelm _ | pdSel _ | pdFNote _ | pdFIns _ | pdFVol _ | pdFEff _ =>
      exact changesOnlyPd.surroundings hunit

end

/-- Settles O48: every instruction is confined to its unit, which leaves the other two units and
everything around the units as they were. -/
theorem instructionsTouchOnlyTheirUnit : Obligations.InstructionsTouchOnlyTheirUnit := by
  intro i s t h
  obtain ⟨hbsrc, hssrc, hpsrc, hbiases, hagenda⟩ := exec_keepsSurroundings h
  refine ⟨hbsrc, hssrc, hpsrc, hbiases, hagenda, ?_⟩
  have hunit := exec_changesOnlyUnitOf h
  cases i with
  | brOpen _ | brRead _ => exact ⟨changesOnlyBr0.sc hunit, changesOnlyBr0.pd hunit⟩
  | scDecode _ _ _ _ | scChunk _ | scAEsc _ | scADelta _ _ | scBEsc _ _ | scBDelta _ _
  | scCSetw _ _ | scCDelta _ _ => exact ⟨changesOnlySc.br0 hunit, changesOnlySc.pd hunit⟩
  | pdDecode _ _ | pdEnd | pdSelm _ | pdSel _ | pdFNote _ | pdFIns _ | pdFVol _ | pdFEff _ =>
      exact ⟨changesOnlyPd.br0 hunit, changesOnlyPd.sc hunit⟩

end Sys2Proof.Machine
end

section
/-! The BitReader as a bit cursor (10_state.md R23 to R26, 40_bitreader.md R134 to R137): a read
moves along the stream, keeps the pending bits those of the stream, and does not see BR.RES. -/

namespace Sys2Proof.Machine

/-- The byte at index `i` of a little-endian number (R14, R64). -/
theorem memRead_byte {m : Memory} {a n i : Nat} (h : i < n) :
    memRead m a n / 2 ^ (8 * i) % 2 ^ 8 = (readByte m (a + i)).toNat := by
  induction n generalizing a i with
  | zero => omega
  | succ n ih =>
      have hb := (readByte m a).isLt
      cases i with
      | zero => simp only [memRead, Nat.mul_zero, Nat.add_zero]; omega
      | succ i =>
          have htail : memRead m a (n + 1) / 2 ^ 8 = memRead m (a + 1) n := by
            simp only [memRead]
            omega
          have hshift : memRead m a (n + 1) / 2 ^ (8 * (i + 1)) =
              memRead m (a + 1) n / 2 ^ (8 * i) := by
            rw [Nat.mul_succ, Nat.add_comm _ 8, Nat.pow_add, ← Nat.div_div_eq_div_mul, htail]
          rw [hshift, ih (by omega)]
          congr 2
          omega

/-- What holds of a reader at every point of a read: the bits pending, however many, are the
stream's (R25, R26). -/
def pendingInv (m : Memory) (r : Br) : Prop :=
  r.pos ≤ r.len ∧ r.cnt ≤ 8 * r.pos ∧ r.buf.toNat = nextBits m r r.cnt

/-- Between reads at most 7 bits are pending. -/
theorem readyInv_iff {m : Memory} {r : Br} : readyInv m r ↔ pendingInv m r ∧ r.cnt ≤ 7 := by
  unfold readyInv pendingInv
  tauto

theorem openBr_readyInv (m : Memory) (f : Br) (base len : Nat) :
    readyInv m (openBr f base len) := by
  simp [readyInv, nextBits, Nat.mod_one]

theorem bitPos_loadByte (m : Memory) (r : Br) : bitPos (loadByte m r) = bitPos r := by
  simp only [bitPos, loadByte_pos, loadByte_cnt]
  omega

theorem loadByte_pendingInv {m : Memory} {r : Br} (h : pendingInv m r) (hpos : r.pos < r.len)
    (hcnt : r.cnt + 8 ≤ 64) : pendingInv m (loadByte m r) := by
  obtain ⟨-, hle, hbuf⟩ := h
  refine ⟨hpos, by simp only [loadByte_pos, loadByte_cnt]; omega, ?_⟩
  have hb := (readByte m (r.base + r.pos)).isLt
  have hlow : nextBits m r r.cnt < 2 ^ r.cnt := Nat.mod_lt _ (Nat.two_pow_pos _)
  have hfit : (readByte m (r.base + r.pos)).toNat <<< r.cnt < 2 ^ 64 := by
    rw [Nat.shiftLeft_eq]
    calc _ < 2 ^ 8 * 2 ^ r.cnt := Nat.mul_lt_mul_of_pos_right hb (Nat.two_pow_pos _)
      _ = 2 ^ (8 + r.cnt) := (Nat.pow_add 2 8 r.cnt).symm
      _ ≤ 2 ^ 64 := Nat.pow_le_pow_right (by norm_num) (by omega)
  have hbyte : streamValue m r / 2 ^ bitPos r / 2 ^ r.cnt % 2 ^ 8 =
      (readByte m (r.base + r.pos)).toNat := by
    rw [Nat.div_div_eq_div_mul, ← Nat.pow_add, show bitPos r + r.cnt = 8 * r.pos by
      simp only [bitPos]; omega]
    exact memRead_byte hpos
  calc (loadByte m r).buf.toNat
      = nextBits m r r.cnt ||| (readByte m (r.base + r.pos)).toNat <<< r.cnt := by
        simp only [loadByte, BitVec.toNat_or, BitVec.toNat_shiftLeft, BitVec.toNat_setWidth, hbuf]
        rw [Nat.mod_eq_of_lt (by omega : (readByte m (r.base + r.pos)).toNat < 2 ^ 64),
          Nat.mod_eq_of_lt hfit]
    _ = nextBits m r r.cnt + 2 ^ r.cnt * (readByte m (r.base + r.pos)).toNat := by
        rw [Nat.or_comm, ← Nat.shiftLeft_add_eq_or_of_lt hlow, Nat.shiftLeft_eq]
        ring
    _ = nextBits m (loadByte m r) (loadByte m r).cnt := by
        rw [nextBits, nextBits, bitPos_loadByte, loadByte_cnt, Nat.pow_add, Nat.mod_mul, ← hbyte]
        rfl

/-- The refill takes bytes off the stream without moving the bit cursor (R134). -/
theorem refill_pendingInv {m : Memory} {f w : Nat} {r r' : Br} (hw : w ≤ 31)
    (h : refill m f w r = some r') (hp : pendingInv m r) (hcnt : r.cnt ≤ w + 7) :
    pendingInv m r' ∧ r'.cnt ≤ w + 7 ∧ bitPos r' = bitPos r := by
  induction f generalizing r with
  | zero =>
      obtain rfl : r = r' := by simpa [refill] using h
      exact ⟨hp, hcnt, rfl⟩
  | succ f ih =>
      unfold refill at h
      split at h
      · split at h
        · exact absurd h (by simp)
        · obtain ⟨hp', hcnt', hbit⟩ := ih h (loadByte_pendingInv hp (by omega) (by omega))
            (by rw [loadByte_cnt]; omega)
          exact ⟨hp', hcnt', hbit.trans (bitPos_loadByte m r)⟩
      · obtain rfl : r = r' := by simpa using h
        exact ⟨hp, hcnt, rfl⟩

/-- Extract moves the bit cursor past the bits it takes (R136). -/
theorem bitPos_extract {w : Nat} {r : Br} (hw : w ≤ r.cnt) (hle : r.cnt ≤ 8 * r.pos) :
    bitPos (extract w r) = bitPos r + w := by
  simp only [bitPos, extract_pos, extract_cnt]
  omega

theorem extract_pendingInv {m : Memory} {w : Nat} {r : Br} (h : pendingInv m r)
    (hw : w ≤ r.cnt) : pendingInv m (extract w r) := by
  obtain ⟨hpos, hle, hbuf⟩ := h
  refine ⟨hpos, by simp only [extract_cnt, extract_pos]; omega, ?_⟩
  rw [extract_buf, BitVec.toNat_ushiftRight, hbuf, Nat.shiftRight_eq_div_pow, nextBits, nextBits,
    bitPos_extract hw hle, extract_cnt, Nat.pow_add, ← Nat.div_div_eq_div_mul]
  nth_rewrite 1 [show r.cnt = w + (r.cnt - w) by omega]
  rw [Nat.pow_add, Nat.mod_mul_right_div_self]
  rfl

/-- A read that answers ends where a reader stands between reads, the bit cursor past the bits
read (R137). -/
theorem readBr_readyInv {m : Memory} {w : Int} {r r' : Br} (h : readBr m w r = .ok r')
    (hr : readyInv m r) : readyInv m r' ∧ bitPos r' = bitPos r + w.toNat := by
  rcases readBr_cases m w r with ⟨-, he⟩ | ⟨-, -, he⟩ | ⟨⟨-, hw⟩, r1, hf, he⟩
  · cases he.symm.trans h
  · cases he.symm.trans h
  · cases he.symm.trans h
    obtain ⟨hp, hcnt⟩ := readyInv_iff.mp hr
    obtain ⟨hp1, hcnt1, hbit⟩ := refill_pendingInv (by omega) hf hp (by omega)
    have henough := refill_width hf
    refine ⟨readyInv_iff.mpr ⟨extract_pendingInv hp1 henough, ?_⟩, ?_⟩
    · rw [extract_cnt]; omega
    · rw [bitPos_extract henough hp1.2.1, hbit]

/-- The result of a read fits its width (R136). -/
theorem readBr_res_lt {m : Memory} {w : Int} {r r' : Br} (h : readBr m w r = .ok r') :
    r'.res.toNat < 2 ^ w.toNat := by
  rcases readBr_cases m w r with ⟨-, he⟩ | ⟨-, -, he⟩ | ⟨-, r1, -, he⟩
  · cases he.symm.trans h
  · cases he.symm.trans h
  · cases he.symm.trans h
    rw [extract_res, BitVec.toNat_ofNat]
    exact (Nat.mod_le _ _).trans_lt (Nat.mod_lt _ (Nat.two_pow_pos _))

theorem refill_res (m : Memory) (f w : Nat) (r : Br) (x : Word) :
    refill m f w { r with res := x } = (refill m f w r).map fun q => { q with res := x } := by
  induction f generalizing r with
  | zero => rfl
  | succ f ih =>
      simp only [refill]
      split
      · split
        · rfl
        · exact ih (loadByte m r)
      · rfl

/-- A read does not see what BR.RES held: it overwrites it (R136). -/
theorem readBr_res (m : Memory) (w : Int) (r : Br) (x : Word) :
    readBr m w { r with res := x } = readBr m w r := by
  unfold readBr
  split
  · rfl
  · rw [refill_res]
    cases refill m w.toNat w.toNat r <;> rfl

end Sys2Proof.Machine
end

section
/-! SC's turn by what SC is at: a symbol of an open block, a chunk header, or completion
(41_samplecodec.md R162 to R168, R180). -/

namespace Sys2Proof.Machine

theorem scTurn_of_busy {s : State} (h : s.sc.st = .busy) : scTurn s = runFetched (fetchSc s) :=
  if_pos ((isBusy_iff _).mpr h)

theorem scTurn_of_not_busy {s : State} (h : s.sc.st ≠ .busy) : scTurn s = .next s :=
  if_neg fun hb => h ((isBusy_iff _).mp hb)

theorem fetchSc_symbol {s : State} (h : 0 < s.sc.blk) : fetchSc s = fetchSymbol s := if_pos h

theorem fetchSc_chunk {s : State} (hblk : s.sc.blk = 0) (hrem : 0 < s.sc.rem) :
    fetchSc s = fetchChunk s := by
  rw [fetchSc, if_neg (by omega), if_pos hrem]

theorem fetchSc_complete {s : State} (hblk : s.sc.blk = 0) (hrem : s.sc.rem = 0) :
    fetchSc s = .silent (s.setSc (scComplete s.sc)) := by
  rw [fetchSc, if_neg (by omega), if_neg (by omega)]

/-- `W0` is a legal value of the 17-bit width register, with room above it (00_scope.md R8, R11). -/
theorem State.defaultWidth_bounds (s : State) :
    1 ≤ s.params.defaultWidth ∧ s.params.defaultWidth + 1 < 2 ^ 17 := by
  rw [State.params, codecParams_defaultWidth]
  split <;> norm_num

/-- The width a chunk fetch starts a block with is a legal one (R165, R182). -/
theorem State.one_le_openingWidth (s : State) :
    1 ≤ (BitVec.ofNat 17 s.params.defaultWidth).toNat := by
  obtain ⟨hone, hlt⟩ := s.defaultWidth_bounds
  rwa [BitVec.toNat_ofNat, Nat.mod_eq_of_lt (by omega)]

/-- The length in the chunk header at index `a` (R163). -/
def chunkLength (m : Memory) (a : Nat) : Nat :=
  (readByte m (a + 1) ++ readByte m a : BitVec 16).toNat

/-- SC's turn between blocks: EndOfStream for a cut header or payload, else the block is open
(R163 to R165). -/
theorem scTurn_chunk {s : State} (hst : s.sc.st = .busy) (hblk : s.sc.blk = 0)
    (hrem : 0 < s.sc.rem) :
    scTurn s = .next
      (if s.sc.srclen < s.sc.spos + 2 + chunkLength s.ssrc s.sc.spos then
        raise .sc .endOfStream s
      else { s with sc := startBlock s.params (Config.freeBr s.free)
                            (chunkLength s.ssrc s.sc.spos) s.sc,
                    free := s.free + 1 }) := by
  rw [scTurn_of_busy hst, fetchSc_chunk hblk hrem]
  rcases fetchChunk_cases s with ⟨hcut, hf⟩ | ⟨hin, hf⟩
  · rw [hf, if_pos (by omega)]; rfl
  · rw [hf]
    have hen : (s.sc.st.isBusy && decide (0 < s.sc.rem) && decide (s.sc.blk = 0)) = true := by
      simp [hst, hrem, hblk, UnitStatus.isBusy]
    show execScChunk _ s = _
    rw [execScChunk, if_pos hen, if_neg (Nat.not_lt.mpr hin)]
    exact (apply_ite Host.Outcome.next _ _ _).symm

/-- What a symbol of width `w` does where it is enabled: it writes a sample, it changes the width,
or it is the escape that reads its width from the stream (R169 to R175). -/
def actsAsSymbol (cp : CodecParams) (w : Nat) (i : Instr) : Prop :=
  (∃ value tb, ∀ s : State, s.params = cp → symbolEnabled w s.sc = true →
    exec i s = .next (s.setSc (writeSample value tb s.sc))) ∨
  (∃ x, 1 ≤ x ∧ ∀ s : State, s.params = cp → symbolEnabled w s.sc = true →
    exec i s = .next (s.setWidth x)) ∨
  (i = .scAEsc w ∧ isModeA w = true)

/-- Every value of a legal width is a symbol (R102), enabled wherever its width is `SC.W`. -/
theorem decodeSymbol_actsAsSymbol {cp : CodecParams} {w v : Nat} (hw : 1 ≤ w)
    (hmax : w ≤ cp.defaultWidth) (hv : v < 2 ^ w) :
    ∃ i, decodeSymbol cp w v = .ok i ∧ actsAsSymbol cp w i := by
  have hfits : fits w v = true := (fits_iff w v).mpr hv
  rw [decodeSymbol, if_neg (by omega), if_neg (by omega), if_neg (by simp [hfits])]
  by_cases hA : w ≤ modeAMax
  · have hmode : isModeA w = true := (isModeA_iff w).mpr ⟨hw, hA⟩
    rw [if_pos hA]
    by_cases htb : v = topBit w
    · rw [if_pos htb]
      exact ⟨_, rfl, .inr (.inr ⟨rfl, hmode⟩)⟩
    · rw [if_neg htb]
      exact ⟨_, rfl, .inl ⟨v, topBit w, fun s _ hen => if_pos (by simp [hen, hmode, hfits, htb])⟩⟩
  rw [if_neg hA]
  have hwide : 6 < w := Nat.lt_of_not_le hA
  by_cases hB : w < cp.defaultWidth
  · have hmode : isModeB cp w = true := (isModeB_iff cp w).mpr ⟨hwide, hB⟩
    rw [if_pos hB]
    by_cases hwin : inWindow cp w v = true
    · rw [if_pos hwin]
      refine ⟨_, rfl, .inr (.inl ⟨_, one_le_changeWidth w (escapeDelta cp w v), ?_⟩)⟩
      rintro s rfl hen
      exact if_pos (by simp [hen, hmode, hfits, hwin])
    · rw [if_neg hwin]
      exact ⟨_, rfl, .inl ⟨v, topBit w, fun s hp hen =>
        if_pos (by simp [hp, hen, hmode, hfits, hwin])⟩⟩
  · have hmode : isModeC cp w = true := (isModeC_iff cp w).mpr ⟨hwide, by omega⟩
    rw [if_neg hB]
    by_cases htop : topBitSet w v = true
    · rw [if_pos htop]
      exact ⟨_, rfl, .inr (.inl ⟨lowPart w v + 1, by omega, fun s hp hen =>
        if_pos (by simp [hp, hen, hmode, hfits, htop])⟩)⟩
    · rw [if_neg htop]
      exact ⟨_, rfl, .inl ⟨lowPart w v, 0, fun s hp hen =>
        if_pos (by simp [hp, hen, hmode, hfits, htop])⟩⟩

end Sys2Proof.Machine
end

section
/-! A decode depends on its operands, SSRC and the open parameters only (10_state.md R49,
20_memory.md R79, 41_samplecodec.md R184): two runs of SC kept side by side. -/

namespace Sys2Proof.Machine

/-- Inside a block two runs agree on the accumulators, on the reader but for BR.RES, and on the
width, where a width above `W0` may be any (30_encoding.md R107). -/
structure SameBlock (w0 : Nat) (c c' : Sc) : Prop where
  mem1 : c'.mem1 = c.mem1
  mem2 : c'.mem2 = c.mem2
  br : c'.br = { c.br with res := c'.br.res }
  one_le_w : 1 ≤ c.w.toNat
  w : c'.w = c.w ∨ (w0 < c.w.toNat ∧ w0 < c'.w.toNat)

/-- Two runs that have emitted the same samples since their outputs were `o` and `o'`, and that go
on alike. Between blocks they need not agree on what a chunk fetch overwrites. -/
structure SameCourse (w0 : Nat) (o o' : List Sample) (c c' : Sc) : Prop where
  config : c' = { c with w := c'.w, mem1 := c'.mem1, mem2 := c'.mem2, br := c'.br, out := c'.out }
  output : ∃ xs, c.out = o ++ xs ∧ c'.out = o' ++ xs
  block : 0 < c.blk → SameBlock w0 c c'

/-- Two machines whose SC reads the same source under the same parameters, in the same status, and
unless failed on the same course. -/
structure SameDecode (o o' : List Sample) (s s' : State) : Prop where
  ssrc : s'.ssrc = s.ssrc
  biases : s'.biases = s.biases
  st : s'.sc.st = s.sc.st
  err : s'.sc.err = s.sc.err
  course : s.sc.st ≠ .fault → SameCourse s.params.defaultWidth o o' s.sc s'.sc

section
variable {o o' : List Sample} {s s' : State}

theorem SameDecode.raise_sc (h : SameDecode o o' s s') (k : ErrKind) :
    SameDecode o o' (raise .sc k s) (raise .sc k s') :=
  ⟨h.ssrc, h.biases, rfl, rfl, fun hst => absurd rfl hst⟩

theorem SameDecode.raise_scBr (h : SameDecode o o' s s') (k : ErrKind) :
    SameDecode o o' (raise .scBr k s) (raise .scBr k s') :=
  ⟨h.ssrc, h.biases, rfl, rfl, fun hst => absurd rfl hst⟩

/-- Two machines inside a block, a symbol just read: SC agrees on everything but the output. -/
structure SameSymbol (o o' : List Sample) (s s' : State) : Prop where
  ssrc : s'.ssrc = s.ssrc
  biases : s'.biases = s.biases
  sc : s'.sc = { s.sc with out := s'.sc.out }
  output : ∃ xs, s.sc.out = o ++ xs ∧ s'.sc.out = o' ++ xs

theorem SameSymbol.params (h : SameSymbol o o' s s') : s'.params = s.params := by
  rw [State.params, h.biases, h.sc]; rfl

theorem SameSymbol.enabled (h : SameSymbol o o' s s') (w : Nat) :
    symbolEnabled w s'.sc = symbolEnabled w s.sc := by
  rw [h.sc]; rfl

theorem SameSymbol.sameDecode (h : SameSymbol o o' s s') (hw : 1 ≤ s.sc.w.toNat) :
    SameDecode o o' s s' :=
  ⟨h.ssrc, h.biases, by rw [h.sc], by rw [h.sc], fun _ =>
    ⟨by rw [h.sc], h.output, fun _ =>
      ⟨by rw [h.sc], by rw [h.sc], by rw [h.sc], hw, .inl (by rw [h.sc])⟩⟩⟩

theorem SameSymbol.setBr (h : SameSymbol o o' s s') (r : Br) :
    SameSymbol o o' (s.setSc { s.sc with br := r }) (s'.setSc { s'.sc with br := r }) :=
  ⟨h.ssrc, h.biases, by simp only [State.setSc_sc]; rw [h.sc], h.output⟩

/-- The sample written does not depend on the samples before it (R176, R177). -/
theorem writeSample_out_of_out (value tb : Nat) (c : Sc) (l : List Sample) :
    (Machine.writeSample value tb { c with out := l }).out =
      l ++ [sampleOf c.depth16 (if c.so then (Machine.writeSample value tb c).mem2
        else (Machine.writeSample value tb c).mem1)] := rfl

theorem SameSymbol.writeSample (h : SameSymbol o o' s s') (value tb : Nat) :
    SameSymbol o o' (s.setSc (writeSample value tb s.sc)) (s'.setSc (writeSample value tb s'.sc)) := by
  obtain ⟨xs, hout, hout'⟩ := h.output
  obtain ⟨x, hx⟩ : ∃ x, ∀ l, (Machine.writeSample value tb { s.sc with out := l }).out = l ++ [x] :=
    ⟨_, writeSample_out_of_out value tb s.sc⟩
  refine ⟨h.ssrc, h.biases, by simp only [State.setSc_sc]; rw [h.sc]; rfl, xs ++ [x], ?_, ?_⟩
  · exact (hx s.sc.out).trans (by rw [hout, List.append_assoc])
  · rw [State.setSc_sc, h.sc]
    exact (hx s'.sc.out).trans (by rw [hout', List.append_assoc])

theorem SameSymbol.setWidth (h : SameSymbol o o' s s') {x : Nat} (hx : 1 ≤ x) :
    SameDecode o o' (s.setWidth x) (s'.setWidth x) := by
  have hw0 := s.defaultWidth_bounds.2
  have hwidth : (s'.setWidth x).sc.w = (s.setWidth x).sc.w ∨
      (s.params.defaultWidth < (s.setWidth x).sc.w.toNat ∧
        s.params.defaultWidth < (s'.setWidth x).sc.w.toNat) := by
    simp only [State.setWidth_sc, h.params]
    by_cases hlt : x < 2 ^ 17
    · exact .inl (by rw [widthAfter_of_lt hlt, widthAfter_of_lt hlt])
    · exact .inr ⟨defaultWidth_lt_widthAfter hw0 hlt, defaultWidth_lt_widthAfter hw0 hlt⟩
  have hone : 1 ≤ (s.setWidth x).sc.w.toNat := one_le_widthAfter hw0 hx
  refine ⟨h.ssrc, h.biases, ?_, ?_, fun _ => ⟨?_, h.output, fun _ => ⟨?_, ?_, ?_, hone, hwidth⟩⟩⟩
  all_goals simp only [State.setWidth_sc]; rw [h.sc]

/-- A symbol takes two machines that agree to machines that agree. -/
theorem SameSymbol.exec {w : Nat} {i : Instr} (h : SameSymbol o o' s s')
    (hi : actsAsSymbol s.params w i) (hen : symbolEnabled w s.sc = true)
    (hw : 1 ≤ s.sc.w.toNat) :
    ∃ t t', exec i s = .next t ∧ exec i s' = .next t' ∧ SameDecode o o' t t' := by
  have hen' : Machine.symbolEnabled w s'.sc = true := (h.enabled w).trans hen
  rcases hi with ⟨value, tb, hexec⟩ | ⟨x, hx, hexec⟩ | ⟨rfl, hmode⟩
  · exact ⟨_, _, hexec s rfl hen, hexec s' h.params hen', (h.writeSample value tb).sameDecode hw⟩
  · exact ⟨_, _, hexec s rfl hen, hexec s' h.params hen', h.setWidth hx⟩
  · have hread : readBr s'.ssrc s'.params.fetchWidth s'.sc.br =
        readBr s.ssrc s.params.fetchWidth s.sc.br := by
      rw [h.ssrc, h.params, h.sc]
    show ∃ t t', execScAEsc w s = .next t ∧ execScAEsc w s' = .next t' ∧ _
    rw [execScAEsc, execScAEsc, if_pos (by rw [hen, hmode]; rfl), if_pos (by rw [hen', hmode]; rfl),
      hread]
    cases readBr s.ssrc s.params.fetchWidth s.sc.br with
    | error k => exact ⟨_, _, rfl, rfl, (h.sameDecode hw).raise_scBr k⟩
    | ok r =>
        have hres := one_le_changeWidth w r.res.toNat
        exact ⟨_, _, rfl, rfl, (h.setBr r).setWidth hres⟩

/-- The symbol step of two machines on the same course: the width guard, the symbol's read and the
symbol itself answer alike (R166 to R168). -/
theorem SameDecode.symbolTurn (h : SameDecode o o' s s') (hst : s.sc.st = .busy)
    (hblk : 0 < s.sc.blk) :
    ∃ t t', scTurn s = .next t ∧ scTurn s' = .next t' ∧ SameDecode o o' t t' := by
  obtain ⟨hconfig, houtput, hblock⟩ := h.course (by simp [hst])
  obtain ⟨hmem1, hmem2, hbr, hone, hw⟩ := hblock hblk
  have hst' : s'.sc.st = .busy := h.st.trans hst
  have hparams : s'.params = s.params := by rw [State.params, h.biases, hconfig]; rfl
  have hblk' : 0 < s'.sc.blk := by rw [hconfig]; exact hblk
  rw [scTurn_of_busy hst, scTurn_of_busy hst', fetchSc_symbol hblk, fetchSc_symbol hblk']
  by_cases hguard : s.params.defaultWidth < s.sc.w.toNat
  · have hguard' : s'.params.defaultWidth < s'.sc.w.toNat := by
      rcases hw with hw | ⟨-, hw'⟩
      · rwa [hparams, hw]
      · rwa [hparams]
    rw [fetchSymbol, fetchSymbol, if_pos hguard, if_pos hguard']
    exact ⟨_, _, rfl, rfl, h.raise_sc .decodingError⟩
  · have hw : s'.sc.w = s.sc.w := hw.resolve_right fun hover => hguard hover.1
    have hread : readBr s'.ssrc s'.sc.w.toNat s'.sc.br = readBr s.ssrc s.sc.w.toNat s.sc.br := by
      rw [h.ssrc, hw, hbr, readBr_res]
    rw [fetchSymbol, fetchSymbol, hparams, hread, hw, if_neg hguard, if_neg hguard]
    cases hr : readBr s.ssrc s.sc.w.toNat s.sc.br with
    | error k => exact ⟨_, _, rfl, rfl, h.raise_scBr k⟩
    | ok r =>
        obtain ⟨i, hdecode, hi⟩ :=
          decodeSymbol_actsAsSymbol hone (Nat.le_of_not_lt hguard) (readBr_res_lt hr)
        have hsame : SameSymbol o o' (s.setSc { s.sc with br := r })
            (s'.setSc { s'.sc with br := r }) :=
          ⟨h.ssrc, h.biases, by simp only [State.setSc_sc]; rw [hconfig, hw, hmem1, hmem2],
            houtput⟩
        simp only [decode, hdecode, fetchedOf, runFetched]
        exact hsame.exec hi ((symbolEnabled_iff _ _).mpr ⟨hst, hblk, rfl⟩) hone

/-- The chunk fetch of two machines on the same course reads the same header and opens the same
block, but for BR.RES (R163 to R165). -/
theorem SameDecode.chunkTurn (h : SameDecode o o' s s') (hst : s.sc.st = .busy)
    (hblk : s.sc.blk = 0) (hrem : 0 < s.sc.rem) :
    ∃ t t', scTurn s = .next t ∧ scTurn s' = .next t' ∧ SameDecode o o' t t' := by
  obtain ⟨hconfig, houtput, -⟩ := h.course (by simp [hst])
  have hparams : s'.params = s.params := by rw [State.params, h.biases, hconfig]; rfl
  have hspos : s'.sc.spos = s.sc.spos := by rw [hconfig]
  have hsrclen : s'.sc.srclen = s.sc.srclen := by rw [hconfig]
  refine ⟨_, _, scTurn_chunk hst hblk hrem, scTurn_chunk (h.st.trans hst)
    (by rw [hconfig]; exact hblk) (by rw [hconfig]; exact hrem), ?_⟩
  rw [h.ssrc, hspos, hsrclen, hparams]
  split
  · exact h.raise_sc .endOfStream
  · have hstart (f f' : Br) (len : Nat) :
        SameCourse s.params.defaultWidth o o' (startBlock s.params f len s.sc)
          (startBlock s.params f' len s'.sc) :=
      ⟨by rw [hconfig]; rfl, houtput, fun _ => ⟨rfl, rfl, by rw [hconfig]; rfl, s.one_le_openingWidth,
        .inl rfl⟩⟩
    exact ⟨rfl, h.biases, h.st, h.err, fun _ => hstart _ _ _⟩

theorem SameDecode.completeTurn (h : SameDecode o o' s s') (hst : s.sc.st = .busy)
    (hblk : s.sc.blk = 0) (hrem : s.sc.rem = 0) :
    ∃ t t', scTurn s = .next t ∧ scTurn s' = .next t' ∧ SameDecode o o' t t' := by
  obtain ⟨hconfig, houtput, -⟩ := h.course (by simp [hst])
  rw [scTurn_of_busy hst, scTurn_of_busy (h.st.trans hst), fetchSc_complete hblk hrem,
    fetchSc_complete (by rw [hconfig]; exact hblk) (by rw [hconfig]; exact hrem)]
  refine ⟨_, _, rfl, rfl, h.ssrc, h.biases, rfl, h.err, fun _ =>
    ⟨?_, houtput, fun hpos => absurd hblk (Nat.ne_of_gt hpos)⟩⟩
  simp only [State.setSc_sc]
  rw [hconfig]
  rfl

/-- Two machines on the same course take SC's turn alike, and both answer. -/
theorem SameDecode.turn (h : SameDecode o o' s s') :
    ∃ t t', scTurn s = .next t ∧ scTurn s' = .next t' ∧ SameDecode o o' t t' := by
  by_cases hst : s.sc.st = .busy
  · rcases Nat.eq_zero_or_pos s.sc.blk with hblk | hblk
    · rcases Nat.eq_zero_or_pos s.sc.rem with hrem | hrem
      · exact h.completeTurn hst hblk hrem
      · exact h.chunkTurn hst hblk hrem
    · exact h.symbolTurn hst hblk
  · exact ⟨s, s', scTurn_of_not_busy hst, scTurn_of_not_busy (h.st ▸ hst), h⟩

theorem SameDecode.run (h : SameDecode o o' s s') (n : Nat) :
    ∃ t t', runTurns scTurn n s = .next t ∧ runTurns scTurn n s' = .next t' ∧
      SameDecode o o' t t' := by
  induction n generalizing s s' with
  | zero => exact ⟨s, s', rfl, rfl, h⟩
  | succ n ih =>
      obtain ⟨t, t', hturn, hturn', ht⟩ := h.turn
      simpa only [runTurns, hturn, hturn'] using ih ht

/-- `SC.DECODE` sets two machines on the same course: what it does not write, the first chunk fetch
does (10_state.md R47, R49). -/
theorem startSc_sameDecode (slen : Nat) (depth16 so : Bool) (srclen : Nat)
    (hssrc : s.ssrc = s'.ssrc) (hbiases : s.biases = s'.biases) :
    SameDecode [] [] (s.setSc (startSc slen depth16 so srclen s.sc))
      (s'.setSc (startSc slen depth16 so srclen s'.sc)) :=
  ⟨hssrc.symm, hbiases.symm, rfl, rfl, fun _ =>
    ⟨rfl, ⟨[], rfl, rfl⟩, fun hblk => absurd hblk (Nat.lt_irrefl 0)⟩⟩

theorem execScDecode_of_not_busy (slen : Nat) (depth16 so : Bool) (srclen : Nat)
    (h : s.sc.st ≠ .busy) :
    exec (.scDecode slen depth16 so srclen) s =
      .next (s.setSc (startSc slen depth16 so srclen s.sc)) :=
  if_neg fun hb => h ((isBusy_iff _).mp hb)

end

/-- Settles O30: the start command sets both machines on the same course, and SC's turns keep them
there. -/
theorem scDecodeDependsOnlyOnItsInputs : Obligations.ScDecodeDependsOnlyOnItsInputs := by
  intro slen depth16 so srclen s s' n hst hst' hssrc hbiases
  obtain ⟨t, t', hrun, hrun', hsame⟩ :=
    (startSc_sameDecode slen depth16 so srclen hssrc hbiases).run n
  refine ⟨_, _, t, t', execScDecode_of_not_busy slen depth16 so srclen hst,
    execScDecode_of_not_busy slen depth16 so srclen hst', hrun, hrun', hsame.st.symm,
    hsame.err.symm, fun hfault => ?_⟩
  obtain ⟨xs, hout, hout'⟩ := (hsame.course hfault).output
  rw [hout, hout']

end Sys2Proof.Machine
end

section
/-! What SC's operations keep of its invariant (10_state.md R31 to R35, 41_samplecodec.md R182). -/

namespace Sys2Proof.Machine

section
variable {m : Memory} {cp : CodecParams} {c : Sc}

/-- A failed SC with its kind in ERR (60_exceptions.md R270). -/
theorem scInv_of_failed (hst : c.st = .fault) (herr : c.err ≠ .noError) : scInv m cp c := by
  simp [scInv, hst, herr]

/-- Nothing of a SC that is not BUSY speaks of its source or of the codec parameters. -/
theorem scInv.of_not_busy {m' : Memory} {cp' : CodecParams} (h : scInv m cp c)
    (hst : c.st ≠ .busy) : scInv m' cp' c :=
  ⟨h.1, h.2.1, fun hbusy => absurd hbusy hst⟩

theorem startSc_scInv (slen : Nat) (depth16 so : Bool) (srclen : Nat) :
    scInv m cp (startSc slen depth16 so srclen c) := by
  by_cases hslen : slen = 0 <;> simp [scInv, startSc, startStatus, hslen]

theorem scComplete_scInv (h : scInv m cp c) (hst : c.st = .busy) (hrem : c.rem = 0) :
    scInv m cp (scComplete c) := by
  obtain ⟨herr, -, hbusy⟩ := h
  obtain ⟨-, -, hcount, -, -⟩ := hbusy hst
  have hok : c.err = .noError := by simpa [hst] using herr
  exact ⟨by simp [scComplete, hok], fun _ => by simp only [scComplete]; omega,
    fun hst => absurd hst (by simp [scComplete])⟩

/-- A chunk wholly inside SSRC opens a block of at most `MAXBLK` samples at the width `W0`
(R164, R165). -/
theorem startBlock_scInv (f : Br) {len : Nat} (h : scInv m cp c) (hst : c.st = .busy)
    (hlen : c.spos + 2 + len ≤ c.srclen) (hw : 1 ≤ (BitVec.ofNat 17 cp.defaultWidth).toNat) :
    scInv m cp (startBlock cp f len c) := by
  obtain ⟨herr, hdone, hbusy⟩ := h
  obtain ⟨-, -, hcount, -, -⟩ := hbusy hst
  exact ⟨herr, hdone, fun _ => ⟨min_le_left _ _, min_le_right _ _, hcount, hlen,
    fun _ => ⟨hw, rfl, openBr_readyInv m f _ len, rfl⟩⟩⟩

/-- A read of SC's reader leaves it inside its chunk. -/
theorem scInv.setBr (h : scInv m cp c) {w : Int} {r : Br} (hread : readBr m w c.br = .ok r) :
    scInv m cp { c with br := r } := by
  obtain ⟨herr, hdone, hbusy⟩ := h
  obtain ⟨hst', -, hbase, hlen⟩ := readBr_sameBinding hread
  refine ⟨herr, hdone, fun hst => ?_⟩
  obtain ⟨hrem, hmax, hcount, hspos, hblock⟩ := hbusy hst
  refine ⟨hrem, hmax, hcount, hspos, fun hblk => ?_⟩
  obtain ⟨hw, hready, hbr, hend⟩ := hblock hblk
  exact ⟨hw, hst'.trans hready, (readBr_readyInv hread hbr).1, by simp only [hbase, hlen, hend]⟩

theorem scInv.setW (h : scInv m cp c) {w : Width} (hw : 1 ≤ w.toNat) :
    scInv m cp { c with w := w } := by
  obtain ⟨herr, hdone, hbusy⟩ := h
  refine ⟨herr, hdone, fun hst => ?_⟩
  obtain ⟨hrem, hmax, hcount, hspos, hblock⟩ := hbusy hst
  exact ⟨hrem, hmax, hcount, hspos, fun hblk => ⟨hw, (hblock hblk).2⟩⟩

/-- A sample written is one sample less to come (R176). -/
theorem writeSample_scInv (value tb : Nat) (h : scInv m cp c) (hst : c.st = .busy)
    (hblk : 0 < c.blk) : scInv m cp (writeSample value tb c) := by
  obtain ⟨herr, -, hbusy⟩ := h
  obtain ⟨hrem, hmax, hcount, hspos, hblock⟩ := hbusy hst
  refine ⟨herr, fun hdone => absurd (hst.symm.trans hdone) (by simp), fun _ => ?_⟩
  simp only [writeSample_blk, writeSample_rem, writeSample_out, writeSample_slen,
    writeSample_spos, writeSample_srclen, writeSample_w, writeSample_br, List.length_append,
    List.length_singleton]
  exact ⟨by omega, by omega, by omega, hspos, fun _ => hblock hblk⟩

end

section
variable {s t : State}

theorem setWidth_scInv {x : Nat} (h : scInv s.ssrc s.params s.sc) (hx : 1 ≤ x) :
    scInv s.ssrc s.params (s.setWidth x).sc :=
  h.setW (one_le_widthAfter s.defaultWidth_bounds.2 hx)

theorem execScChunk_scInv {len : BitVec 16} (h : execScChunk len s = .next t)
    (hs : scInv s.ssrc s.params s.sc) : scInv t.ssrc t.params t.sc := by
  obtain ⟨hst, -, -, ⟨-, rfl⟩ | ⟨hin, rfl⟩⟩ := execScChunk_cases h
  · exact scInv_of_failed rfl (by simp)
  · exact startBlock_scInv _ hs hst hin s.one_le_openingWidth

theorem execScAEsc_scInv {w : Nat} (h : execScAEsc w s = .next t)
    (hs : scInv s.ssrc s.params s.sc) : scInv t.ssrc t.params t.sc := by
  obtain ⟨-, -, ⟨k, hread, rfl⟩ | ⟨r, hread, rfl⟩⟩ := execScAEsc_cases h
  · exact scInv_of_failed rfl (by rcases readBr_error hread with rfl | rfl <;> simp)
  · exact setWidth_scInv (s := s.setSc { s.sc with br := r }) (hs.setBr hread)
      (one_le_changeWidth _ _)

/-- A delta symbol, in each of the three modes, is enabled in an open block only. -/
theorem writeSample_scInv_of_enabled {w value tb : Nat} (hs : scInv s.ssrc s.params s.sc)
    (hen : symbolEnabled w s.sc = true) : scInv s.ssrc s.params (writeSample value tb s.sc) := by
  obtain ⟨hst, hblk, -⟩ := (symbolEnabled_iff w s.sc).mp hen
  exact writeSample_scInv value tb hs hst hblk

end

end Sys2Proof.Machine
end

section
/-! What PD's operations keep of its invariant (10_state.md R37 to R41, 42_patterndecoder.md R210 to
R223). -/

namespace Sys2Proof.Machine

/-- The note translated is never in 122..252 (R225). -/
theorem noteXlat_legal (r : Byte) : noteXlat r ≤ 121 ∨ 253 ≤ noteXlat r := by
  unfold noteXlat
  split_ifs with h120
  · left; bv_omega
  all_goals right; decide

/-- A volume command is legal if it is legal in a range of the table and in the ranges after it. -/
theorem volumeRange_legal {c : Prop} [Decidable c] {x y : BitVec 4 × Byte} (hx : x.1 ≤ 10)
    (hy : y.1 ≤ 10) : (if c then x else y).1 ≤ 10 := by
  split <;> assumption

/-- The volume command is never above 10 (R226). -/
theorem volXlat_legal (v : Byte) : (volXlat v).1 ≤ 10 := by
  unfold volXlat
  repeat' apply volumeRange_legal
  all_goals simp

/-- What a command in progress carries: a legal entry, and fields its mask selects (R212, R40). -/
def cmdOk (k : PdCmd) : Prop := entryOk k.entry ∧ ∀ x ∈ k.todo, Slot.selected k.mask x = true

/-- What a field sub-operation leaves of the command: its mask, the other fields to do, and a legal
entry. -/
def fieldDone (x : Slot) (k k' : PdCmd) : Prop :=
  k'.mask = k.mask ∧ k'.todo = k.todo.erase x ∧ (entryOk k.entry → entryOk k'.entry)

theorem fieldDone.cmdOk {x : Slot} {k k' : PdCmd} (h : fieldDone x k k') (hk : cmdOk k) :
    cmdOk k' := by
  obtain ⟨hmask, htodo, hentry⟩ := h
  refine ⟨hentry hk.1, fun y hy => ?_⟩
  rw [hmask]
  exact hk.2 y (List.mem_of_mem_erase (htodo ▸ hy))

section
variable {m : Memory} {k k' : PdCmd} {p p' : Pd}

theorem openCommand_cmdOk {b : Byte} (h : openCommand m b p = some (k, p')) : cmdOk k := by
  obtain ⟨-, -, hentry, htodo⟩ := openCommand_cmd h
  refine ⟨by rw [hentry]; simp [entryOk], fun x hx => ?_⟩
  rw [htodo] at hx
  exact (List.mem_filter.mp hx).2

theorem fieldNote_done (h : fieldNote m k p = some (k', p')) : fieldDone .note k k' := by
  unfold fieldNote at h
  dsimp only at h
  split at h
  · exact absurd h (by simp)
  · cases h
    refine ⟨rfl, rfl, fun hk => ?_⟩
    dsimp only
    split
    · exact ⟨noteXlat_legal _, hk.2⟩
    · exact hk

theorem fieldIns_done (h : fieldIns m k p = some (k', p')) : fieldDone .ins k k' := by
  unfold fieldIns at h
  dsimp only at h
  split at h
  · exact absurd h (by simp)
  · cases h
    refine ⟨rfl, rfl, fun hk => ?_⟩
    dsimp only
    split <;> exact hk

theorem fieldVol_done (h : fieldVol m k p = some (k', p')) : fieldDone .vol k k' := by
  unfold fieldVol at h
  dsimp only at h
  split at h
  · exact absurd h (by simp)
  · cases h
    refine ⟨rfl, rfl, fun hk => ?_⟩
    dsimp only
    split
    · exact ⟨hk.1, volXlat_legal _⟩
    · exact hk

theorem fieldEff_done (h : fieldEff m k p = some (k', p')) : fieldDone .eff k k' := by
  unfold fieldEff at h
  dsimp only at h
  split at h
  · exact absurd h (by simp)
  · cases h
    refine ⟨rfl, rfl, fun hk => ?_⟩
    dsimp only
    split <;> exact hk

/-- A failed PD with its kind in ERR (60_exceptions.md R270). -/
theorem pdInv_of_failed (hst : p.st = .fault) (herr : p.err ≠ .noError) (hcmd : p.cmd = none) :
    pdInv p := by
  simp [pdInv, hst, herr, hcmd]

theorem startPd_pdInv (rows srclen : Nat) : pdInv (startPd rows srclen) := by
  by_cases hrows : rows = 0 <;> simp [pdInv, startPd, startStatus, rowsOk, hrows]

theorem pdComplete_pdInv (h : pdInv p) (hst : p.st = .busy) (hrow : ¬p.row < p.rows)
    (hcmd : p.cmd = none) : pdInv (pdComplete p) := by
  obtain ⟨herr, -, hbusy, -⟩ := h
  obtain ⟨hle, hout, -, hok, hcur⟩ := hbusy hst
  have hlast : p.row = p.rows := by omega
  have hnoError : p.err = .noError := by simpa [hst] using herr
  exact ⟨by simp [pdComplete, hnoError], fun _ => ⟨hout.trans hlast, hcur hlast, hok⟩,
    fun hst => absurd hst (by simp [pdComplete]), fun k hk => absurd (hcmd.symm.trans hk) (by simp)⟩

/-- The row end counts the row it emits (R213). -/
theorem endRow_pdInv (h : pdInv p) (hen : commandEnabled p = true) : pdInv (endRow p) := by
  obtain ⟨hst, hrow, hcmd⟩ := (commandEnabled_iff p).mp hen
  obtain ⟨herr, -, hbusy, -⟩ := h
  obtain ⟨-, hout, hpos, ⟨hcur, hrows⟩, -⟩ := hbusy hst
  refine ⟨herr, fun hdone => absurd (hst.symm.trans hdone) (by simp), fun _ => ?_,
    fun k hk => absurd (hcmd.symm.trans hk) (by simp)⟩
  refine ⟨hrow, by simp [endRow, hout], hpos, ⟨by simp [endRow], fun row hmem => ?_⟩, fun _ => rfl⟩
  rcases List.mem_append.mp hmem with hmem | hmem
  · exact hrows row hmem
  · rw [List.mem_singleton.mp hmem]; exact hcur

/-- The invariant says nothing of the ChannelState records, and of POS only its bound. -/
theorem samePattern.pdInv (hsame : samePattern p p') (h : pdInv p) : pdInv p' := by
  obtain ⟨hrows, -, hrow, hcur, hout, hst, herr, hcmd, -, hpos⟩ := hsame
  obtain ⟨hfault, hdone, hbusy, hprogress⟩ := h
  unfold Machine.pdInv rowsOk
  rw [hst, herr, hrows, hrow, hcur, hout, hcmd]
  refine ⟨hfault, hdone, fun hst => ?_, hprogress⟩
  obtain ⟨hle, hlen, hin, hok⟩ := hbusy hst
  exact ⟨hle, hlen, hpos hin, hok⟩

theorem samePattern.inRow (hsame : samePattern p p') (hst : p.st = .busy)
    (hrow : p.row < p.rows) : p'.st = .busy ∧ p'.row < p'.rows := by
  obtain ⟨hrows', -, hrow', -, -, hst', -⟩ := hsame
  exact ⟨hst'.trans hst, by rwa [hrows', hrow']⟩

/-- A command in progress stands inside a row (R212). -/
theorem pdInv.cmd_inRow (h : pdInv p) (hcmd : p.cmd = some k) :
    p.st = .busy ∧ p.row < p.rows ∧ cmdOk k := by
  obtain ⟨-, -, -, hprogress⟩ := h
  exact hprogress k hcmd

/-- A command opened or moved on inside a row. -/
theorem pdInv.setCmd (h : pdInv p) (hst : p.st = .busy) (hrow : p.row < p.rows) (hk : cmdOk k) :
    pdInv { p with cmd := some k } := by
  obtain ⟨hfault, hdone, hbusy, -⟩ := h
  refine ⟨hfault, hdone, hbusy, fun k' hk' => ?_⟩
  obtain rfl : k = k' := by simpa using hk'
  exact ⟨hst, hrow, hk⟩

/-- The end of a command adds its entry to the row under construction (R222). -/
theorem closeCommand_pdInv (h : pdInv p) (hst : p.st = .busy) (hrow : p.row < p.rows)
    (hk : cmdOk k) : pdInv (closeCommand k p) := by
  obtain ⟨hfault, -, hbusy, -⟩ := h
  obtain ⟨hle, hout, hpos, ⟨hcur, hrows⟩, -⟩ := hbusy hst
  refine ⟨hfault, fun hdone => absurd (hst.symm.trans hdone) (by simp), fun _ => ?_,
    fun k' hk' => absurd hk' (by simp)⟩
  refine ⟨hle, hout, hpos, ⟨fun e he => ?_, hrows⟩, fun hlast => absurd hlast (Nat.ne_of_lt hrow)⟩
  simp only [closeCommand] at he
  split at he
  · rcases List.mem_append.mp he with he | he
    · exact hcur e he
    · rw [List.mem_singleton.mp he]; exact hk.1
  · exact hcur e he

/-- A whole command keeps what its parts keep (R214). -/
theorem selectCommand_pdInv {b : Byte} {q : Pd} (h : selectCommand m b p = some q) (hp : pdInv p)
    (hen : commandEnabled p = true) : pdInv q := by
  obtain ⟨hst, hrow, -⟩ := (commandEnabled_iff p).mp hen
  obtain ⟨k, p0, k1, p1, k2, p2, k3, p3, k4, p4, hopen, hnote, hins, hvol, heff, rfl⟩ :=
    selectCommand_eq_some h
  have hsame : samePattern p p4 :=
    samePattern_trans (openCommand_samePattern hopen) <|
    samePattern_trans (fieldNote_samePattern hnote) <|
    samePattern_trans (fieldIns_samePattern hins) <|
    samePattern_trans (fieldVol_samePattern hvol) (fieldEff_samePattern heff)
  have hk : cmdOk k4 := (fieldEff_done heff).cmdOk <| (fieldVol_done hvol).cmdOk <|
    (fieldIns_done hins).cmdOk <| (fieldNote_done hnote).cmdOk <| openCommand_cmdOk hopen
  obtain ⟨hst4, hrow4⟩ := hsame.inRow hst hrow
  exact closeCommand_pdInv (hsame.pdInv hp) hst4 hrow4 hk

end

section
variable {s t : State}

theorem pdOutcome_pdInv {o : Option Pd} (h : pdOutcome s o = .next t)
    (ho : ∀ p, o = some p → pdInv p) : pdInv t.pd := by
  rcases pdOutcome_cases s t o h with ⟨p, hp, rfl⟩ | ⟨-, rfl⟩
  · exact ho p hp
  · exact pdInv_of_failed rfl (by simp) rfl

/-- A field sub-operation keeps the invariant if it moves POS and the records only, and leaves a
command with a legal entry. -/
theorem fieldStep_pdInv {x : Slot} {op : Memory → PdCmd → Pd → Option (PdCmd × Pd)} {m : Byte}
    (h : fieldStep x op m s = .next t) (hs : pdInv s.pd)
    (hop : ∀ k k' p', op s.psrc k s.pd = some (k', p') →
      samePattern s.pd p' ∧ fieldDone x k k') : pdInv t.pd := by
  obtain ⟨k, hcmd, -, -, -, -, ⟨k', p', hopk, rfl⟩ | ⟨-, rfl⟩⟩ := fieldStep_cases h
  · obtain ⟨hst, hrow, hk⟩ := hs.cmd_inRow hcmd
    obtain ⟨hsame, hdone⟩ := hop k k' p' hopk
    obtain ⟨hst', hrow'⟩ := hsame.inRow hst hrow
    exact (hsame.pdInv hs).setCmd hst' hrow' (hdone.cmdOk hk)
  · exact pdInv_of_failed rfl (by simp) rfl

end

end Sys2Proof.Machine
end

section
/-! Every step keeps the invariant of the machine (10_state.md R24 to R41). -/

namespace Sys2Proof.Machine

section
variable {s t : State}

/-! ### A step of one unit keeps what the invariant says of the others -/

theorem Inv.of_changesOnlyBr0 (hmem : memInv s) (hsc : scInv s.ssrc s.params s.sc)
    (hpd : pdInv s.pd) (h : changesOnlyBr0 s t) (hbr : brInv s.bsrc t.br0) (hbase : t.br0.base = 0) :
    Inv t := by
  rw [h]
  exact ⟨hmem, hbr, hbase, hsc, hpd⟩

theorem Inv.of_changesOnlySc (hs : Inv s) (h : changesOnlySc s t)
    (hsc : scInv t.ssrc t.params t.sc) : Inv t := by
  obtain ⟨hmem, hbr, hbase, -, hpd⟩ := hs
  rw [h] at hsc ⊢
  exact ⟨hmem, hbr, hbase, hsc, hpd⟩

theorem Inv.of_changesOnlyPd (hs : Inv s) (h : changesOnlyPd s t) (hpd : pdInv t.pd) : Inv t := by
  obtain ⟨hmem, hbr, hbase, hsc, -⟩ := hs
  rw [h]
  exact ⟨hmem, hbr, hbase, hsc, hpd⟩

/-! ### Every instruction -/

/-- BR.OPEN makes BR0's part of the invariant hold, whatever BR0 was (10_state.md R28). -/
theorem execBrOpen_inv {len : Nat} (hmem : memInv s) (hsc : scInv s.ssrc s.params s.sc)
    (hpd : pdInv s.pd) (h : execBrOpen len s = .next t) : Inv t := by
  have hframe := execBrOpen_changesOnlyBr0 h
  cases h
  exact .of_changesOnlyBr0 hmem hsc hpd hframe
    ⟨fun _ => openBr_readyInv s.bsrc _ 0 len, by simp⟩ rfl

theorem execBrRead_inv {w : Word} (hs : Inv s) (h : execBrRead w s = .next t) : Inv t := by
  have hframe := execBrRead_changesOnlyBr0 h
  obtain ⟨hmem, ⟨hready, hdead⟩, hbase, hsc, hpd⟩ := id hs
  rcases execBrRead_cases h with ⟨-, rfl⟩ | ⟨hst, ⟨k, hread, rfl⟩ | ⟨r, hread, rfl⟩⟩
  · exact hs
  · refine .of_changesOnlyBr0 hmem hsc hpd hframe ⟨by simp, ?_⟩ hbase
    rcases readBr_error hread with rfl | rfl <;> simp
  · obtain ⟨hst', herr', hbase', -⟩ := readBr_sameBinding hread
    refine .of_changesOnlyBr0 hmem hsc hpd hframe ⟨fun _ => ?_, ?_⟩ (hbase'.trans hbase)
    · exact (readBr_readyInv hread (hready hst)).1
    · rw [State.setBr0_br0, hst', herr']; exact hdead

/-- Every instruction keeps the invariant: its unit keeps its own part, and the frame the rest. -/
theorem exec_inv {i : Instr} (hs : Inv s) (h : exec i s = .next t) : Inv t := by
  have hframe := exec_changesOnlyUnitOf h
  obtain ⟨hmem, -, -, hsc, hpd⟩ := id hs
  cases i with
  | brOpen len => exact execBrOpen_inv hmem hsc hpd h
  | brRead w => exact execBrRead_inv hs h
  | scDecode n d o k =>
      obtain ⟨-, ⟨⟩⟩ := notBusy_of_next h
      exact hs.of_changesOnlySc hframe (startSc_scInv n d o k)
  | scChunk len => exact hs.of_changesOnlySc hframe (execScChunk_scInv h hsc)
  | scAEsc w => exact hs.of_changesOnlySc hframe (execScAEsc_scInv h hsc)
  | scBEsc w v =>
      obtain ⟨-, ⟨⟩⟩ := enabled_of_next h
      exact hs.of_changesOnlySc hframe (setWidth_scInv hsc (one_le_changeWidth _ _))
  | scCSetw w v =>
      obtain ⟨-, ⟨⟩⟩ := enabled_of_next h
      exact hs.of_changesOnlySc hframe (setWidth_scInv hsc (Nat.succ_pos _))
  | scADelta w v | scBDelta w v | scCDelta w v =>
      obtain ⟨hen, ⟨⟩⟩ := enabled_of_next h
      simp only [Bool.and_eq_true, and_assoc] at hen
      exact hs.of_changesOnlySc hframe (writeSample_scInv_of_enabled hsc hen.1)
  | pdDecode r k =>
      obtain ⟨-, ⟨⟩⟩ := notBusy_of_next h
      exact hs.of_changesOnlyPd hframe (startPd_pdInv r k)
  | pdEnd =>
      obtain ⟨hen, ⟨⟩⟩ := enabled_of_next h
      exact hs.of_changesOnlyPd hframe (endRow_pdInv hpd hen)
  | pdSelm b | pdSel b =>
      obtain ⟨hen, hout⟩ := enabled_of_next h
      simp only [Bool.and_eq_true, and_assoc] at hen
      exact hs.of_changesOnlyPd hframe
        (pdOutcome_pdInv hout fun p hp => selectCommand_pdInv hp hpd hen.1)
  | pdFNote m =>
      exact hs.of_changesOnlyPd hframe <| fieldStep_pdInv h hpd fun _ _ _ hop =>
        ⟨fieldNote_samePattern hop, fieldNote_done hop⟩
  | pdFIns m =>
      exact hs.of_changesOnlyPd hframe <| fieldStep_pdInv h hpd fun _ _ _ hop =>
        ⟨fieldIns_samePattern hop, fieldIns_done hop⟩
  | pdFVol m =>
      exact hs.of_changesOnlyPd hframe <| fieldStep_pdInv h hpd fun _ _ _ hop =>
        ⟨fieldVol_samePattern hop, fieldVol_done hop⟩
  | pdFEff m =>
      exact hs.of_changesOnlyPd hframe <| fieldStep_pdInv h hpd fun _ _ _ hop =>
        ⟨fieldEff_samePattern hop, fieldEff_done hop⟩

/-! ### Every turn -/

/-- A fetch that keeps the invariant, up to the state its instruction runs in, keeps it to the end
of the step. -/
theorem runFetched_fetchedOf_inv {d : Except Reject Instr} (hs : Inv s)
    (h : runFetched (fetchedOf d s) = .next t) : Inv t := by
  rcases runFetched_next h with ⟨i, s', hfetch, hexec⟩ | hsilent
  · obtain ⟨-, rfl⟩ := fetchedOf_instr hfetch
    exact exec_inv hs hexec
  · exact absurd hsilent (fetchedOf_silent d s t)

theorem Inv.raise_sc (hs : Inv s) {k : ErrKind} (hk : k ≠ .noError) : Inv (raise .sc k s) :=
  hs.of_changesOnlySc (raise_sc_changesOnlySc k s) (scInv_of_failed rfl hk)

theorem Inv.raise_scBr (hs : Inv s) {k : ErrKind} (hk : k ≠ .noError) : Inv (raise .scBr k s) :=
  hs.of_changesOnlySc (raise_scBr_changesOnlySc k s) (scInv_of_failed rfl hk)

theorem Inv.raise_pd (hs : Inv s) {k : ErrKind} (hk : k ≠ .noError) : Inv (raise .pd k s) :=
  hs.of_changesOnlyPd (raise_pd_changesOnlyPd k s) (pdInv_of_failed rfl hk rfl)

theorem Inv.setPd (hs : Inv s) {p : Pd} (hp : pdInv p) : Inv (s.setPd p) :=
  hs.of_changesOnlyPd (setPd_changesOnlyPd s p) hp

theorem fetchSymbol_inv (hs : Inv s) (h : runFetched (fetchSymbol s) = .next t) : Inv t := by
  obtain ⟨-, -, -, hsc, -⟩ := id hs
  rcases fetchSymbol_cases s with ⟨-, hf⟩ | ⟨-, ⟨k, hread, hf⟩ | ⟨r, hread, hf⟩⟩ <;> rw [hf] at h
  · cases h; exact hs.raise_sc (by simp)
  · cases h
    exact hs.raise_scBr (by rcases readBr_error hread with rfl | rfl <;> simp)
  · have hread' : Inv (s.setSc { s.sc with br := r }) :=
      hs.of_changesOnlySc (setSc_changesOnlySc s _) (hsc.setBr hread)
    exact runFetched_fetchedOf_inv hread' h

theorem fetchChunk_inv (hs : Inv s) (h : runFetched (fetchChunk s) = .next t) : Inv t := by
  rcases fetchChunk_cases s with ⟨-, hf⟩ | ⟨-, hf⟩ <;> rw [hf] at h
  · cases h; exact hs.raise_sc (by simp)
  · rw [runFetched] at h; exact exec_inv hs h

theorem scTurn_inv (hs : Inv s) (h : scTurn s = .next t) : Inv t := by
  by_cases hst : s.sc.st = .busy
  · rw [scTurn_of_busy hst] at h
    rcases Nat.eq_zero_or_pos s.sc.blk with hblk | hblk
    · rcases Nat.eq_zero_or_pos s.sc.rem with hrem | hrem
      · rw [fetchSc_complete hblk hrem] at h
        cases h
        obtain ⟨-, -, -, hsc, -⟩ := id hs
        exact hs.of_changesOnlySc (setSc_changesOnlySc s _) (scComplete_scInv hsc hst hrem)
      · exact fetchChunk_inv hs (fetchSc_chunk hblk hrem ▸ h)
    · exact fetchSymbol_inv hs (fetchSc_symbol hblk ▸ h)
  · rw [scTurn_of_not_busy hst] at h
    cases h
    exact hs

theorem fetchSelect_inv (hs : Inv s) (h : runFetched (fetchSelect s) = .next t) : Inv t := by
  obtain ⟨-, -, -, -, hpd⟩ := id hs
  rcases fetchSelect_cases s with ⟨-, hf⟩ | ⟨hpos, hf⟩ <;> rw [hf] at h
  · cases h; exact hs.raise_pd (by simp)
  · have hbyte := nextByte_samePattern (nextByte_eq_some.mpr ⟨hpos, rfl, rfl⟩ :
      nextByte s.psrc s.pd = some (_, { s.pd with pos := s.pd.pos + 1 }))
    exact exec_inv (hs.setPd (hbyte.pdInv hpd)) h

/-- PD's next step while BUSY: a field or the end of the command in progress, a row's next command,
or completion (R212). -/
theorem fetchPd_inv (hs : Inv s) (hst : s.pd.st = .busy) (h : runFetched (fetchPd s) = .next t) :
    Inv t := by
  obtain ⟨-, -, -, -, hpd⟩ := id hs
  unfold fetchPd at h
  split at h
  · next k hcmd =>
      split at h
      · exact runFetched_fetchedOf_inv hs h
      · cases h
        obtain ⟨-, hrow, hk⟩ := hpd.cmd_inRow hcmd
        exact hs.setPd (closeCommand_pdInv hpd hst hrow hk)
  · next hcmd =>
      split at h
      · exact fetchSelect_inv hs h
      · next hrow =>
          cases h
          exact hs.setPd (pdComplete_pdInv hpd hst hrow hcmd)

theorem pdTurn_inv (hs : Inv s) (h : pdTurn s = .next t) : Inv t := by
  unfold pdTurn at h
  split at h
  · next hst => exact fetchPd_inv hs ((isBusy_iff _).mp hst) h
  · cases h; exact hs

/-- PD's turn in the finer view opens a command inside a row (R212). -/
theorem fetchBegin_inv (hs : Inv s) (hst : s.pd.st = .busy)
    (h : runFetched (fetchBegin s) = .next t) : Inv t := by
  obtain ⟨-, -, -, -, hpd⟩ := id hs
  unfold fetchBegin at h
  split at h
  · next hen =>
      obtain ⟨-, hrow, -⟩ := (commandEnabled_iff _).mp hen
      split at h
      · cases h; exact hs.raise_pd (by simp)
      · next b p hbyte =>
          have hsame := nextByte_samePattern hbyte
          split at h
          · exact runFetched_fetchedOf_inv (hs.setPd (hsame.pdInv hpd)) h
          · split at h
            · cases h; exact hs.raise_pd (by simp)
            · next k p' hopen =>
                cases h
                have hsame' := samePattern_trans hsame (openCommand_samePattern hopen)
                obtain ⟨hst', hrow'⟩ := hsame'.inRow hst hrow
                exact hs.setPd ((hsame'.pdInv hpd).setCmd hst' hrow' (openCommand_cmdOk hopen))
  · exact fetchPd_inv hs hst h

theorem pdBeginTurn_inv (hs : Inv s) (h : pdBeginTurn s = .next t) : Inv t := by
  unfold pdBeginTurn at h
  split at h
  · next hst => exact fetchBegin_inv hs ((isBusy_iff _).mp hst) h
  · cases h; exact hs

/-- A host's turn that answers places its bytes and runs its command. -/
theorem hostTurn_next {m : HostMove} (h : hostTurn m s = .next t) :
    ∃ s' i, placeSource m s = .ok s' ∧ decodeCommand m.command = .ok i ∧ exec i s' = .next t := by
  unfold hostTurn fetchHost at h
  split at h
  · exact absurd h (by simp [runFetched])
  · next s' hplace =>
      rcases runFetched_next h with ⟨i, s'', hfetch, hexec⟩ | hsilent
      · obtain ⟨hdecode, rfl⟩ := fetchedOf_instr hfetch
        exact ⟨s'', i, hplace, hdecode, hexec⟩
      · exact absurd hsilent (fetchedOf_silent _ _ _)

theorem decodeCommand_brOpen {c : Transaction} {i : Instr} (hname : c.name = .brOpen)
    (h : decodeCommand c = .ok i) : ∃ len, i = .brOpen len := by
  unfold decodeCommand at h
  split at h
  case h_1 n _ _ =>
    unfold natOperand at h
    split at h <;> cases h
    exact ⟨_, rfl⟩
  case h_5 => cases h
  all_goals next hname' _ => cases hname.symm.trans hname'

/-- Between the placing of BSRC and the BR.OPEN it comes with, BR0 has no invariant; the command
re-opens BR0 (70_reset_and_hazards.md R302). The other two units are not BUSY when their source
changes. -/
theorem hostTurn_inv {m : HostMove} (hs : Inv s) (h : hostTurn m s = .next t) : Inv t := by
  obtain ⟨s', i, hplace, hdecode, hexec⟩ := hostTurn_next h
  obtain ⟨⟨hbsrc, hssrc, hpsrc⟩, hbr, hbase, hsc, hpd⟩ := id hs
  rcases placeSource_ok hplace with
    rfl | ⟨bytes, -, ⟨hname, rfl⟩ | ⟨-, hst, rfl⟩ | ⟨-, -, rfl⟩⟩
  · exact exec_inv hs hexec
  · obtain ⟨len, rfl⟩ := decodeCommand_brOpen hname hdecode
    have hmem : memInv { s with bsrc := loadBytes [] 0 bytes } :=
      ⟨loadBytes_wf 0 bytes wf_nil, hssrc, hpsrc⟩
    exact execBrOpen_inv hmem hsc hpd hexec
  · have hs' : Inv { s with ssrc := loadBytes [] 0 bytes } :=
      ⟨⟨hbsrc, loadBytes_wf 0 bytes wf_nil, hpsrc⟩, hbr, hbase, hsc.of_not_busy hst, hpd⟩
    exact exec_inv hs' hexec
  · have hs' : Inv { s with psrc := loadBytes [] 0 bytes } :=
      ⟨⟨hbsrc, hssrc, loadBytes_wf 0 bytes wf_nil⟩, hbr, hbase, hsc, hpd⟩
    exact exec_inv hs' hexec

end

/-- The invariant says nothing of the turns to come. -/
theorem Inv.setAgenda {s : State} (hs : Inv s) (l : List Turn) : Inv (s.setAgenda l) := hs

/-- Settles O54: each agent's turn keeps the invariant. -/
theorem everyStepKeepsTheInvariant : Obligations.EveryStepKeepsTheInvariant := by
  intro s t hs h
  unfold step at h
  split at h
  · next m l _ => exact hostTurn_inv (hs.setAgenda l) h
  · next l _ => exact scTurn_inv (hs.setAgenda l) h
  · next l _ => exact pdTurn_inv (hs.setAgenda l) h
  · next l _ => exact pdBeginTurn_inv (hs.setAgenda l) h
  · next l _ =>
      split at h
      · exact scTurn_inv hs h
      · split at h
        · exact pdTurn_inv hs h
        · cases h; exact hs.setAgenda l
  · split at h
    · exact scTurn_inv hs h
    · split at h
      · exact pdTurn_inv hs h
      · cases h; exact hs

end Sys2Proof.Machine
end

section
/-! Reset, the start of a pattern, and which instruction a step runs (10_state.md R20, R45, R48). -/

namespace Sys2Proof.Machine

/-! ### Reset and PD.DECODE -/

/-- The 64 records of a fresh PD are zero, at reset as after PD.DECODE. -/
theorem chan_of_fresh {p : Pd} (h : p.ch = Vector.replicate 64 {}) (c : BitVec 6) :
    p.chan c = {} := by
  simp [Pd.chan, h]

/-- Settles O52: every register but the ChannelState records is a field of `State.reset`, and the
records are fresh. -/
theorem resetLeavesTheUnitsIdle : Obligations.ResetLeavesTheUnitsIdle := by
  repeat apply And.intro rfl
  exact chan_of_fresh rfl

/-- Settles O53: no unit is READY, BUSY, DONE or failed at reset, so of each only ERR is spoken of. -/
theorem resetMeetsTheInvariant : Obligations.ResetMeetsTheInvariant := by
  have hmem : memInv State.reset := ⟨rfl, rfl, rfl⟩
  have hbr : brInv State.reset.bsrc State.reset.br0 := by simp [brInv, State.reset]
  have hsc : scInv State.reset.ssrc State.reset.params State.reset.sc := by
    simp [scInv, State.reset]
  have hpd : pdInv State.reset.pd := by simp [pdInv, State.reset]
  exact ⟨hmem, hbr, rfl, hsc, hpd⟩

/-- Settles O32: PD.DECODE on a PD that is not BUSY replaces PD, and nothing else, by a fresh one. -/
theorem pdDecodeStartsAFreshPattern : Obligations.PdDecodeStartsAFreshPattern := by
  intro rows srclen s hst
  have hexec : exec (.pdDecode rows srclen) s = .next (s.setPd (startPd rows srclen)) :=
    if_neg fun hb => hst ((isBusy_iff _).mp hb)
  exact ⟨_, hexec, rfl, rfl, rfl, rfl, rfl, chan_of_fresh rfl, rfl, rfl, rfl, rfl⟩

/-! ### The turn a step takes -/

section
variable {s : State} {l : List Turn}

theorem step_host {m : HostMove} (h : s.agenda = .host m :: l) :
    step s = hostTurn m (s.setAgenda l) := by
  simp only [step, h]

theorem step_sc (h : s.agenda = .sc :: l) : step s = scTurn (s.setAgenda l) := by
  simp only [step, h]

theorem step_pd (h : s.agenda = .pd :: l) : step s = pdTurn (s.setAgenda l) := by
  simp only [step, h]

theorem step_nil (h : s.agenda = []) :
    step s = if s.sc.st.isBusy then scTurn s else if s.pd.st.isBusy then pdTurn s else .next s := by
  simp only [step, h]

theorem pdTurn_of_busy (h : s.pd.st = .busy) : pdTurn s = runFetched (fetchPd s) :=
  if_pos ((isBusy_iff _).mpr h)

/-- A fetch that decodes runs its instruction. -/
theorem runFetched_fetchedOf {d : Except Reject Instr} {i : Instr} (h : d = .ok i) (s : State) :
    runFetched (fetchedOf d s) = exec i s := by
  rw [h]; rfl

/-- A symbol of a legal width, its bits read: what it decodes to runs past them (R166, R168). -/
theorem scTurn_symbol {i : Instr} {r : Br} (hst : s.sc.st = .busy) (hblk : 0 < s.sc.blk)
    (hw : s.sc.w.toNat ≤ s.params.defaultWidth)
    (hread : readBr s.ssrc s.sc.w.toNat s.sc.br = .ok r)
    (hdecode : decode s.params (.sym s.sc.w.toNat r.res.toNat) = .ok i) :
    scTurn s = exec i (s.setSc { s.sc with br := r }) := by
  rw [scTurn_of_busy hst, fetchSc_symbol hblk, fetchSymbol, if_neg (Nat.not_lt.mpr hw), hread]
  exact runFetched_fetchedOf hdecode _

theorem scTurn_header {i : Instr} (hst : s.sc.st = .busy) (hblk : s.sc.blk = 0)
    (hrem : 0 < s.sc.rem) (hin : s.sc.spos + 2 ≤ s.sc.srclen)
    (hdecode : decode s.params
      (.chunk (readByte s.ssrc s.sc.spos) (readByte s.ssrc (s.sc.spos + 1))) = .ok i) :
    scTurn s = exec i s := by
  rw [scTurn_of_busy hst, fetchSc_chunk hblk hrem, fetchChunk, if_neg (Nat.not_lt.mpr hin)]
  exact runFetched_fetchedOf hdecode s

/-- A select byte inside the length is consumed before its meaning runs (R210). -/
theorem pdTurn_select {i : Instr} (hst : s.pd.st = .busy) (hcmd : s.pd.cmd = none)
    (hrow : s.pd.row < s.pd.rows) (hpos : s.pd.pos < s.pd.srclen)
    (hdecode : decode s.params (.sel (readByte s.psrc s.pd.pos)) = .ok i) :
    pdTurn s = exec i (s.setPd { s.pd with pos := s.pd.pos + 1 }) := by
  have hfetch : fetchPd s = fetchSelect s := by simp only [fetchPd, hcmd, if_pos hrow]
  rw [pdTurn_of_busy hst, hfetch, fetchSelect, nextByte_eq_some.mpr ⟨hpos, rfl, rfl⟩]
  exact runFetched_fetchedOf hdecode _

theorem pdTurn_field {i : Instr} {k : PdCmd} {x : Slot} {xs : List Slot} (hst : s.pd.st = .busy)
    (hcmd : s.pd.cmd = some k) (htodo : k.todo = x :: xs)
    (hdecode : decode s.params (.field x k.mask) = .ok i) : pdTurn s = exec i s := by
  have hfetch : fetchPd s = fetchedOf (decode s.params (.field x k.mask)) s := by
    simp only [fetchPd, hcmd, htodo]
  rw [pdTurn_of_busy hst, hfetch]
  exact runFetched_fetchedOf hdecode s

theorem hostTurn_decoded {m : HostMove} {s' : State} {i : Instr} (hplace : placeSource m s = .ok s')
    (hdecode : decode s'.params (.cmd m.command) = .ok i) : hostTurn m s = exec i s' := by
  rw [hostTurn, fetchHost, hplace]
  exact runFetched_fetchedOf hdecode s'

end

/-- Settles O46: the turn is taken from the agenda, and each kind of fetch runs what it decodes. -/
theorem stepRunsTheDecodedInstruction : Obligations.StepRunsTheDecodedInstruction := by
  intro s l i
  refine ⟨fun m s' hl hplace hdecode => ?host, fun r hl hst hblk hw hread hdecode => ?symbol,
    fun hl hst hblk hrem hin hdecode => ?chunk,
    fun hl hst hcmd hrow hpos hdecode => ?select,
    fun k x xs hl hst hcmd htodo hdecode => ?field⟩
  case host => exact (step_host hl).trans (hostTurn_decoded hplace hdecode)
  case symbol => exact (step_sc hl).trans (scTurn_symbol hst hblk hw hread hdecode)
  case chunk => exact (step_sc hl).trans (scTurn_header hst hblk hrem hin hdecode)
  case select => exact (step_pd hl).trans (pdTurn_select hst hcmd hrow hpos hdecode)
  case field => exact (step_pd hl).trans (pdTurn_field hst hcmd htodo hdecode)

/-- Settles O47: the three branches of a step with no turn to come. -/
theorem emptyAgendaRunsBusyUnitsOrIdles : Obligations.EmptyAgendaRunsBusyUnitsOrIdles := by
  intro s hl
  rw [step_nil hl]
  simp only [isBusy_iff]
  exact ⟨fun hsc => if_pos hsc, fun hsc hpd => by rw [if_neg hsc, if_pos hpd],
    fun hsc hpd => by rw [if_neg hsc, if_neg hpd]⟩

end Sys2Proof.Machine
end

section
/-! The source spaces (20_memory.md R62, R74, R77): a unit's turn leaves them as they are, the
host's turn places the bytes the command's unit then reads. -/

namespace Sys2Proof.Machine

/-- A byte of a freshly placed space. -/
theorem readByte_placed {bytes : List Byte} {i : Nat} (h : i < bytes.length) :
    readByte (loadBytes [] 0 bytes) i = bytes[i] := by
  have hin : 0 ≤ i ∧ i < 0 + bytes.length := by omega
  rw [readByte_loadBytes 0 i bytes wf_nil, if_pos hin, Nat.sub_zero, List.getD_eq_getElem _ _ h]

/-! ### A unit's turn -/

section
variable {s t : State} {f : Fetched}

theorem keepsSurroundings_trans {u : State} (h : keepsSurroundings s t)
    (h' : keepsSurroundings t u) : keepsSurroundings s u := by
  obtain ⟨hbsrc, hssrc, hpsrc, hbiases, hagenda⟩ := h
  obtain ⟨hbsrc', hssrc', hpsrc', hbiases', hagenda'⟩ := h'
  exact ⟨hbsrc'.trans hbsrc, hssrc'.trans hssrc, hpsrc'.trans hpsrc, hbiases'.trans hbiases,
    hagenda'.trans hagenda⟩

theorem keepsSurroundings_rfl (s : State) : keepsSurroundings s s := ⟨rfl, rfl, rfl, rfl, rfl⟩

/-- The state a fetch leaves, for its instruction to run in or as the whole step, has the
surroundings of `s`. -/
def Fetched.keeps (s : State) : Fetched → Prop
  | .instr _ s' => keepsSurroundings s s'
  | .silent s' => keepsSurroundings s s'
  | .rejected _ => True

theorem fetchedOf_keeps (d : Except Reject Instr) (h : keepsSurroundings s t) :
    (fetchedOf d t).keeps s := by
  cases d with
  | ok i => exact h
  | error e => trivial

theorem runFetched_keepsSurroundings (hf : f.keeps s) (h : runFetched f = .next t) :
    keepsSurroundings s t := by
  rcases runFetched_next h with ⟨i, s', rfl, hexec⟩ | rfl
  · exact keepsSurroundings_trans hf (exec_keepsSurroundings hexec)
  · exact hf

theorem fetchSc_keeps (s : State) : (fetchSc s).keeps s := by
  rcases Nat.eq_zero_or_pos s.sc.blk with hblk | hblk
  · rcases Nat.eq_zero_or_pos s.sc.rem with hrem | hrem
    · rw [fetchSc_complete hblk hrem]
      exact (setSc_changesOnlySc s _).surroundings
    · rw [fetchSc_chunk hblk hrem]
      rcases fetchChunk_cases s with ⟨-, hf⟩ | ⟨-, hf⟩ <;> rw [hf]
      · exact (raise_sc_changesOnlySc _ s).surroundings
      · exact keepsSurroundings_rfl s
  · rw [fetchSc_symbol hblk]
    rcases fetchSymbol_cases s with ⟨-, hf⟩ | ⟨-, ⟨k, -, hf⟩ | ⟨r, -, hf⟩⟩ <;> rw [hf]
    · exact (raise_sc_changesOnlySc _ s).surroundings
    · exact (raise_scBr_changesOnlySc k s).surroundings
    · exact fetchedOf_keeps _ (setSc_changesOnlySc s _).surroundings

theorem setPd_keepsSurroundings (s : State) (p : Pd) : keepsSurroundings s (s.setPd p) :=
  (setPd_changesOnlyPd s p).surroundings

theorem raise_pd_keepsSurroundings (k : ErrKind) (s : State) :
    keepsSurroundings s (raise .pd k s) := (raise_pd_changesOnlyPd k s).surroundings

theorem fetchPd_keeps (s : State) : (fetchPd s).keeps s := by
  unfold fetchPd
  split
  · split
    · exact fetchedOf_keeps _ (keepsSurroundings_rfl s)
    · exact setPd_keepsSurroundings s _
  · split
    · rcases fetchSelect_cases s with ⟨-, hf⟩ | ⟨-, hf⟩ <;> rw [hf]
      · exact raise_pd_keepsSurroundings _ s
      · exact setPd_keepsSurroundings s _
    · exact setPd_keepsSurroundings s _

theorem fetchBegin_keeps (s : State) : (fetchBegin s).keeps s := by
  unfold fetchBegin
  split
  · split
    · exact raise_pd_keepsSurroundings _ s
    · split
      · exact fetchedOf_keeps _ (setPd_keepsSurroundings s _)
      · split
        · exact raise_pd_keepsSurroundings _ s
        · exact setPd_keepsSurroundings s _
  · exact fetchPd_keeps s

/-- A unit takes its turn while BUSY and lets it pass otherwise. -/
theorem busyTurn_keepsSurroundings {b : Bool} (hf : f.keeps s)
    (h : (if b then runFetched f else .next s) = .next t) : keepsSurroundings s t := by
  split at h
  · exact runFetched_keepsSurroundings hf h
  · cases h; exact keepsSurroundings_rfl s

theorem scTurn_keepsSurroundings (h : scTurn s = .next t) : keepsSurroundings s t :=
  busyTurn_keepsSurroundings (fetchSc_keeps s) h

theorem pdTurn_keepsSurroundings (h : pdTurn s = .next t) : keepsSurroundings s t :=
  busyTurn_keepsSurroundings (fetchPd_keeps s) h

theorem pdBeginTurn_keepsSurroundings (h : pdBeginTurn s = .next t) : keepsSurroundings s t :=
  busyTurn_keepsSurroundings (fetchBegin_keeps s) h

/-! ### The host's turn -/

/-- `t` follows `s` by a turn of a unit, or is `s`: what a step is, but for the agenda, where it is
not the host's. -/
def isUnitTurn (s t : State) : Prop :=
  scTurn s = .next t ∨ pdTurn s = .next t ∨ pdBeginTurn s = .next t ∨ s = t

theorem isUnitTurn.keepsSurroundings (h : isUnitTurn s t) : keepsSurroundings s t := by
  rcases h with h | h | h | rfl
  · exact scTurn_keepsSurroundings h
  · exact pdTurn_keepsSurroundings h
  · exact pdBeginTurn_keepsSurroundings h
  · exact keepsSurroundings_rfl s

/-- A `sync` turn and an empty agenda let a BUSY unit step, and with none only the agenda may
change. -/
theorem isUnitTurn_of_waiting {l : List Turn}
    (h : (if s.sc.st.isBusy then scTurn s else if s.pd.st.isBusy then pdTurn s
      else .next (s.setAgenda l)) = .next t) : ∃ l', isUnitTurn (s.setAgenda l') t := by
  split at h
  · exact ⟨s.agenda, .inl h⟩
  · split at h
    · exact ⟨s.agenda, .inr (.inl h)⟩
    · cases h; exact ⟨l, .inr (.inr (.inr rfl))⟩

/-- What a step can be: the host's turn or a unit's, the agenda changed. -/
theorem step_cases (h : step s = .next t) :
    (∃ m l, s.agenda = .host m :: l ∧ hostTurn m (s.setAgenda l) = .next t) ∨
    ∃ l, isUnitTurn (s.setAgenda l) t := by
  unfold step at h
  split at h
  · next m l hl => exact .inl ⟨m, l, hl, h⟩
  · next l _ => exact .inr ⟨l, .inl h⟩
  · next l _ => exact .inr ⟨l, .inr (.inl h)⟩
  · next l _ => exact .inr ⟨l, .inr (.inr (.inl h))⟩
  · exact .inr (isUnitTurn_of_waiting h)
  · exact .inr (isUnitTurn_of_waiting (l := s.agenda) h)

end

/-- Settles O49: a unit's turn leaves the spaces, and of the host's turn only the placement of its
bytes does not. -/
theorem onlyTheHostWritesSourceSpaces : Obligations.OnlyTheHostWritesSourceSpaces := by
  intro s t h
  rcases step_cases h with ⟨m, l, hl, hhost⟩ | ⟨l, hunit⟩
  · obtain ⟨s', i, hplace, -, hexec⟩ := hostTurn_next hhost
    obtain ⟨hbsrc, hssrc, hpsrc, hbiases, -⟩ := exec_keepsSurroundings hexec
    rcases placeSource_ok hplace with
      rfl | ⟨bytes, hm, ⟨hname, rfl⟩ | ⟨hname, hst, rfl⟩ | ⟨hname, hst, rfl⟩⟩
    · exact ⟨hbiases, .inl ⟨hbsrc, hssrc, hpsrc⟩⟩
    · exact ⟨hbiases, .inr ⟨m, l, bytes, hl, hm, .inl ⟨hname, hssrc, hpsrc, hbsrc,
        fun i hi => by rw [hbsrc]; exact readByte_placed hi⟩⟩⟩
    · exact ⟨hbiases, .inr ⟨m, l, bytes, hl, hm, .inr (.inl ⟨hname, hst, hbsrc, hpsrc, hssrc,
        fun i hi => by rw [hssrc]; exact readByte_placed hi⟩)⟩⟩
    · exact ⟨hbiases, .inr ⟨m, l, bytes, hl, hm, .inr (.inr ⟨hname, hst, hbsrc, hssrc, hpsrc,
        fun i hi => by rw [hpsrc]; exact readByte_placed hi⟩)⟩⟩
  · obtain ⟨hbsrc, hssrc, hpsrc, hbiases, -⟩ := hunit.keepsSurroundings
    exact ⟨hbiases, .inl ⟨hbsrc, hssrc, hpsrc⟩⟩

/-! ### The start commands with bytes -/

@[simp] theorem natOperand_natCast (n : Nat) : natOperand (n : Int) = .ok n :=
  if_pos (Int.natCast_nonneg n)

@[simp] theorem bitOperand_bitValue (b : Bool) : bitOperand (bitValue b) = .ok b := by
  cases b <;> rfl

/-- The decoder reads a start command back from the transaction that encodes it (R90). -/
theorem decodeCommand_encode_brOpen {len : Nat} {c : Transaction}
    (h : encode (.brOpen len) = .cmd c) :
    c.name = .brOpen ∧ decodeCommand c = .ok (.brOpen len) := by
  cases h
  exact ⟨rfl, by simp [decodeCommand, Except.map]⟩

theorem decodeCommand_encode_scDecode {n k : Nat} {d o : Bool} {c : Transaction}
    (h : encode (.scDecode n d o k) = .cmd c) :
    c.name = .scDecode ∧ decodeCommand c = .ok (.scDecode n d o k) := by
  cases h
  exact ⟨rfl, by simp [decodeCommand, Except.map, Except.bind]⟩

theorem decodeCommand_encode_pdDecode {r k : Nat} {c : Transaction}
    (h : encode (.pdDecode r k) = .cmd c) :
    c.name = .pdDecode ∧ decodeCommand c = .ok (.pdDecode r k) := by
  cases h
  exact ⟨rfl, by simp [decodeCommand, Except.map, Except.bind]⟩

section
variable {s : State} {bytes : List Byte} {c : Transaction}

theorem placeSource_brOpen (h : c.name = .brOpen) :
    placeSource { source := some bytes, command := c } s =
      .ok { s with bsrc := loadBytes [] 0 bytes } := by
  simp only [placeSource, h]

theorem placeSource_scDecode (h : c.name = .scDecode) (hst : s.sc.st ≠ .busy) :
    placeSource { source := some bytes, command := c } s =
      .ok { s with ssrc := loadBytes [] 0 bytes } := by
  simp only [placeSource, h, isBusy_iff, if_neg hst]

theorem placeSource_pdDecode (h : c.name = .pdDecode) (hst : s.pd.st ≠ .busy) :
    placeSource { source := some bytes, command := c } s =
      .ok { s with psrc := loadBytes [] 0 bytes } := by
  simp only [placeSource, h, isBusy_iff, if_neg hst]

theorem execPdDecode_of_not_busy (rows srclen : Nat) (h : s.pd.st ≠ .busy) :
    exec (.pdDecode rows srclen) s = .next (s.setPd (startPd rows srclen)) :=
  if_neg fun hb => h ((isBusy_iff _).mp hb)

/-- The host's turn with a start command: its bytes are the unit's space, and the unit starts on
them (70_reset_and_hazards.md R302). -/
theorem hostTurn_brOpen {len : Nat} (hc : encode (.brOpen len) = .cmd c) :
    hostTurn { source := some bytes, command := c } s =
      .next { s with bsrc := loadBytes [] 0 bytes, br0 := openBr (Config.freeBr s.free) 0 len,
                     free := s.free + 1 } := by
  obtain ⟨hname, hdecode⟩ := decodeCommand_encode_brOpen hc
  exact hostTurn_decoded (placeSource_brOpen hname) hdecode

theorem hostTurn_scDecode {n k : Nat} {d o : Bool} (hc : encode (.scDecode n d o k) = .cmd c)
    (hst : s.sc.st ≠ .busy) :
    hostTurn { source := some bytes, command := c } s =
      .next { s with ssrc := loadBytes [] 0 bytes, sc := startSc n d o k s.sc } := by
  obtain ⟨hname, hdecode⟩ := decodeCommand_encode_scDecode hc
  rw [hostTurn_decoded (placeSource_scDecode hname hst) hdecode]
  exact execScDecode_of_not_busy n d o k hst

theorem hostTurn_pdDecode {r k : Nat} (hc : encode (.pdDecode r k) = .cmd c)
    (hst : s.pd.st ≠ .busy) :
    hostTurn { source := some bytes, command := c } s =
      .next { s with psrc := loadBytes [] 0 bytes, pd := startPd r k } := by
  obtain ⟨hname, hdecode⟩ := decodeCommand_encode_pdDecode hc
  rw [hostTurn_decoded (placeSource_pdDecode hname hst) hdecode]
  exact execPdDecode_of_not_busy r k hst

end

/-- Settles O50: each start command starts its unit on the bytes placed, with the command's
operands. -/
theorem hostBytesAreWhatTheUnitReads : Obligations.HostBytesAreWhatTheUnitReads := by
  intro s bytes l c hl
  rw [step_host hl]
  refine ⟨fun len hc => ?brOpen, fun n d o k hc hst => ?scDecode, fun r k hc hst => ?pdDecode⟩
  case brOpen => exact ⟨_, hostTurn_brOpen hc, rfl, rfl, rfl, fun _ => readByte_placed⟩
  case scDecode => exact ⟨_, hostTurn_scDecode hc hst, rfl, rfl, rfl, fun _ => readByte_placed⟩
  case pdDecode => exact ⟨_, hostTurn_pdDecode hc hst, rfl, rfl, rfl, fun _ => readByte_placed⟩

end Sys2Proof.Machine
end

section
/-! A unit's step sees its own part of the state and the free value to come (20_memory.md R70, R74):
it commutes with putting that part into another machine. -/

namespace Sys2Proof.Machine

/-- The machine `e` with BR0, BSRC and the free value to come of `s`. -/
def State.br0Into (e s : State) : State :=
  { e with br0 := s.br0, bsrc := s.bsrc, free := s.free }

/-- The machine `e` with SC, SSRC, the open parameters and the free value to come of `s`. -/
def State.scInto (e s : State) : State :=
  { e with sc := s.sc, ssrc := s.ssrc, biases := s.biases, free := s.free }

/-- The machine `e` with PD, PSRC and the free value to come of `s`. -/
def State.pdInto (e s : State) : State :=
  { e with pd := s.pd, psrc := s.psrc, free := s.free }

section
variable (e s : State)

@[simp] theorem State.br0Into_br0 : (e.br0Into s).br0 = s.br0 := rfl
@[simp] theorem State.br0Into_bsrc : (e.br0Into s).bsrc = s.bsrc := rfl

@[simp] theorem State.scInto_sc : (e.scInto s).sc = s.sc := rfl
@[simp] theorem State.scInto_ssrc : (e.scInto s).ssrc = s.ssrc := rfl
@[simp] theorem State.scInto_params : (e.scInto s).params = s.params := rfl

@[simp] theorem State.pdInto_pd : (e.pdInto s).pd = s.pd := rfl
@[simp] theorem State.pdInto_psrc : (e.pdInto s).psrc = s.psrc := rfl

end

/-- Putting in a unit's part that a machine has already leaves the machine as it is. -/
theorem State.br0Into_eq {s s' : State} (hfree : s.free = s'.free) (hbr0 : s.br0 = s'.br0)
    (hbsrc : s.bsrc = s'.bsrc) : s'.br0Into s = s' := by
  rw [State.br0Into, hfree, hbr0, hbsrc]

theorem State.scInto_eq {s s' : State} (hfree : s.free = s'.free) (hsc : s.sc = s'.sc)
    (hssrc : s.ssrc = s'.ssrc) (hbiases : s.biases = s'.biases) : s'.scInto s = s' := by
  rw [State.scInto, hfree, hsc, hssrc, hbiases]

theorem State.pdInto_eq {s s' : State} (hfree : s.free = s'.free) (hpd : s.pd = s'.pd)
    (hpsrc : s.psrc = s'.psrc) : s'.pdInto s = s' := by
  rw [State.pdInto, hfree, hpd, hpsrc]

/-! ### Steps that do not see what is around their unit -/

/-- An outcome with its next state, if any, put through `g`. -/
def mapNext (g : State → State) :
    Host.Outcome State Fault Refusal → Host.Outcome State Fault Refusal
  | .next s => .next (g s)
  | .fault r => .fault r
  | .refused r => .refused r

/-- A step that neither sees nor changes what `g` changes. -/
def blindTo (g : State → State) (f : State → Host.Outcome State Fault Refusal) : Prop :=
  ∀ s, f (g s) = mapNext g (f s)

/-- What a turn fetches, its state put through `g`. -/
def Fetched.map (g : State → State) : Fetched → Fetched
  | .instr i s => .instr i (g s)
  | .silent s => .silent (g s)
  | .rejected r => .rejected r

section
variable {g : State → State} {f : State → Host.Outcome State Fault Refusal} {s s' t : State}

/-- Blind to what two machines differ in, a step that answers in one answers alike in the other. -/
theorem blindTo.next (hf : blindTo g f) (hs : g s = s') (h : f s = .next t) :
    f s' = .next (g t) := by
  rw [← hs, hf s, h]; rfl

/-- A branch taken alike on both sides. -/
theorem ite_eq_map {α : Type} {φ : α → α} {p p' : Prop} [Decidable p] [Decidable p']
    {x x' y y' : α} (hp : p' ↔ p) (hx : x' = φ x) (hy : y' = φ y) :
    (if p' then x' else y') = φ (if p then x else y) := by
  by_cases h : p
  · rw [if_pos h, if_pos (hp.mpr h), hx]
  · rw [if_neg h, if_neg (mt hp.mp h), hy]

theorem enabled_blindTo {c : State → Bool} (hc : ∀ s, c (g s) = c s) (hf : blindTo g f) :
    blindTo g fun s => if c s then f s else .fault .notEnabled :=
  fun s => ite_eq_map (by rw [hc s]) (hf s) rfl

theorem fetchedOf_map (g : State → State) (d : Except Reject Instr) (s : State) :
    fetchedOf d (g s) = (fetchedOf d s).map g := by
  cases d <;> rfl

/-- A unit's turn is blind to what its fetch and the instructions it can fetch are blind to. -/
theorem busyTurn_blindTo {st : State → UnitStatus} {fetch : State → Fetched}
    (hst : ∀ s, st (g s) = st s) (hfetch : ∀ s, fetch (g s) = (fetch s).map g)
    (hexec : ∀ s i s', fetch s = .instr i s' → blindTo g (exec i)) :
    blindTo g fun s => if (st s).isBusy then runFetched (fetch s) else .next s := by
  intro s
  refine ite_eq_map (by rw [hst s]) ?_ rfl
  rw [hfetch s]
  cases hx : fetch s with
  | instr i s' => exact hexec s i s' hx s'
  | silent s' => rfl
  | rejected r => rfl

end

section
variable {e s s' : State} {i : Instr}

/-! ### BR0 -/

theorem execBrOpen_blindTo (len : Nat) : blindTo e.br0Into (exec (.brOpen len)) := fun _ => rfl

theorem execBrRead_blindTo (w : Word) : blindTo e.br0Into (exec (.brRead w)) := by
  intro s
  show execBrRead w (e.br0Into s) = mapNext e.br0Into (execBrRead w s)
  simp only [execBrRead, State.br0Into_br0, State.br0Into_bsrc]
  split
  · rfl
  · rfl
  · split <;> rfl

/-! ### SC -/

theorem execScChunk_blindTo (len : BitVec 16) : blindTo e.scInto (exec (.scChunk len)) :=
  enabled_blindTo (fun _ => rfl) fun _ => ite_eq_map Iff.rfl rfl (ite_eq_map Iff.rfl rfl rfl)

theorem execScAEsc_blindTo (w : Nat) : blindTo e.scInto (exec (.scAEsc w)) := by
  refine enabled_blindTo (fun _ => rfl) fun s => ?_
  simp only [State.scInto_sc, State.scInto_ssrc, State.scInto_params]
  split <;> rfl

/-- Every symbol of the opcode map (R102) is blind to what is not SC's. -/
theorem decodeSymbol_blindTo {cp : CodecParams} {w v : Nat} (h : decodeSymbol cp w v = .ok i) :
    blindTo e.scInto (exec i) := by
  unfold decodeSymbol at h
  split_ifs at h <;> cases h
  · exact execScAEsc_blindTo w
  all_goals exact enabled_blindTo (fun _ => rfl) fun _ => rfl

theorem fetchSymbol_scInto : fetchSymbol (e.scInto s) = (fetchSymbol s).map e.scInto := by
  refine ite_eq_map Iff.rfl rfl ?_
  simp only [State.scInto_sc, State.scInto_ssrc, State.scInto_params]
  split
  · rfl
  · next r _ => exact fetchedOf_map e.scInto _ (s.setSc { s.sc with br := r })

theorem fetchChunk_scInto : fetchChunk (e.scInto s) = (fetchChunk s).map e.scInto :=
  ite_eq_map Iff.rfl rfl (fetchedOf_map _ _ _)

theorem fetchSc_scInto : fetchSc (e.scInto s) = (fetchSc s).map e.scInto :=
  ite_eq_map Iff.rfl fetchSymbol_scInto (ite_eq_map Iff.rfl fetchChunk_scInto rfl)

/-- SC's turn runs symbols and chunk headers only (R162). -/
theorem fetchSc_instr_blindTo (h : fetchSc s = .instr i s') : blindTo e.scInto (exec i) := by
  unfold fetchSc at h
  split at h
  · rcases fetchSymbol_cases s with ⟨-, hf⟩ | ⟨-, ⟨k, -, hf⟩ | ⟨r, -, hf⟩⟩ <;> rw [hf] at h
    · cases h
    · cases h
    · exact decodeSymbol_blindTo (fetchedOf_instr h).1
  · split at h
    · rcases fetchChunk_cases s with ⟨-, hf⟩ | ⟨-, hf⟩ <;> rw [hf] at h <;> cases h
      exact execScChunk_blindTo _
    · cases h

theorem scTurn_blindTo : blindTo e.scInto scTurn :=
  busyTurn_blindTo (st := fun s => s.sc.st) (fun _ => rfl) (fun _ => fetchSc_scInto)
    fun _ _ _ => fetchSc_instr_blindTo

/-! ### PD -/

theorem pdOutcome_pdInto (o : Option Pd) :
    pdOutcome (e.pdInto s) o = mapNext e.pdInto (pdOutcome s o) := by
  cases o <;> rfl

theorem fieldStep_blindTo (x : Slot) (op : Memory → PdCmd → Pd → Option (PdCmd × Pd)) (m : Byte) :
    blindTo e.pdInto (fieldStep x op m) := by
  intro s
  simp only [fieldStep, State.pdInto_pd, State.pdInto_psrc]
  split
  · rfl
  · exact ite_eq_map Iff.rfl (pdOutcome_pdInto _) rfl

/-- Every select byte (R104) is blind to what is not PD's. -/
theorem decodeSelect_blindTo (b : Byte) : blindTo e.pdInto (exec (decodeSelect b)) := by
  unfold decodeSelect
  split
  · exact enabled_blindTo (fun _ => rfl) fun _ => rfl
  · split <;> exact enabled_blindTo (fun _ => rfl) fun _ => pdOutcome_pdInto _

/-- Every field a mask selects (R95) is blind to what is not PD's. -/
theorem decodeField_blindTo {x : Slot} {m : Byte} (h : decodeField x m = .ok i) :
    blindTo e.pdInto (exec i) := by
  unfold decodeField at h
  split at h
  · split at h <;> cases h <;> exact fieldStep_blindTo _ _ _
  · cases h

theorem fetchSelect_pdInto : fetchSelect (e.pdInto s) = (fetchSelect s).map e.pdInto := by
  simp only [fetchSelect, State.pdInto_pd, State.pdInto_psrc]
  split <;> rfl

theorem fetchPd_pdInto : fetchPd (e.pdInto s) = (fetchPd s).map e.pdInto := by
  simp only [fetchPd, State.pdInto_pd]
  split
  · split
    · exact fetchedOf_map _ _ _
    · rfl
  · exact ite_eq_map Iff.rfl fetchSelect_pdInto rfl

/-- PD's turn runs fields and select bytes only (R212). -/
theorem fetchPd_instr_blindTo (h : fetchPd s = .instr i s') : blindTo e.pdInto (exec i) := by
  unfold fetchPd at h
  split at h
  · split at h
    · exact decodeField_blindTo (fetchedOf_instr h).1
    · cases h
  · split at h
    · rcases fetchSelect_cases s with ⟨-, hf⟩ | ⟨-, hf⟩ <;> rw [hf] at h <;> cases h
      exact decodeSelect_blindTo _
    · cases h

theorem fetchBegin_pdInto : fetchBegin (e.pdInto s) = (fetchBegin s).map e.pdInto := by
  refine ite_eq_map Iff.rfl ?_ fetchPd_pdInto
  simp only [State.pdInto_pd, State.pdInto_psrc]
  split
  · rfl
  · refine ite_eq_map Iff.rfl rfl ?_
    split <;> rfl

theorem fetchBegin_instr_blindTo (h : fetchBegin s = .instr i s') : blindTo e.pdInto (exec i) := by
  unfold fetchBegin at h
  split at h
  · split at h
    · cases h
    · split at h
      · cases h; exact decodeSelect_blindTo _
      · split at h <;> cases h
  · exact fetchPd_instr_blindTo h

theorem pdTurn_blindTo : blindTo e.pdInto pdTurn :=
  busyTurn_blindTo (st := fun s => s.pd.st) (fun _ => rfl) (fun _ => fetchPd_pdInto)
    fun _ _ _ => fetchPd_instr_blindTo

theorem pdBeginTurn_blindTo : blindTo e.pdInto pdBeginTurn :=
  busyTurn_blindTo (st := fun s => s.pd.st) (fun _ => rfl) (fun _ => fetchBegin_pdInto)
    fun _ _ _ => fetchBegin_instr_blindTo

end

/-- Settles O51: where `s'` agrees with `s` on a unit's part, putting that part of `s` into `s'` gives
`s'`, and the unit's steps are blind to the rest. -/
theorem unitStepsSeeOnlyTheirOwnUnit : Obligations.UnitStepsSeeOnlyTheirOwnUnit := by
  intro s s' hfree
  refine ⟨fun hbr0 hbsrc => ?br0, fun hsc hssrc hbiases => ?sc, fun hpd hpsrc => ?pd⟩
  case br0 =>
    have hs := State.br0Into_eq hfree hbr0 hbsrc
    exact ⟨fun len _ h => ⟨_, (execBrOpen_blindTo len).next hs h, rfl, rfl⟩,
      fun w _ h => ⟨_, (execBrRead_blindTo w).next hs h, rfl, rfl⟩⟩
  case sc =>
    have hs := State.scInto_eq hfree hsc hssrc hbiases
    exact fun _ h => ⟨_, scTurn_blindTo.next hs h, rfl, rfl⟩
  case pd =>
    have hs := State.pdInto_eq hfree hpd hpsrc
    exact ⟨fun _ h => ⟨_, pdTurn_blindTo.next hs h, rfl, rfl⟩,
      fun _ h => ⟨_, pdBeginTurn_blindTo.next hs h, rfl, rfl⟩⟩

end Sys2Proof.Machine
end

section
/-! Decoder and encoder agree: a form decodes to an instruction exactly when that instruction is
well formed and is encoded in that form, one rule per format (30_encoding.md R90 to R104). -/

namespace Sys2Proof

open Machine

/-! ### Format CMD (R90): each operand is read back from what the host writes -/

theorem natOperand_eq_ok {n : Int} {k : Nat} : natOperand n = .ok k ↔ (k : Int) = n := by
  unfold natOperand
  split
  · next hn => rw [Except.ok.injEq]; omega
  · next hn => exact ⟨fun h => absurd h (by simp), fun h => absurd (h ▸ Int.natCast_nonneg k) hn⟩

theorem bitOperand_eq_ok {n : Int} {b : Bool} : bitOperand n = .ok b ↔ bitValue b = n := by
  refine ⟨fun h => ?_, fun h => h ▸ bitOperand_bitValue b⟩
  unfold bitOperand at h
  split_ifs at h with hzero hone <;> cases h
  · exact hzero.symm
  · exact hone.symm

theorem signedOperand_eq_ok {n : Int} {w : Word} : signedOperand n = .ok w ↔ w.toInt = n := by
  unfold signedOperand
  constructor
  · intro h
    split_ifs at h with hn
    cases h
    rw [BitVec.toInt_ofInt]
    exact Int.bmod_eq_of_le (by omega) (by omega)
  · rintro rfl
    rw [if_pos ⟨BitVec.le_toInt w, BitVec.toInt_lt⟩, BitVec.ofInt_toInt]

section
variable {ε α β : Type}

theorem exceptMap_eq_ok {x : Except ε α} {f : α → β} {b : β} :
    x.map f = .ok b ↔ ∃ a, x = .ok a ∧ f a = b := by
  cases x <;> simp [Except.map]

theorem exceptBind_eq_ok {x : Except ε α} {f : α → Except ε β} {b : β} :
    x.bind f = .ok b ↔ ∃ a, x = .ok a ∧ f a = .ok b := by
  cases x <;> simp [Except.bind]

end

/-- A transaction decodes to an instruction exactly when it is that instruction's (R90). -/
theorem decodeCommand_eq_ok {t : Transaction} {i : Instr} :
    decodeCommand t = .ok i ↔ encode i = .cmd t := by
  constructor
  · intro h
    obtain ⟨name, operands⟩ := t
    unfold decodeCommand at h
    split at h
    next n hname hops =>
      obtain ⟨len, hlen, rfl⟩ := exceptMap_eq_ok.mp h
      rw [encode, natOperand_eq_ok.mp hlen, ← hname, ← hops]
    next n hname hops =>
      obtain ⟨w, hw, rfl⟩ := exceptMap_eq_ok.mp h
      rw [encode, signedOperand_eq_ok.mp hw, ← hname, ← hops]
    next n d o k hname hops =>
      obtain ⟨slen, hslen, h⟩ := exceptBind_eq_ok.mp h
      obtain ⟨depth16, hdepth, h⟩ := exceptBind_eq_ok.mp h
      obtain ⟨so, hso, h⟩ := exceptBind_eq_ok.mp h
      obtain ⟨srclen, hsrclen, rfl⟩ := exceptMap_eq_ok.mp h
      rw [encode, natOperand_eq_ok.mp hslen, bitOperand_eq_ok.mp hdepth, bitOperand_eq_ok.mp hso,
        natOperand_eq_ok.mp hsrclen, ← hname, ← hops]
    next r k hname hops =>
      obtain ⟨rows, hrows, h⟩ := exceptBind_eq_ok.mp h
      obtain ⟨srclen, hsrclen, rfl⟩ := exceptMap_eq_ok.mp h
      rw [encode, natOperand_eq_ok.mp hrows, natOperand_eq_ok.mp hsrclen, ← hname, ← hops]
    next => cases h
  · intro h
    cases i with
    | brOpen len => exact (decodeCommand_encode_brOpen h).2
    | brRead w =>
        cases h
        exact exceptMap_eq_ok.mpr ⟨w, signedOperand_eq_ok.mpr rfl, rfl⟩
    | scDecode n d o k => exact (decodeCommand_encode_scDecode h).2
    | pdDecode r k => exact (decodeCommand_encode_pdDecode h).2
    | _ => cases h

/-! ### Format CHUNK (R91) -/

/-- A header's bytes are the low and the high byte of the length they spell. -/
theorem encode_scChunk_eq_chunk {len : BitVec 16} {b0 b1 : Byte} :
    encode (.scChunk len) = .chunk b0 b1 ↔ len = b1 ++ b0 := by
  constructor
  · intro h
    cases h
    exact (high_append_low len).symm
  · rintro rfl
    rw [encode, BitVec.extractLsb'_append_eq_left, BitVec.extractLsb'_append_eq_right]

/-! ### Format SYM (R102): one rule per mode -/

section
variable {cp : CodecParams} {w v : Nat} {i : Instr}

theorem decodeSymbol_modeA (hmode : isModeA w = true) (hmax : w ≤ cp.defaultWidth)
    (hfits : fits w v = true) :
    decodeSymbol cp w v = .ok (if v = topBit w then .scAEsc w else .scADelta w v) := by
  obtain ⟨hone, hA⟩ := (isModeA_iff w).mp hmode
  rw [decodeSymbol, if_neg (by omega), if_neg (by omega), if_neg (by simp [hfits]), if_pos hA]
  exact (apply_ite Except.ok _ _ _).symm

theorem decodeSymbol_modeB (hmode : isModeB cp w = true) (hfits : fits w v = true) :
    decodeSymbol cp w v = .ok (if inWindow cp w v then .scBEsc w v else .scBDelta w v) := by
  obtain ⟨hA, hB⟩ := (isModeB_iff cp w).mp hmode
  rw [decodeSymbol, if_neg (by omega), if_neg (by omega), if_neg (by simp [hfits]),
    if_neg (Nat.not_le.mpr hA), if_pos hB]
  exact (apply_ite Except.ok _ _ _).symm

theorem decodeSymbol_modeC (hmode : isModeC cp w = true) (hfits : fits w v = true) :
    decodeSymbol cp w v = .ok (if topBitSet w v then .scCSetw w v else .scCDelta w v) := by
  obtain ⟨hA, hC⟩ := (isModeC_iff cp w).mp hmode
  rw [decodeSymbol, if_neg (by omega), if_neg (by omega), if_neg (by simp [hfits]),
    if_neg (Nat.not_le.mpr hA), if_neg (by omega)]
  exact (apply_ite Except.ok _ _ _).symm

/-- A symbol that decodes has a value that fits its width, and a width of one of the modes. -/
theorem decodeSymbol_ok_mode (h : decodeSymbol cp w v = .ok i) :
    fits w v = true ∧ (isModeA w = true ∧ w ≤ cp.defaultWidth ∨ isModeB cp w = true ∨
      isModeC cp w = true) := by
  unfold decodeSymbol at h
  split_ifs at h with hmax hzero hfits <;>
    exact ⟨by simpa using hfits, by rw [isModeA_iff, isModeB_iff, isModeC_iff]; omega⟩

theorem wellFormed_of_decodeSymbol (h : decodeSymbol cp w v = .ok i) :
    WellFormed cp i = true ∧ encode i = .sym w v := by
  obtain ⟨hfits, ⟨hA, hmax⟩ | hB | hC⟩ := decodeSymbol_ok_mode h
  · rw [decodeSymbol_modeA hA hmax hfits] at h
    split_ifs at h with htb <;> cases h
    · exact ⟨by simp [WellFormed, hA, hmax], by rw [encode, htb]⟩
    · exact ⟨by simp [WellFormed, hA, hmax, hfits, htb], rfl⟩
  · rw [decodeSymbol_modeB hB hfits] at h
    split_ifs at h with hwin <;> cases h <;> exact ⟨by simp [WellFormed, hB, hfits, hwin], rfl⟩
  · rw [decodeSymbol_modeC hC hfits] at h
    split_ifs at h with htop <;> cases h <;> exact ⟨by simp [WellFormed, hC, hfits, htop], rfl⟩

theorem decodeSymbol_of_wellFormed (hwf : WellFormed cp i = true) (henc : encode i = .sym w v) :
    decodeSymbol cp w v = .ok i := by
  have hfits : fits w v = true := by
    have hformat := formatOk_encode hwf
    rw [henc] at hformat
    obtain ⟨-, -, hlt⟩ := symbol_of_formatOk hformat
    exact (fits_iff w v).mpr hlt
  cases i with
  | scAEsc w' =>
      cases henc
      simp only [WellFormed, Bool.and_eq_true, decide_eq_true_eq] at hwf
      rw [decodeSymbol_modeA hwf.1 hwf.2 hfits, if_pos rfl]
  | scADelta w' v' =>
      cases henc
      simp only [WellFormed, Bool.and_eq_true, decide_eq_true_eq] at hwf
      obtain ⟨⟨⟨hA, hmax⟩, -⟩, htb⟩ := hwf
      rw [decodeSymbol_modeA hA hmax hfits, if_neg htb]
  | scBEsc w' v' =>
      cases henc
      simp only [WellFormed, Bool.and_eq_true] at hwf
      obtain ⟨⟨hB, -⟩, hwin⟩ := hwf
      rw [decodeSymbol_modeB hB hfits, if_pos hwin]
  | scBDelta w' v' =>
      cases henc
      simp only [WellFormed, Bool.and_eq_true, Bool.not_eq_true'] at hwf
      obtain ⟨⟨hB, -⟩, hwin⟩ := hwf
      rw [decodeSymbol_modeB hB hfits, if_neg (by simp [hwin])]
  | scCSetw w' v' =>
      cases henc
      simp only [WellFormed, Bool.and_eq_true] at hwf
      obtain ⟨⟨hC, -⟩, htop⟩ := hwf
      rw [decodeSymbol_modeC hC hfits, if_pos htop]
  | scCDelta w' v' =>
      cases henc
      simp only [WellFormed, Bool.and_eq_true, Bool.not_eq_true'] at hwf
      obtain ⟨⟨hC, -⟩, htop⟩ := hwf
      rw [decodeSymbol_modeC hC hfits, if_neg (by simp [htop])]
  | _ => cases henc

/-- The opcode map of the symbols and the well-formed symbols are the same relation (R102). -/
theorem decodeSymbol_eq_ok :
    decodeSymbol cp w v = .ok i ↔ WellFormed cp i = true ∧ encode i = .sym w v :=
  ⟨wellFormed_of_decodeSymbol, fun ⟨hwf, henc⟩ => decodeSymbol_of_wellFormed hwf henc⟩

/-! ### Formats SEL (R104) and MASK (R95) -/

/-- Every select byte is the byte of one well-formed instruction (R104). -/
theorem decodeSelect_eq_iff {b : Byte} :
    decodeSelect b = i ↔ WellFormed cp i = true ∧ encode i = .sel b := by
  constructor
  · rintro rfl
    unfold decodeSelect
    split_ifs with hzero hmask
    · exact ⟨rfl, by rw [hzero]; rfl⟩
    · exact ⟨hmask, rfl⟩
    · exact ⟨by simpa [WellFormed, hmask] using hzero, rfl⟩
  · rintro ⟨hwf, henc⟩
    cases i with
    | pdEnd => cases henc; rfl
    | pdSelm b' =>
        have hzero : b' ≠ 0 := Laws.FormatOfRow.pdSelm b' cp hwf
        cases henc
        rw [decodeSelect, if_neg hzero, if_pos (show maskFollows b = true from hwf)]
    | pdSel b' =>
        cases henc
        simp only [WellFormed, Bool.and_eq_true, Bool.not_eq_true', decide_eq_true_eq] at hwf
        obtain ⟨hmask, hzero⟩ := hwf
        rw [decodeSelect, if_neg hzero, if_neg (by simp [hmask])]
    | _ => cases henc

/-- A field decodes exactly where the mask selects it (R95). -/
theorem decodeField_eq_ok {x : Slot} {m : Byte} :
    decodeField x m = .ok i ↔ WellFormed cp i = true ∧ encode i = .field x m := by
  constructor
  · intro h
    unfold decodeField at h
    split_ifs at h with hsel
    cases x <;> cases h <;> exact ⟨hsel, rfl⟩
  · rintro ⟨hwf, henc⟩
    cases i with
    | pdFNote _ | pdFIns _ | pdFVol _ | pdFEff _ => cases henc; exact if_pos hwf
    | _ => cases henc

/-! ### Every format -/

/-- A form decodes to an instruction exactly when the instruction is well formed and this is its
form. -/
theorem decode_eq_ok {c : Code} : decode cp c = .ok i ↔ WellFormed cp i = true ∧ encode i = c := by
  cases c with
  | cmd t =>
      refine decodeCommand_eq_ok.trans ⟨fun h => ⟨?_, h⟩, And.right⟩
      cases i with
      | brOpen _ | brRead _ | scDecode _ _ _ _ | pdDecode _ _ => rfl
      | _ => cases h
  | chunk b0 b1 =>
      constructor
      · intro h
        cases h
        exact ⟨rfl, encode_scChunk_eq_chunk.mpr rfl⟩
      · rintro ⟨-, henc⟩
        cases i with
        | scChunk len => rw [decode, encode_scChunk_eq_chunk.mp henc]
        | _ => cases henc
  | sym w v => exact decodeSymbol_eq_ok
  | sel b => exact (Except.ok.injEq _ _).to_iff.trans decodeSelect_eq_iff
  | field x m => exact decodeField_eq_ok

end

/-- Settles O1, by the rule that relates decoder and encoder in every format. -/
theorem decodeOfEncodeIsTheInstruction : Obligations.DecodeOfEncodeIsTheInstruction :=
  fun _ _ hwf => decode_eq_ok.mpr ⟨hwf, rfl⟩

/-- Settles O2, by the same rule read the other way. -/
theorem decodedFormsAreWellFormedAndReencode :
    Obligations.DecodedFormsAreWellFormedAndReencode :=
  fun _ _ _ h => decode_eq_ok.mp h

end Sys2Proof
end

section
/-! The opcode map by cases, and words of the spec: each form is the encoding of a well-formed
instruction (30_encoding.md R91 to R104). -/

namespace Sys2Proof

open Machine

theorem codecParams_defaultWidth_eq_maxWidth (b : Biases) (d : Bool) :
    (codecParams b d).defaultWidth = maxWidth d := by cases d <;> rfl

theorem codecParams_lowerBias (b : Biases) (d : Bool) :
    (codecParams b d).lowerBias = lowerBiasOf b d := by cases d <;> rfl

theorem codecParams_upperBias (b : Biases) (d : Bool) :
    (codecParams b d).upperBias = upperBiasOf b d := by cases d <;> rfl

theorem six_lt_maxWidth (d : Bool) : 6 < maxWidth d := by cases d <;> decide

/-- The top bit of a value that fits is set exactly from `tb` on (R92). -/
theorem topBitSet_iff {w v : Nat} (hw : 1 ≤ w) (hv : v < 2 ^ w) :
    topBitSet w v = true ↔ 2 ^ (w - 1) ≤ v := by
  refine ⟨Nat.ge_two_pow_of_testBit, fun h => ?_⟩
  exact Nat.testBit_of_two_pow_le_and_two_pow_add_one_gt h (by rwa [Nat.sub_add_cancel hw])

/-- A width above `W0` is the width fault, whatever the value (R102, row 0). -/
theorem decodeSymbol_widthAboveMax {cp : CodecParams} {w : Nat} (v : Nat)
    (h : cp.defaultWidth < w) : decodeSymbol cp w v = .error .widthAboveMax := if_pos h

/-- Settles O5: a width above `W0` is refused first, and in each mode the test of its row
decides. -/
theorem symbolMapFollowsTheTable : Obligations.SymbolMapFollowsTheTable := by
  intro b d w v
  have hW0 := codecParams_defaultWidth_eq_maxWidth b d
  have hwindow := inWindow_iff (codecParams b d) w v
  rw [codecParams_lowerBias, codecParams_upperBias] at hwindow
  refine ⟨fun hmax => decodeSymbol_widthAboveMax v (by omega), fun hv => ?_⟩
  have hfits : fits w v = true := (fits_iff w v).mpr hv
  have modeA (h1 : 1 ≤ w) (h6 : w ≤ 6) := decodeSymbol_modeA (cp := codecParams b d)
    ((isModeA_iff w).mpr ⟨h1, h6⟩) (by have := six_lt_maxWidth d; omega) hfits
  have modeB (h7 : 7 ≤ w) (hlt : w < maxWidth d) := decodeSymbol_modeB (cp := codecParams b d)
    ((isModeB_iff _ w).mpr ⟨h7, by omega⟩) hfits
  have modeC (hw : w = maxWidth d) := decodeSymbol_modeC (cp := codecParams b d)
    ((isModeC_iff _ w).mpr ⟨by have := six_lt_maxWidth d; omega, by omega⟩) hfits
  have htop (hw : w = maxWidth d) := topBitSet_iff (by have := six_lt_maxWidth d; omega) hv
  refine ⟨fun h1 h6 htb => ?aEsc, fun h1 h6 htb => ?aDelta, fun h7 hlt hin => ?bEsc,
    fun h7 hlt hout => ?bDelta, fun hw hset => ?cSetw, fun hw hclear => ?cDelta⟩
  case aEsc => rw [modeA h1 h6, topBit, if_pos htb]
  case aDelta => rw [modeA h1 h6, topBit, if_neg htb]
  case bEsc => rw [modeB h7 hlt, if_pos (hwindow.mpr hin)]
  case bDelta => rw [modeB h7 hlt, if_neg fun h => hout (hwindow.mp h)]
  case cSetw => rw [modeC hw, if_pos ((htop hw).mpr hset)]
  case cDelta => rw [modeC hw, if_neg fun h => Nat.not_le.mpr hclear ((htop hw).mp h)]

/-- Settles O4: each word is the encoding of a well-formed instruction, so it decodes to it. -/
theorem wordsOfTheSpecDecode : Obligations.WordsOfTheSpecDecode := by
  have word (cp : CodecParams) (i : Instr) (h : WellFormed cp i = true) :
      decode cp (encode i) = .ok i := decodeOfEncodeIsTheInstruction cp i h
  refine ⟨fun b => ⟨?_, ?_, ?_, ?_, ?_, ?_, ?_, ?_, ?_, ?_⟩, fun b hlower hupper => ?_⟩
  · exact word _ (.scCSetw 9 0x103) rfl
  · exact word _ (.scCDelta 9 250) rfl
  · exact word _ (.scAEsc 4) rfl
  · exact word _ (.scADelta 4 15) rfl
  · exact word _ (.scCSetw 17 0x10010) rfl
  · exact word _ (.scChunk 0x0805) rfl
  · exact word _ .pdEnd rfl
  · exact word _ (.pdSelm 0x81) rfl
  · exact word _ (.pdSel 0x02) rfl
  · exact word _ (.pdFVol 0x40) rfl
  · have hwindow (v : Nat) : inWindow (codecParams b false) 7 v = decide (60 ≤ v ∧ v ≤ 67) := by
      rw [Bool.eq_iff_iff, inWindow_iff, decide_eq_true_eq]
      show (64 : Int) + b.lower8 ≤ v ∧ (v : Int) ≤ 64 + b.upper8 ↔ _
      omega
    exact ⟨word _ (.scBEsc 7 60) (by rw [WellFormed, hwindow]; rfl),
      word _ (.scBDelta 7 59) (by rw [WellFormed, hwindow]; rfl)⟩

/-! ### Select bytes (R94, R99) -/

theorem maskFollows_iff (b : Byte) : maskFollows b = true ↔ 128 ≤ b.toNat := by
  rw [maskFollows, BitVec.msb_eq_decide, decide_eq_true_eq]

theorem channelOf_toNat {b : Byte} (hb : b ≠ 0) : (channelOf b).toNat = (b.toNat - 1) % 64 := by
  have hpos : b.toNat ≠ 0 := fun h => hb (BitVec.eq_of_toNat_eq h)
  have hpred : (b - 1).toNat = b.toNat - 1 := by bv_omega
  rw [channelOf, BitVec.toNat_setWidth, BitVec.toNat_and, hpred]
  show ((b.toNat - 1) &&& (2 ^ 6 - 1)) % 2 ^ 6 = _
  rw [Nat.and_two_pow_sub_one_eq_mod, Nat.mod_mod]

/-- Settles O6: the channel is `(b - 1) mod 64`, which names channel 63 for `b = 0x80`. -/
theorem selectByteNamesTheChannel : Obligations.SelectByteNamesTheChannel := by
  intro b hb
  have hpos : b.toNat ≠ 0 := fun h => hb (BitVec.eq_of_toNat_eq h)
  have hlt := b.isLt
  rw [channelOf_toNat hb]
  exact ⟨by omega, by omega, by omega, maskFollows_iff b⟩

end Sys2Proof
end

section
/-! An escape to a width past the 17 bits of `SC.W` leaves an illegal width, which the width guard
of the next step catches (30_encoding.md R107, 41_samplecodec.md R167). -/

namespace Sys2Proof.Machine

section
variable {s : State}

/-- The width guard: an illegal width at the start of a symbol is DecodingError (R167). -/
theorem scTurn_illegalWidth (hst : s.sc.st = .busy) (hblk : 0 < s.sc.blk)
    (hw : s.params.defaultWidth < s.sc.w.toNat) :
    scTurn s = .next (raise .sc .decodingError s) := by
  rw [scTurn_of_busy hst, fetchSc_symbol hblk, fetchSymbol, if_pos hw]
  rfl

/-- A Mode B symbol inside the window, where it is enabled, changes the width by its distance from
the window's lower end (R172). -/
theorem exec_scBEsc {w v : Nat} (hen : symbolEnabled w s.sc = true)
    (hmode : isModeB s.params w = true) (hfits : fits w v = true)
    (hwin : inWindow s.params w v = true) :
    exec (.scBEsc w v) s = .next (s.setWidth (changeWidth w (escapeDelta s.params w v))) :=
  if_pos (by simp [hen, hmode, hfits, hwin])

end

/-- Past the current width the deltas count on by two (R171). -/
theorem changeWidth_of_le {w d : Nat} (h : w ≤ d + 1) : changeWidth w d = d + 2 := if_pos h

/-- Settles O24: the new width is past 17 bits, so the register draws a free value above `W0`, and
the width guard raises. -/
theorem modeBEscapePastTheRegisterIsIllegal : Obligations.ModeBEscapePastTheRegisterIsIllegal := by
  intro w v s hst hblk hsw hw6 hwmax hv hlower hupper hwide
  have hW0 : s.params.defaultWidth = maxWidth s.sc.depth16 :=
    codecParams_defaultWidth_eq_maxWidth s.biases s.sc.depth16
  have hlow : s.params.lowerBias = lowerBiasOf s.biases s.sc.depth16 :=
    codecParams_lowerBias s.biases s.sc.depth16
  have hup : s.params.upperBias = upperBiasOf s.biases s.sc.depth16 :=
    codecParams_upperBias s.biases s.sc.depth16
  have htop : (topBit w : Int) = 2 ^ (w - 1) := by simp [topBit]
  have hexec := exec_scBEsc ((symbolEnabled_iff w s.sc).mpr ⟨hst, hblk, hsw⟩)
    ((isModeB_iff s.params w).mpr ⟨hw6, by omega⟩) ((fits_iff w v).mpr hv)
    ((inWindow_iff s.params w v).mpr ⟨by rwa [hlow, htop], by rwa [hup, htop]⟩)
  have hdelta : 2 ^ 17 ≤ escapeDelta s.params w v + 2 := by
    rw [escapeDelta, hlow, htop]; omega
  have hle : maxWidth s.sc.depth16 ≤ 17 := by cases s.sc.depth16 <;> decide
  rw [changeWidth_of_le (by omega)] at hexec
  rcases s.setWidth_cases (escapeDelta s.params w v + 2) with ⟨hlt, -⟩ | ⟨-, y, hy, hset⟩
  · omega
  · rw [hset] at hexec
    exact ⟨_, hexec, hW0 ▸ hy, rfl, scTurn_illegalWidth hst hblk hy⟩

end Sys2Proof.Machine
end

section
/-! A channel-select command as a whole: each part answers exactly where its bytes are inside PSRC,
with POS past them and the channel's record brought up to date (30_encoding.md R95 to R99,
42_patterndecoder.md R211 to R222). -/

namespace Sys2Proof.Machine

/-! ### The mask bits (R95) -/

/-- The number of a field's present bit; its repeat bit stands four above. -/
def Slot.bit : Slot → Nat
  | .note => 0
  | .ins => 1
  | .vol => 2
  | .eff => 3

theorem and_twoPow_ne_zero (m : Byte) {i : Nat} (hi : i < 8) :
    m &&& BitVec.twoPow 8 i ≠ 0 ↔ m.getLsbD i = true := by
  have hne : BitVec.twoPow 8 i ≠ 0 := fun h => by
    have hbit := congrArg (BitVec.getLsbD · i) h
    simp [hi] at hbit
  rw [BitVec.and_twoPow]
  split
  · next hset => exact iff_of_true hne hset
  · next hclear => exact iff_of_false (not_not_intro rfl) hclear

theorem Slot.reads_eq (m : Byte) (y : Slot) : Slot.reads m y = m.getLsbD y.bit := by
  have hbit : y.present = BitVec.twoPow 8 y.bit := by cases y <;> rfl
  have hlt : y.bit < 8 := by cases y <;> decide
  rw [Slot.reads, hbit, Bool.eq_iff_iff, decide_eq_true_eq, and_twoPow_ne_zero m hlt]

theorem Slot.selected_eq (m : Byte) (y : Slot) :
    Slot.selected m y = (m.getLsbD y.bit || m.getLsbD (y.bit + 4)) := by
  have hbit : y.active = BitVec.twoPow 8 y.bit ||| BitVec.twoPow 8 (y.bit + 4) := by
    cases y <;> rfl
  have hlt : y.bit + 4 < 8 := by cases y <;> decide
  rw [Slot.selected, hbit, BitVec.and_or_distrib_left, Bool.eq_iff_iff, decide_eq_true_eq,
    Bool.or_eq_true, ← and_twoPow_ne_zero m hlt, ← and_twoPow_ne_zero m (by omega), ← not_and_or]
  exact not_congr BitVec.or_eq_zero_iff

theorem maskBit_le_one (m : Byte) (i : Nat) : maskBit m i ≤ 1 := by
  unfold maskBit
  split <;> omega

theorem reads_toNat (m : Byte) (y : Slot) : (Slot.reads m y).toNat = maskBit m y.bit := by
  rw [Slot.reads_eq, maskBit]
  cases m.getLsbD y.bit <;> rfl

/-! ### PD with bytes consumed and a record written -/

/-- PD with POS at `n` and the record `PD.CH[c]` replaced. -/
def Pd.advance (p : Pd) (c : BitVec 6) (n : Nat) (x : ChannelState) : Pd :=
  { p with pos := n, ch := p.ch.set c.toNat x c.isLt }

section
variable (p : Pd) (c : BitVec 6) (n : Nat) (x : ChannelState)

@[simp] theorem advance_pos : (p.advance c n x).pos = n := rfl
@[simp] theorem advance_srclen : (p.advance c n x).srclen = p.srclen := rfl

@[simp] theorem advance_chan : (p.advance c n x).chan c = x := by simp [Pd.chan, Pd.advance]

@[simp] theorem advance_advance (n' : Nat) (x' : ChannelState) :
    (p.advance c n x).advance c n' x' = p.advance c n' x' := by simp [Pd.advance]

/-- Nothing consumed and nothing written. -/
@[simp] theorem advance_self : p.advance c p.pos (p.chan c) = p := by simp [Pd.advance, Pd.chan]

/-- The record written after bytes were consumed. -/
@[simp] theorem setChan_setPos : Pd.setChan { p with pos := n } c x = p.advance c n x := rfl

@[simp] theorem chan_setPos : Pd.chan { p with pos := n } c = p.chan c := rfl

end

/-! ### The parts of a command -/

/-- `r` where the bytes before the index `n` are inside the length, none where one is missing. -/
def upTo {α : Type} (len n : Nat) (r : α) : Option α := if len < n then none else some r

theorem upTo_of_le {α : Type} {len n : Nat} (h : n ≤ len) (r : α) : upTo len n r = some r :=
  if_neg (Nat.not_lt.mpr h)

theorem upTo_of_lt {α : Type} {len n : Nat} (h : len < n) (r : α) : upTo len n r = none := if_pos h

/-- Two parts in order, the second of which consumes no byte before those of the first. -/
theorem upTo_bind {α β : Type} {len n e : Nat} {a : α} {b : β} {f : α → Option β} (hle : n ≤ e)
    (hf : n ≤ len → f a = upTo len e b) : (upTo len n a).bind f = upTo len e b := by
  by_cases h : n ≤ len
  · rw [upTo_of_le h, Option.bind_some, hf h]
  · rw [upTo_of_lt (by omega), upTo_of_lt (by omega), Option.bind_none]

theorem upTo_map {α β : Type} (len n : Nat) (a : α) (f : α → β) :
    (upTo len n a).map f = upTo len n (f a) := by
  unfold upTo
  split <;> rfl

theorem nextByte_eq_upTo (m : Memory) (p : Pd) :
    nextByte m p = upTo p.srclen (p.pos + 1) (readByte m p.pos, { p with pos := p.pos + 1 }) := by
  by_cases h : p.pos < p.srclen
  · rw [upTo_of_le h, nextByte_eq_some.mpr ⟨h, rfl, rfl⟩]
  · rw [upTo_of_lt (by omega), nextByte_eq_none.mpr (by omega)]

/-- The channel's record with a byte read from the stream where a mask asks for one: the shape that
the mask byte and the note, instrument and volume fields share (R216 to R219). -/
def storeByte (m : Memory) (c : BitVec 6) (present : Bool)
    (put : ChannelState → Byte → ChannelState) (p : Pd) : Option Pd :=
  if present then (nextByte m p).map fun (b, q) => q.setChan c (put (q.chan c) b) else some p

theorem storeByte_eq {m : Memory} {c : BitVec 6} {present : Bool}
    {put : ChannelState → Byte → ChannelState} {p : Pd} (hpos : p.pos ≤ p.srclen) :
    storeByte m c present put p = upTo p.srclen (p.pos + present.toNat)
      (p.advance c (p.pos + present.toNat)
        (if present then put (p.chan c) (readByte m p.pos) else p.chan c)) := by
  cases present with
  | false => simp [storeByte, upTo_of_le hpos]
  | true => simp [storeByte, nextByte_eq_upTo, upTo_map]

/-- The bytes a field has in the stream under a mask (R95, R97). -/
def fieldBytes (mask : Byte) : Slot → Nat
  | .eff => 2 * maskBit mask 3
  | y => maskBit mask y.bit

/-- The channel's record after a field whose bytes start at `n` (R217 to R220). -/
def recordWith (m : Memory) (mask : Byte) (n : Nat) (x : ChannelState) : Slot → ChannelState
  | .note => { x with note := if Slot.reads mask .note then readByte m n else x.note }
  | .ins => { x with ins := if Slot.reads mask .ins then readByte m n else x.ins }
  | .vol => { x with vol := if Slot.reads mask .vol then readByte m n else x.vol }
  | .eff => { x with eff := if Slot.reads mask .eff then readByte m n else x.eff
                     prm := if Slot.reads mask .eff then readByte m (n + 1) else x.prm }

/-- The entry after a field, the channel's record brought up to date (R217 to R220). -/
def entryWith (mask : Byte) (x : ChannelState) (e : PatternEntry) : Slot → PatternEntry
  | .note => { e with note := if Slot.selected mask .note then noteXlat x.note else e.note }
  | .ins => { e with instrument := if Slot.selected mask .ins then x.ins else e.instrument }
  | .vol =>
      { e with
        volumeCommand := if Slot.selected mask .vol then (volXlat x.vol).1 else e.volumeCommand
        volumeParam := if Slot.selected mask .vol then (volXlat x.vol).2 else e.volumeParam }
  | .eff => { e with effect := if Slot.selected mask .eff then x.eff else e.effect
                     effectParam := if Slot.selected mask .eff then x.prm else e.effectParam }

/-- The command with a field done, the channel's record in PD brought up to date. -/
def PdCmd.doneIn (k : PdCmd) (y : Slot) (p : Pd) : PdCmd :=
  { k with entry := entryWith k.mask (p.chan k.chan) k.entry y, todo := k.todo.erase y }

/-- The command and PD after a field. -/
def afterField (m : Memory) (y : Slot) (k : PdCmd) (p : Pd) : PdCmd × Pd :=
  let q := p.advance k.chan (p.pos + fieldBytes k.mask y)
    (recordWith m k.mask p.pos (p.chan k.chan) y)
  (k.doneIn y q, q)

/-- A field sub-operation (R217 to R220). -/
def fieldOf : Slot → Memory → PdCmd → Pd → Option (PdCmd × Pd)
  | .note => fieldNote
  | .ins => fieldIns
  | .vol => fieldVol
  | .eff => fieldEff

/-- The record with the byte of a one-byte field replaced; the effect is no such field. -/
def Slot.put : Slot → ChannelState → Byte → ChannelState
  | .note, x, b => { x with note := b }
  | .ins, x, b => { x with ins := b }
  | .vol, x, b => { x with vol := b }
  | .eff, x, _ => x

section
variable {y : Slot} (hy : y ≠ .eff)
include hy

theorem fieldBytes_of_ne_eff (mask : Byte) : fieldBytes mask y = (Slot.reads mask y).toNat := by
  rw [reads_toNat]
  cases y with
  | note | ins | vol => rfl
  | eff => exact absurd rfl hy

theorem recordWith_of_ne_eff (m : Memory) (mask : Byte) (n : Nat) (x : ChannelState) :
    recordWith m mask n x y = if Slot.reads mask y then y.put x (readByte m n) else x := by
  cases y with
  | note | ins | vol =>
      dsimp only [recordWith, Slot.put]
      generalize Slot.reads mask _ = reads
      cases reads <;> rfl
  | eff => exact absurd rfl hy

/-- The note, instrument and volume fields store their byte and take the field from the record. -/
theorem fieldOf_of_ne_eff (m : Memory) (k : PdCmd) (p : Pd) : fieldOf y m k p =
    (storeByte m k.chan (Slot.reads k.mask y) y.put p).map fun q => (k.doneIn y q, q) := by
  cases y with
  | note | ins | vol =>
      dsimp only [fieldOf, fieldNote, fieldIns, fieldVol, storeByte, PdCmd.doneIn, entryWith]
      generalize Slot.selected k.mask _ = selected, Slot.reads k.mask _ = reads
      cases selected <;> cases reads <;> cases nextByte m p <;> rfl
  | eff => exact absurd rfl hy

end

section
variable {m : Memory} {k : PdCmd} {p : Pd} {b : Byte}

/-- The effect's two bytes are read both or neither (R220). -/
theorem fieldEff_eq (hpos : p.pos ≤ p.srclen) : fieldEff m k p =
    upTo p.srclen (p.pos + fieldBytes k.mask .eff) (afterField m .eff k p) := by
  have hbytes : fieldBytes k.mask .eff = 2 * (Slot.reads k.mask .eff).toNat := by
    rw [reads_toNat]; rfl
  rw [afterField, hbytes, recordWith, PdCmd.doneIn, entryWith, advance_chan, fieldEff]
  cases Slot.reads k.mask .eff with
  | false =>
      rw [upTo_of_le (by simpa using hpos)]
      cases Slot.selected k.mask .eff <;>
        exact congrArg (fun q => some (_, q)) (advance_self p k.chan).symm
  | true =>
      rw [Bool.toNat_true, Nat.mul_one]
      by_cases hin : p.pos + 2 ≤ p.srclen
      · rw [upTo_of_le hin]
        have hfirst : nextByte m p = some (readByte m p.pos, { p with pos := p.pos + 1 }) :=
          nextByte_eq_some.mpr ⟨by omega, rfl, rfl⟩
        have hsecond : nextByte m { p with pos := p.pos + 1 } =
            some (readByte m (p.pos + 1), { p with pos := p.pos + 2 }) :=
          nextByte_eq_some.mpr ⟨hin, rfl, rfl⟩
        simp only [if_true, if_neg (Nat.not_lt.mpr hin), hfirst, hsecond, chan_setPos,
          setChan_setPos, advance_chan]
        cases Slot.selected k.mask .eff <;> rfl
      · have hout : p.srclen < p.pos + 2 := Nat.lt_of_not_le hin
        rw [upTo_of_lt hout]
        simp only [if_true, if_pos hout]

/-- A field sub-operation answers exactly where its bytes are inside the length. -/
theorem fieldOf_eq (y : Slot) (hpos : p.pos ≤ p.srclen) : fieldOf y m k p =
    upTo p.srclen (p.pos + fieldBytes k.mask y) (afterField m y k p) := by
  by_cases hy : y = .eff
  · exact hy ▸ fieldEff_eq hpos
  · rw [fieldOf_of_ne_eff hy, storeByte_eq hpos, upTo_map, ← fieldBytes_of_ne_eff hy,
      ← recordWith_of_ne_eff hy]
    rfl

/-- Fields done one after the other. -/
def runFields (m : Memory) : List Slot → PdCmd → Pd → Option (PdCmd × Pd)
  | [], k, p => some (k, p)
  | y :: ys, k, p => (fieldOf y m k p).bind fun q => runFields m ys q.1 q.2

/-- The command and PD after some fields. -/
def afterFields (m : Memory) (ys : List Slot) (k : PdCmd) (p : Pd) : PdCmd × Pd :=
  ys.foldl (fun q y => afterField m y q.1 q.2) (k, p)

theorem runFields_eq (ys : List Slot) (hpos : p.pos ≤ p.srclen) : runFields m ys k p =
    upTo p.srclen (p.pos + (ys.map (fieldBytes k.mask)).sum) (afterFields m ys k p) := by
  induction ys generalizing k p with
  | nil => exact (upTo_of_le hpos _).symm
  | cons y ys ih =>
      rw [runFields, fieldOf_eq y hpos, List.map_cons, List.sum_cons, ← Nat.add_assoc]
      exact upTo_bind (Nat.le_add_right _ _) fun hin => ih hin

theorem openCommand_eq_store : openCommand m b p =
    (storeByte m (channelOf b) (maskFollows b) (fun x b => { x with mask := b }) p).map fun q =>
      ({ chan := channelOf b, mask := (q.chan (channelOf b)).mask,
         entry := { channel := channelOf b },
         todo := selectedSlots (q.chan (channelOf b)).mask }, q) := by
  unfold openCommand storeByte
  cases maskFollows b
  · rfl
  · cases nextByte m p <;> rfl

end

/-! ### A whole command -/

/-- The four fields, in stream order (R96). -/
def allSlots : List Slot := [.note, .ins, .vol, .eff]

theorem channelOf_eq_selectedChannel {b : Byte} (hb : b ≠ 0) : channelOf b = selectedChannel b :=
  BitVec.eq_of_toNat_eq (by rw [channelOf_toNat hb, selectedChannel, BitVec.toNat_ofNat])

theorem maskFollows_eq (b : Byte) : maskFollows b = b.getLsbD 7 := BitVec.msb_eq_getLsbD_last b

/-- The command and PD once the channel and the effective mask are known (R215, R216). -/
def afterOpen (m : Memory) (b : Byte) (p : Pd) : PdCmd × Pd :=
  let c := selectedChannel b
  let mask := effectiveMask m b p
  ({ chan := c, mask := mask, entry := { channel := c }, todo := selectedSlots mask },
    p.advance c (fieldsAt b p) { p.chan c with mask := mask })

/-- PD after a whole channel-select command (R214 to R222). -/
def afterCommand (m : Memory) (b : Byte) (p : Pd) : Pd :=
  let c := selectedChannel b
  let mask := effectiveMask m b p
  let x := recordAfter m b p
  { p.advance c (commandEnd m b p) x with
    cur := if mask = 0 then p.cur else p.cur ++ [entryOf c mask x] }

section
variable {m : Memory} {b : Byte} {p : Pd}

theorem openCommand_eq (hb : b ≠ 0) (hpos : p.pos ≤ p.srclen) :
    openCommand m b p = upTo p.srclen (fieldsAt b p) (afterOpen m b p) := by
  rw [openCommand_eq_store, storeByte_eq hpos, upTo_map, channelOf_eq_selectedChannel hb,
    maskFollows_eq, advance_chan, afterOpen, fieldsAt, effectiveMask]
  cases b.getLsbD 7 <;> rfl

/-- A command is its opening, its four fields in order and its end (R214). -/
theorem selectCommand_eq_runFields : selectCommand m b p = (openCommand m b p).bind fun q =>
    (runFields m allSlots q.1 q.2).map fun q => closeCommand q.1 q.2 := by
  simp [selectCommand, runFields, allSlots, fieldOf, Option.map_bind]

/-- A command ends after its fields (R97). -/
theorem commandEnd_eq : commandEnd m b p =
    fieldsAt b p + (allSlots.map (fieldBytes (effectiveMask m b p))).sum := by
  simp only [allSlots, List.map, List.sum_cons, List.sum_nil, fieldBytes, commandEnd, Slot.bit]
  omega

/-- A command has at most a mask byte and five field bytes after its select byte (R97). -/
theorem commandEnd_le : commandEnd m b p ≤ p.pos + 6 := by
  have hstart : fieldsAt b p ≤ p.pos + 1 := by unfold fieldsAt; split <;> omega
  have hbits := maskBit_le_one (effectiveMask m b p)
  have h0 := hbits 0
  have h1 := hbits 1
  have h2 := hbits 2
  have h3 := hbits 3
  dsimp only [commandEnd]
  omega

/-- The four fields leave the entry and the record that the command's bytes spell (R216 to R220). -/
theorem afterFields_afterOpen :
    let q := afterFields m allSlots (afterOpen m b p).1 (afterOpen m b p).2
    q.1.mask = effectiveMask m b p ∧
    q.1.entry = entryOf (selectedChannel b) (effectiveMask m b p) (recordAfter m b p) ∧
    q.2 = p.advance (selectedChannel b) (commandEnd m b p) (recordAfter m b p) := by
  simp only [afterFields, allSlots, List.foldl, afterField, PdCmd.doneIn, afterOpen, advance_chan,
    advance_pos, advance_advance, recordWith, entryWith, Slot.reads_eq, Slot.selected_eq]
  exact ⟨trivial, rfl, rfl⟩

/-- The end of the command adds its entry unless the mask is 0 (R222). -/
theorem closeCommand_afterFields (hcmd : p.cmd = none) :
    let q := afterFields m allSlots (afterOpen m b p).1 (afterOpen m b p).2
    closeCommand q.1 q.2 = afterCommand m b p := by
  intro q
  obtain ⟨hmask, hentry, hpd⟩ := afterFields_afterOpen (m := m) (b := b) (p := p)
  rw [closeCommand, hmask, hentry, hpd, afterCommand, ite_not, ← hcmd]
  rfl

/-- A whole command answers exactly where it ends inside the length (R97, R211). -/
theorem selectCommand_eq (hb : b ≠ 0) (hpos : p.pos ≤ p.srclen) (hcmd : p.cmd = none) :
    selectCommand m b p = upTo p.srclen (commandEnd m b p) (afterCommand m b p) := by
  rw [commandEnd_eq, selectCommand_eq_runFields, openCommand_eq hb hpos]
  refine upTo_bind (Nat.le_add_right _ _) fun hin => ?_
  rw [runFields_eq allSlots hin, upTo_map, closeCommand_afterFields hcmd]
  rfl

end

/-- Either channel-select instruction runs the whole command of its byte (R214). -/
theorem exec_channelSelect {b : Byte} {s : State} (hb : b ≠ 0)
    (hen : commandEnabled s.pd = true) :
    exec (if b.getLsbD 7 then .pdSelm b else .pdSel b) s =
      pdOutcome s (selectCommand s.psrc b s.pd) := by
  rw [← maskFollows_eq]
  cases hmask : maskFollows b with
  | true => exact if_pos (by simp [hen, hmask])
  | false => exact if_pos (by simp only [hen, hmask, decide_eq_true hb]; rfl)

/-- Settles O34: the command's parts in order answer exactly where its last byte is inside PSRC, and
then leave the record and the entry its bytes spell. -/
theorem channelSelectCommandDecodesItsFields :
    Obligations.ChannelSelectCommandDecodesItsFields := by
  intro b s hb hst hrow hcmd hpos i c mask x
  have hexec := exec_channelSelect hb ((commandEnabled_iff s.pd).mpr ⟨hst, hrow, hcmd⟩)
  rw [selectCommand_eq hb hpos hcmd] at hexec
  refine ⟨commandEnd_le, ?_⟩
  split
  · next hout => rw [upTo_of_lt hout] at hexec; exact hexec
  · next hin => rw [upTo_of_le (Nat.le_of_not_lt hin)] at hexec; exact hexec

end Sys2Proof.Machine
end

section
/-! BR.READ as the read of a bit cursor and the chunking of reads (40_bitreader.md R130 to R139). -/

namespace Sys2Proof.Machine

/-! ### The stream bits from the bit cursor on -/

/-- The next `a + b` stream bits are the next `a`, then the `b` from the cursor moved past them. -/
theorem nextBits_add (m : Memory) (r : Br) (a b : Nat) :
    nextBits m r (a + b) =
      nextBits m r a + 2 ^ a * (streamValue m r / 2 ^ (bitPos r + a) % 2 ^ b) := by
  rw [nextBits, nextBits, Nat.pow_add, Nat.mod_mul, Nat.div_div_eq_div_mul, ← Nat.pow_add]

/-- The low bits of the next stream bits are the next stream bits of the smaller count. -/
theorem nextBits_mod (m : Memory) (r : Br) {w n : Nat} (h : w ≤ n) :
    nextBits m r n % 2 ^ w = nextBits m r w :=
  Nat.mod_mod_of_dvd _ (Nat.pow_dvd_pow 2 h)

theorem streamValue_of_sameBinding {m : Memory} {r r' : Br} (h : sameBinding r r') :
    streamValue m r' = streamValue m r := by
  obtain ⟨-, -, hbase, hlen⟩ := h
  rw [streamValue, streamValue, hbase, hlen]

/-- The stream bits depend on the binding and the bit cursor only. -/
theorem nextBits_of_sameBinding {m : Memory} {r r' : Br} (h : sameBinding r r')
    (hbit : bitPos r' = bitPos r) (n : Nat) : nextBits m r' n = nextBits m r n := by
  rw [nextBits, nextBits, streamValue_of_sameBinding h, hbit]

/-! ### A read of a reader -/

/-- With turns enough, the refill runs out of bytes exactly where the request passes the end of the
source (R135). -/
theorem refill_eq_none_iff {m : Memory} {f w : Nat} {r : Br} (hf : w ≤ r.cnt + 8 * f)
    (hpos : r.pos ≤ r.len) (hcnt : r.cnt ≤ 8 * r.pos) :
    refill m f w r = none ↔ 8 * r.len < bitPos r + w := by
  induction f generalizing r with
  | zero =>
      simp only [refill, reduceCtorEq, false_iff, bitPos]
      omega
  | succ f ih =>
      rw [refill]
      split
      · split
        · simp only [true_iff, bitPos]
          omega
        · rw [ih (by rw [loadByte_cnt]; omega) (by rw [loadByte_pos, loadByte_len]; omega)
            (by rw [loadByte_cnt, loadByte_pos]; omega), bitPos_loadByte, loadByte_len]
      · simp only [reduceCtorEq, false_iff, bitPos]
        omega

theorem readBr_of_badWidth {m : Memory} {w : Int} {r : Br} (h : w < 0 ∨ 32 ≤ w) :
    readBr m w r = .error .badParameter := by
  rcases readBr_cases m w r with ⟨-, he⟩ | ⟨hw, -⟩ | ⟨hw, -⟩
  · exact he
  · omega
  · omega

/-- A legal width fails exactly where it passes the end of the source (R135). -/
theorem readBr_of_pastEnd {m : Memory} {w : Int} {r : Br} (hr : readyInv m r)
    (hw : 0 ≤ w ∧ w ≤ 31) (h : 8 * r.len < bitPos r + w.toNat) :
    readBr m w r = .error .endOfStream := by
  obtain ⟨hpos, -, hcnt, -⟩ := hr
  have hnone : refill m w.toNat w.toNat r = none :=
    (refill_eq_none_iff (by omega) hpos hcnt).mpr h
  rcases readBr_cases m w r with ⟨hbad, -⟩ | ⟨-, -, he⟩ | ⟨-, r1, hf, -⟩
  · omega
  · exact he
  · cases hnone.symm.trans hf

/-- A legal width inside the source is read. -/
theorem readBr_of_bitsLeft {m : Memory} {w : Int} {r : Br} (hr : readyInv m r)
    (hw : 0 ≤ w ∧ w ≤ 31) (h : bitsLeft r w.toNat) : ∃ r', readBr m w r = .ok r' := by
  obtain ⟨hpos, -, hcnt, -⟩ := hr
  rcases readBr_cases m w r with ⟨hbad, -⟩ | ⟨-, hf, -⟩ | ⟨-, r1, -, he⟩
  · omega
  · exact absurd ((refill_eq_none_iff (by omega) hpos hcnt).mp hf) (Nat.not_lt.mpr h)
  · exact ⟨_, he⟩

/-- The result of a read is the next `w` stream bits (R136, R137). -/
theorem readBr_res_toNat {m : Memory} {w : Int} {r r' : Br} (h : readBr m w r = .ok r')
    (hr : readyInv m r) : r'.res.toNat = nextBits m r w.toNat := by
  rcases readBr_cases m w r with ⟨-, he⟩ | ⟨-, -, he⟩ | ⟨⟨-, hw⟩, r1, hf, he⟩
  · cases he.symm.trans h
  · cases he.symm.trans h
  · cases he.symm.trans h
    obtain ⟨hp, hcnt⟩ := readyInv_iff.mp hr
    obtain ⟨⟨-, -, hbuf⟩, -, hbit⟩ := refill_pendingInv (by omega) hf hp (by omega)
    have hlow : r1.buf.toNat % 2 ^ w.toNat = nextBits m r w.toNat := by
      rw [hbuf, nextBits_mod m r1 (refill_width hf),
        nextBits_of_sameBinding (refill_frame hf).1 hbit]
    have hfit : nextBits m r w.toNat < 2 ^ 32 :=
      (Nat.mod_lt _ (Nat.two_pow_pos _)).trans_le (Nat.pow_le_pow_right (by norm_num) (by omega))
    rw [extract_res, BitVec.toNat_ofNat, hlow, Nat.mod_eq_of_lt hfit]

/-- A read of no bit loads nothing and moves nothing: only BR.RES is written (R139). -/
theorem readBr_zero (m : Memory) (r : Br) : readBr m 0 r = .ok { r with res := 0 } := by
  show Except.ok (extract 0 r) = _
  simp [extract, Nat.mod_one]

/-! ### BR.READ on BR0 -/

/-- The two tests of R132, signed and unsigned, agree. -/
theorem toInt_badWidth_iff (w : Word) : (w.toInt < 0 ∨ 32 ≤ w.toInt) ↔ 32 ≤ w.toNat := by
  have hlt := w.isLt
  rw [BitVec.toInt_eq_toNat_cond]
  split <;> omega

/-- A legal width is the same number read signed and unsigned. -/
theorem toInt_of_lt_32 {w : Word} (h : w.toNat < 32) : w.toInt = w.toNat :=
  BitVec.toInt_eq_toNat_of_lt (by omega)

section
variable {s : State} {w : Word}

theorem exec_brRead : exec (.brRead w) s = execBrRead w s := rfl

/-- A DEAD instance fails again and nothing changes (R133). -/
theorem exec_brRead_of_dead (hst : s.br0.st = .dead) : exec (.brRead w) s = .next s := by
  rw [exec_brRead, execBrRead, hst]

/-- A CLOSED instance has no read (R306). -/
theorem exec_brRead_of_closed (hst : s.br0.st = .closed) :
    exec (.brRead w) s = .refused .readOnClosed := by
  rw [exec_brRead, execBrRead, hst]

theorem exec_brRead_of_error {k : ErrKind} (hst : s.br0.st = .ready)
    (h : readBr s.bsrc w.toInt s.br0 = .error k) :
    exec (.brRead w) s = .next (raise .br0 k s) := by
  simp only [exec_brRead, execBrRead, hst, h]

theorem exec_brRead_of_ok {r : Br} (hst : s.br0.st = .ready)
    (h : readBr s.bsrc w.toInt s.br0 = .ok r) : exec (.brRead w) s = .next (s.setBr0 r) := by
  simp only [exec_brRead, execBrRead, hst, h]

theorem exec_brRead_of_badWidth (hst : s.br0.st = .ready) (hw : 32 ≤ w.toNat) :
    exec (.brRead w) s = .next (raise .br0 .badParameter s) :=
  exec_brRead_of_error hst (readBr_of_badWidth ((toInt_badWidth_iff w).mpr hw))

theorem exec_brRead_of_pastEnd (hst : s.br0.st = .ready) (hr : readyInv s.bsrc s.br0)
    (hw : w.toNat < 32) (h : 8 * s.br0.len < bitPos s.br0 + w.toNat) :
    exec (.brRead w) s = .next (raise .br0 .endOfStream s) := by
  have hval := toInt_of_lt_32 hw
  exact exec_brRead_of_error hst (readBr_of_pastEnd hr (by omega) (by rwa [hval]))

/-- A read inside the source: the reader moves along its source, and the result is the next stream
bits (R137). -/
theorem exec_brRead_of_bitsLeft (hst : s.br0.st = .ready) (hr : readyInv s.bsrc s.br0)
    (hw : w.toNat < 32) (h : bitsLeft s.br0 w.toNat) :
    ∃ r, exec (.brRead w) s = .next (s.setBr0 r) ∧ r.res.toNat = nextBits s.bsrc s.br0 w.toNat ∧
      bitPos r = bitPos s.br0 + w.toNat ∧ readyInv s.bsrc r ∧ sameBinding s.br0 r := by
  have hval := toInt_of_lt_32 hw
  obtain ⟨r, hread⟩ := readBr_of_bitsLeft (w := w.toInt) hr (by omega) (by rwa [hval])
  obtain ⟨hready, hbit⟩ := readBr_readyInv hread hr
  have hres := readBr_res_toNat hread hr
  rw [hval, Int.toNat_natCast] at hbit hres
  exact ⟨r, exec_brRead_of_ok hst hread, hres, hbit, hready, readBr_sameBinding hread⟩

end

/-- Settles O8: the answers of BR.READ by width and by what is left of the source. -/
theorem readOfRegistersIsReadOfTheBitCursor : Obligations.ReadOfRegistersIsReadOfTheBitCursor := by
  intro w s hst hr
  split
  · next hbad => exact exec_brRead_of_badWidth hst ((toInt_badWidth_iff w).mp hbad)
  · next hlegal =>
      have hw : w.toNat < 32 := Nat.lt_of_not_le (mt (toInt_badWidth_iff w).mpr hlegal)
      split
      · next hend => exact exec_brRead_of_pastEnd hst hr hw hend
      · next hin =>
          obtain ⟨r, hexec, hres, hbit, hready, hst', herr, hbase, hlen⟩ :=
            exec_brRead_of_bitsLeft hst hr hw (Nat.le_of_not_lt hin)
          exact ⟨r, hexec, hres, hbit, hready, hst'.trans hst, herr, hbase, hlen⟩

/-! ### Reads in a row -/

/-- A read that answers gives the first result, the reads after it the rest. -/
theorem readSeq_cons {w : Nat} {ws vs : List Nat} {s t u : State}
    (h : exec (.brRead (BitVec.ofNat 32 w)) s = .next t) (hrest : readSeq ws t = some (vs, u)) :
    readSeq (w :: ws) s = some (t.br0.res.toNat :: vs, u) := by
  simp only [readSeq, h, hrest, Option.map_some]

/-- Settles O12, by induction on the widths: a read leaves the reader at the stream bits the rest of
the reads take up. -/
theorem chunkedReadsReproduceTheStream : Obligations.ChunkedReadsReproduceTheStream := by
  intro ws
  induction ws with
  | nil =>
      intro s hst _ _ _
      exact ⟨[], s, rfl, rfl, hst, (Nat.mod_one _).symm, rfl⟩
  | cons w ws ih =>
      intro s hst hr hws hfit
      obtain ⟨hw, hws'⟩ := List.forall_mem_cons.mp hws
      rw [List.sum_cons] at hfit ⊢
      have hwnat : (BitVec.ofNat 32 w).toNat = w := by
        rw [BitVec.toNat_ofNat, Nat.mod_eq_of_lt (by omega)]
      obtain ⟨r, hexec, hres, hbit, hready, hsame⟩ :=
        exec_brRead_of_bitsLeft (w := BitVec.ofNat 32 w) hst hr (by omega)
          (by unfold bitsLeft; omega)
      rw [hwnat] at hres hbit
      have ⟨hst', _, _, hlen⟩ := hsame
      obtain ⟨vs, t, hseq, hvs, htst, hval, htbit⟩ :=
        ih (s.setBr0 r) (hst'.trans hst) hready hws' (by rw [State.setBr0_br0]; omega)
      rw [State.setBr0_br0] at htbit
      refine ⟨r.res.toNat :: vs, t, readSeq_cons hexec hseq, congrArg (· + 1) hvs, htst, ?_,
        by omega⟩
      rw [State.setBr0_br0, State.setBr0_bsrc, streamValue_of_sameBinding hsame, hbit] at hval
      rw [recombine, hval, hres]
      exact (nextBits_add s.bsrc s.br0 w ws.sum).symm

/-! ### BR.OPEN, and BR.READ by the reader's status -/

/-- The instance after BR.OPEN is a fresh one in every status (R130). -/
theorem exec_brOpen (len : Nat) (s : State) : exec (.brOpen len) s =
    .next { s with br0 := openBr (Config.freeBr s.free) 0 len, free := s.free + 1 } := rfl

/-- Settles O7: every register is overwritten, none of them from the instance before. -/
theorem brOpenBindsTheSource : Obligations.BrOpenBindsTheSource := fun len s =>
  ⟨_, exec_brOpen len s, rfl, rfl, rfl, rfl, rfl, rfl, rfl, rfl, fun _ => ⟨_, exec_brOpen _ _, rfl⟩⟩

/-- Settles O9: the parameter check comes before the refill and does not see the source. -/
theorem badWidthIsBadParameter : Obligations.BadWidthIsBadParameter := fun w _ hst =>
  ⟨toInt_badWidth_iff w, fun hw =>
    ⟨_, exec_brRead_of_badWidth hst hw, rfl, rfl, rfl, rfl, rfl, rfl⟩⟩

/-- Settles O10: the dead check comes before the read. -/
theorem deadReaderStaysDead : Obligations.DeadReaderStaysDead := fun _ _ =>
  ⟨exec_brRead_of_dead, exec_brRead_of_closed⟩

/-- Settles O11: no bit is asked for, so the refill does not look at the source. -/
theorem readOfWidthZeroReturnsZero : Obligations.ReadOfWidthZeroReturnsZero := fun s hst =>
  exec_brRead_of_ok hst (readBr_zero s.bsrc s.br0)

end Sys2Proof.Machine
end

section
/-! What SC's reader gives a symbol step, and the steps of SC that run no symbol: start, chunk
fetch, width guard and completion (41_samplecodec.md R160 to R168, R180). -/

namespace Sys2Proof.Machine

/-! ### The codec parameters in force (00_scope.md R8, 10_state.md R29) -/

section
variable (s : State)

theorem State.params_defaultWidth : s.params.defaultWidth = maxWidth s.sc.depth16 :=
  codecParams_defaultWidth_eq_maxWidth s.biases s.sc.depth16

theorem State.params_lowerBias : s.params.lowerBias = lowerBiasOf s.biases s.sc.depth16 :=
  codecParams_lowerBias s.biases s.sc.depth16

theorem State.params_upperBias : s.params.upperBias = upperBiasOf s.biases s.sc.depth16 :=
  codecParams_upperBias s.biases s.sc.depth16

theorem State.params_fetchWidth : s.params.fetchWidth = fwWidth s.sc.depth16 := by
  rw [State.params]; cases s.sc.depth16 <;> rfl

theorem State.params_maxBlock :
    s.params.maxBlock = if s.sc.depth16 then 16384 else 32768 := by
  rw [State.params]; cases s.sc.depth16 <;> rfl

end

theorem maxWidth_le (d : Bool) : maxWidth d ≤ 17 := by cases d <;> decide

theorem fwWidth_le (d : Bool) : fwWidth d ≤ 4 := by cases d <;> decide

/-! ### The symbol step (R166 to R168) -/

/-- What a reader holds after the read of the next `w` stream bits (R136, R137). -/
structure ReadPast (m : Memory) (w : Nat) (r r' : Br) : Prop where
  res : r'.res.toNat = nextBits m r w
  bitPos : bitPos r' = bitPos r + w
  ready : readyInv m r'
  binding : sameBinding r r'

/-- A field of SC's stream, a symbol or the FW field, is read exactly where its bits are left. -/
theorem readBr_field {m : Memory} {w : Nat} {r : Br} (hr : readyInv m r) (hw : w ≤ 31) :
    (8 * r.len < bitPos r + w ∧ readBr m w r = .error .endOfStream) ∨
    (¬8 * r.len < bitPos r + w ∧ ∃ r', readBr m w r = .ok r' ∧ ReadPast m w r r') := by
  by_cases hend : 8 * r.len < bitPos r + w
  · exact .inl ⟨hend, readBr_of_pastEnd hr (by omega) hend⟩
  · obtain ⟨r', hread⟩ :=
      readBr_of_bitsLeft (w := (w : Int)) hr (by omega) (Nat.le_of_not_lt hend)
    obtain ⟨hready, hbit⟩ := readBr_readyInv hread hr
    exact .inr ⟨hend, r', hread, readBr_res_toNat hread hr, hbit, hready,
      readBr_sameBinding hread⟩

/-- A symbol cut by the end of its chunk is the reader's error (R168). -/
theorem scTurn_symbolError {s : State} {k : ErrKind} (hst : s.sc.st = .busy) (hblk : 0 < s.sc.blk)
    (hw : s.sc.w.toNat ≤ s.params.defaultWidth)
    (hread : readBr s.ssrc s.sc.w.toNat s.sc.br = .error k) :
    scTurn s = .next (raise .scBr k s) := by
  rw [scTurn_of_busy hst, fetchSc_symbol hblk, fetchSymbol, if_neg (Nat.not_lt.mpr hw), hread]
  rfl

/-- Settles O18: at a legal width the read either passes the end of the chunk or gives the next
stream bits, and every value of a legal width is a symbol. -/
theorem symbolStepRunsTheNextStreamBits : Obligations.SymbolStepRunsTheNextStreamBits := by
  intro s hst hblk hone hmax hr
  have hlegal : s.sc.w.toNat ≤ s.params.defaultWidth := by rwa [s.params_defaultWidth]
  have hfits : s.sc.w.toNat ≤ 31 := by have := maxWidth_le s.sc.depth16; omega
  rcases readBr_field hr hfits with ⟨hend, herror⟩ | ⟨hin, r, hread, hpast⟩
  · rw [if_pos hend]
    exact scTurn_symbolError hst hblk hlegal herror
  · rw [if_neg hin]
    obtain ⟨hres, hbit, hready, hst', herr, hbase, hlen⟩ := hpast
    obtain ⟨i, hdecode, -⟩ := decodeSymbol_actsAsSymbol hone hlegal (readBr_res_lt hread)
    obtain ⟨hwf, -⟩ := wellFormed_of_decodeSymbol hdecode
    have hbits : decode s.params (.sym s.sc.w.toNat (nextBits s.ssrc s.sc.br s.sc.w.toNat)) =
        .ok i := hres ▸ hdecode
    exact ⟨i, r, hbits, hwf, scTurn_symbol hst hblk hlegal hread hdecode, hbit, hready,
      hst', herr, hbase, hlen, hres⟩

/-- Settles O17: the guard comes before the symbol's read and does not see the reader. -/
theorem illegalWidthIsDecodingError : Obligations.IllegalWidthIsDecodingError :=
  fun s hst hblk hw => scTurn_illegalWidth hst hblk (s.params_defaultWidth ▸ hw)

/-! ### Block isolation (R184) -/

/-- Settles O29: between blocks the width, the accumulators and the reader may be any and the
outputs differ, so the two machines are on the same course, and SC's turns keep them there. -/
theorem blocksAreIsolated : Obligations.BlocksAreIsolated := by
  intro s w mem1 mem2 br out n _ hblk
  have hsame : SameDecode s.sc.out out s
      { s with sc := { s.sc with w := w, mem1 := mem1, mem2 := mem2, br := br, out := out } } :=
    ⟨rfl, rfl, rfl, rfl, fun _ => ⟨rfl, ⟨[], by simp⟩, fun hopen => absurd hblk (by omega)⟩⟩
  obtain ⟨t, u, hrun, hrun', htu⟩ := hsame.run n
  exact ⟨t, u, hrun, hrun', htu.st, htu.err, fun hfault => (htu.course hfault).output⟩

/-! ### The chunk fetch (R163 to R165) -/

/-- The length of a header is little-endian (R163, R64). -/
theorem chunkLength_eq (m : Memory) (a : Nat) :
    chunkLength m a = (readByte m a).toNat + 256 * (readByte m (a + 1)).toNat := by
  have hlow := (readByte m a).isLt
  rw [chunkLength, BitVec.toNat_append, ← Nat.shiftLeft_add_eq_or_of_lt hlow, Nat.shiftLeft_eq]
  omega

/-- A chunk whose header is inside SSRC runs SC.CHUNK with the length in the header. -/
theorem scTurn_chunkLength {s : State} (hst : s.sc.st = .busy) (hblk : s.sc.blk = 0)
    (hrem : 0 < s.sc.rem) (hin : s.sc.spos + 2 ≤ s.sc.srclen) :
    scTurn s = exec (.scChunk (BitVec.ofNat 16 (chunkLength s.ssrc s.sc.spos))) s := by
  rw [chunkLength, BitVec.ofNat_toNat, BitVec.setWidth_eq]
  exact scTurn_header hst hblk hrem hin rfl

/-- Settles O16: the turn between blocks by where header and payload end. -/
theorem chunkFetchChecksHeaderAndPayload : Obligations.ChunkFetchChecksHeaderAndPayload := by
  intro s hst hrem hblk
  have hturn := scTurn_chunk hst hblk hrem
  have hexec := scTurn_chunkLength hst hblk hrem
  rw [chunkLength_eq] at hturn hexec
  dsimp only
  split_ifs with hheader hpayload
  · rw [hturn, if_pos (by omega)]
  · rw [hturn, if_pos hpayload]
  · rw [if_neg hpayload] at hturn
    exact ⟨_, hturn, hexec (Nat.le_of_not_lt hheader), hst, rfl, rfl, rfl⟩

/-- A chunk inside SSRC, where it is enabled, opens a block on its payload. -/
theorem exec_scChunk_inside {len : BitVec 16} {s : State} (hst : s.sc.st = .busy)
    (hrem : 0 < s.sc.rem) (hblk : s.sc.blk = 0) (hin : s.sc.spos + 2 + len.toNat ≤ s.sc.srclen) :
    exec (.scChunk len) s =
      .next { s with sc := startBlock s.params (Config.freeBr s.free) len.toNat s.sc,
                     free := s.free + 1 } := by
  have hen : (s.sc.st.isBusy && decide (0 < s.sc.rem) && decide (s.sc.blk = 0)) = true := by
    simp [hst, hrem, hblk, UnitStatus.isBusy]
  show execScChunk len s = _
  rw [execScChunk, if_pos hen, chunkLenBytes, if_neg (by omega), if_neg (by omega)]

/-- Settles O15: every register the block needs is written, none from the block before. -/
theorem chunkOpensAFreshBlock : Obligations.ChunkOpensAFreshBlock := by
  intro len s hst hrem hblk hin
  refine ⟨openBr (Config.freeBr s.free) (s.sc.spos + 2) len.toNat, ?_, ?_, rfl, rfl, rfl, rfl, rfl,
    rfl, rfl⟩
  · rw [exec_scChunk_inside hst hrem hblk hin, startBlock, s.params_maxBlock,
      s.params_defaultWidth]
  · split <;> omega

/-! ### Start and completion (R160, R180, R223) -/

/-- Settles O13: the start command on a SC that is not BUSY replaces its configuration and its
counts. -/
theorem scDecodeStartsTheCodec : Obligations.ScDecodeStartsTheCodec :=
  fun slen depth16 so srclen _ hst =>
    ⟨_, execScDecode_of_not_busy slen depth16 so srclen hst, rfl, rfl, rfl, rfl, rfl, rfl, rfl,
      rfl, rfl, rfl, rfl⟩

theorem fetchPd_complete {s : State} (hcmd : s.pd.cmd = none) (hrow : s.pd.row = s.pd.rows) :
    fetchPd s = .silent (s.setPd (pdComplete s.pd)) := by
  simp only [fetchPd, hcmd, hrow, lt_irrefl, if_false]

/-- Settles O28: with nothing left to fetch, the fetch of either unit is its completion. -/
theorem finishedUnitsBecomeDone : Obligations.FinishedUnitsBecomeDone := by
  refine fun s => ⟨fun hst hblk hrem => ?sc, fun hst hcmd hrow => ?pd⟩
  case sc =>
    rw [scTurn_of_busy hst, fetchSc_complete hblk hrem]
    rfl
  case pd =>
    rw [pdTurn_of_busy hst, fetchPd_complete hcmd hrow]
    rfl

end Sys2Proof.Machine
end

section
/-! The delta symbols: the value a symbol adds and the sample it emits (00_scope.md R13,
41_samplecodec.md R170, R173, R174, R176 to R178). -/

namespace Sys2Proof.Machine

/-! ### `sext_N` (R13) -/

/-- `sext_N` is the balanced remainder modulo `2 ^ N`. -/
theorem sextInt_eq_bmod {n : Nat} (hn : 1 ≤ n) (x : Int) : sextInt n x = x.bmod (2 ^ n) := by
  obtain ⟨k, rfl⟩ := Nat.exists_eq_add_of_le' hn
  have hhalf : (((2 ^ (k + 1) : Nat) : Int) + 1) / 2 = 2 ^ k := by
    push_cast
    rw [pow_succ]
    omega
  rw [sextInt, Int.bmod, hhalf]
  push_cast
  rfl

/-- Two numbers that agree modulo `2 ^ m` have the same `sext_N` for every `N` up to `m`: only the
low `N` bits matter (R178). -/
theorem sextInt_bmod {n m : Nat} (hn : 1 ≤ n) (h : n ≤ m) (x : Int) :
    sextInt n (x.bmod (2 ^ m)) = sextInt n x := by
  rw [sextInt_eq_bmod hn, sextInt_eq_bmod hn, Int.bmod_bmod_of_dvd (Nat.pow_dvd_pow 2 h)]

theorem sextInt_ofInt {n m : Nat} (hn : 1 ≤ n) (h : n ≤ m) (x : Int) :
    sextInt n (BitVec.ofInt m x).toInt = sextInt n x := by
  rw [BitVec.toInt_ofInt, sextInt_bmod hn h]

theorem toInt_setWidth_eq_sextInt {n m : Nat} (hn : 1 ≤ n) (h : n ≤ m) (x : BitVec m) :
    (x.setWidth n).toInt = sextInt n x.toInt := by
  rw [BitVec.toInt_setWidth, BitVec.toInt_eq_toNat_bmod, sextInt_bmod hn h, sextInt_eq_bmod hn]

/-- The element emitted is `sext_N` of the accumulator (R177). -/
theorem sampleOf_toInt (d : Bool) (acc : Word) :
    (sampleOf d acc).toInt = sextInt (nativeWidth d) acc.toInt := by
  cases d with
  | true => exact toInt_setWidth_eq_sextInt (by norm_num) (by norm_num) acc
  | false =>
      show ((acc.setWidth 8).signExtend 16).toInt = sextInt 8 acc.toInt
      rw [BitVec.toInt_signExtend_of_le (by norm_num)]
      exact toInt_setWidth_eq_sextInt (by norm_num) (by norm_num) acc

theorem nativeWidth_bounds (d : Bool) : 1 ≤ nativeWidth d ∧ nativeWidth d ≤ 32 := by
  cases d <;> decide

/-! ### The value added (R98, R176) -/

/-- With its top bit named, a value adds its signed reading (R98). -/
theorem writeDelta_topBit {w v : Nat} (hw : 1 ≤ w) (hv : v < 2 ^ w) :
    writeDelta v (topBit w) = sextInt w v := by
  have hbit : v &&& topBit w ≠ 0 ↔ 2 ^ (w - 1) ≤ v := by
    rw [← topBitSet_iff hw hv, topBit, Nat.and_two_pow, topBitSet]
    cases v.testBit (w - 1) <;> simp
  have hpos : topBit w ≠ 0 := (Nat.two_pow_pos _).ne'
  have hmod : (v : Int) % 2 ^ w = v := Int.emod_eq_of_lt (by omega) (by exact_mod_cast hv)
  have htwo : (2 * topBit w : Int) = 2 ^ w := by
    exact_mod_cast mul_pow_sub_one (Nat.ne_of_gt hw) 2
  have hneg : (v : Int) < 2 ^ (w - 1) ↔ ¬2 ^ (w - 1) ≤ v := by
    rw [Nat.not_le]; exact_mod_cast Iff.rfl
  simp only [writeDelta, sextInt, hpos, ne_eq, not_false_eq_true, true_and, hmod, htwo, hneg,
    ← hbit, ite_not]

/-- With the sign conversion off, the value is added as it is (R174). -/
theorem writeDelta_zero (v : Nat) : writeDelta v 0 = v := rfl

theorem lowPart_eq_mod (w v : Nat) : lowPart w v = v % 2 ^ (w - 1) :=
  Nat.and_two_pow_sub_one_eq_mod v (w - 1)

/-! ### `write` (R176, R177) -/

/-- `write` is a delta that emits the accumulator it leaves in the output path. -/
theorem writeSample_eq_afterDelta (value tb : Nat) (c : Sc) :
    writeSample value tb c = afterDelta c (writeDelta value tb)
      (sampleOf c.depth16 (emitted c (writeDelta value tb))) := rfl

section
variable {s : State} {i : Instr} {w v value tb : Nat} {e : Int}

/-- An instruction that writes a value whose delta is `e` adds `e` and emits `sext_N` of the
accumulator. -/
theorem emits_of_writeSample (hexec : exec i s = .next (s.setSc (writeSample value tb s.sc)))
    (he : writeDelta value tb = e) :
    ∃ x : Sample, x.toInt = sextInt (nativeWidth s.sc.depth16) (emitted s.sc e).toInt ∧
      exec i s = .next { s with sc := afterDelta s.sc e x } := by
  rw [writeSample_eq_afterDelta, he] at hexec
  exact ⟨_, sampleOf_toInt _ _, hexec⟩

theorem exec_scADelta (hen : symbolEnabled w s.sc = true) (hmode : isModeA w = true)
    (hfits : fits w v = true) (htb : v ≠ topBit w) :
    exec (.scADelta w v) s = .next (s.setSc (writeSample v (topBit w) s.sc)) :=
  if_pos (by simp [hen, hmode, hfits, htb])

theorem exec_scBDelta (hen : symbolEnabled w s.sc = true) (hmode : isModeB s.params w = true)
    (hfits : fits w v = true) (hwin : ¬inWindow s.params w v = true) :
    exec (.scBDelta w v) s = .next (s.setSc (writeSample v (topBit w) s.sc)) :=
  if_pos (by simp [hen, hmode, hfits, hwin])

theorem exec_scCDelta (hen : symbolEnabled w s.sc = true) (hmode : isModeC s.params w = true)
    (hfits : fits w v = true) (htop : ¬topBitSet w v = true) :
    exec (.scCDelta w v) s = .next (s.setSc (writeSample (lowPart w v) 0 s.sc)) :=
  if_pos (by simp [hen, hmode, hfits, htop])

/-- The escape window in force, in the words of the spec (R102, R172). -/
theorem inWindow_params_iff : inWindow s.params w v = true ↔
    (2 ^ (w - 1) : Int) + lowerBiasOf s.biases s.sc.depth16 ≤ v ∧
      (v : Int) ≤ 2 ^ (w - 1) + upperBiasOf s.biases s.sc.depth16 := by
  rw [inWindow_iff, s.params_lowerBias, s.params_upperBias, topBit]
  push_cast
  rfl

theorem isModeB_params (h6 : 6 < w) (hmax : w < maxWidth s.sc.depth16) :
    isModeB s.params w = true :=
  (isModeB_iff _ w).mpr ⟨h6, by rwa [s.params_defaultWidth]⟩

theorem isModeC_params (hmax : w = maxWidth s.sc.depth16) : isModeC s.params w = true :=
  (isModeC_iff _ w).mpr ⟨hmax ▸ six_lt_maxWidth _, by rwa [s.params_defaultWidth]⟩

end

/-- Settles O19: the symbol writes its value under its top bit. -/
theorem modeADeltaAddsSignedValue : Obligations.ModeADeltaAddsSignedValue :=
  fun w v s hst hblk hsw h1 h6 hv htb =>
    emits_of_writeSample
      (exec_scADelta ((symbolEnabled_iff w s.sc).mpr ⟨hst, hblk, hsw⟩)
        ((isModeA_iff w).mpr ⟨h1, h6⟩) ((fits_iff w v).mpr hv) htb)
      (writeDelta_topBit h1 hv)

/-- Settles O20: outside the window, wherever the biases put it, the symbol writes its value under
its top bit. -/
theorem modeBDeltaAddsSignedValue : Obligations.ModeBDeltaAddsSignedValue :=
  fun w v s hst hblk hsw h6 hmax hv hwin =>
    emits_of_writeSample
      (exec_scBDelta ((symbolEnabled_iff w s.sc).mpr ⟨hst, hblk, hsw⟩) (isModeB_params h6 hmax)
        ((fits_iff w v).mpr hv) (mt inWindow_params_iff.mp hwin))
      (writeDelta_topBit (by omega) hv)

/-- Settles O21: with the top bit clear the low part is the value itself. -/
theorem modeCDeltaAddsUnsignedValue : Obligations.ModeCDeltaAddsUnsignedValue := by
  intro w v s hst hblk hsw hmax hv
  have hone : 1 ≤ w := by have := six_lt_maxWidth s.sc.depth16; omega
  have hfits : v < 2 ^ w := hv.trans_le (Nat.pow_le_pow_right (by norm_num) (Nat.sub_le w 1))
  have hclear : ¬topBitSet w v = true := mt (topBitSet_iff hone hfits).mp (Nat.not_le.mpr hv)
  refine emits_of_writeSample
    (exec_scCDelta ((symbolEnabled_iff w s.sc).mpr ⟨hst, hblk, hsw⟩) (isModeC_params hmax)
      ((fits_iff w v).mpr hfits) hclear) ?_
  rw [writeDelta_zero, lowPart_eq_mod, Nat.mod_eq_of_lt hv]

/-! ### A list of writes (R178) -/

/-- The values a list of deltas puts in the output path, from accumulators at `a` and `b`. -/
def outputSums (so : Bool) (a b : Int) (es : List Int) : List Int :=
  if so then runningSums b (runningSums a es) else runningSums a es

@[simp] theorem outputSums_nil (so : Bool) (a b : Int) : outputSums so a b [] = [] := by
  cases so <;> rfl

@[simp] theorem outputSums_cons (so : Bool) (a b e : Int) (es : List Int) :
    outputSums so a b (e :: es) =
      (if so then b + (a + e) else a + e) :: outputSums so (a + e) (b + (a + e)) es := by
  cases so <;> rfl

/-- The accumulator in the output path is the running sum modulo 2^32. -/
theorem emitted_ofInt {c : Sc} {a b : Int} (h1 : c.mem1 = BitVec.ofInt 32 a)
    (h2 : c.mem2 = BitVec.ofInt 32 b) (e : Int) :
    emitted c e = BitVec.ofInt 32 (if c.so then b + (a + e) else a + e) := by
  rw [emitted, h1, h2]
  split <;> simp only [BitVec.ofInt_add]

/-- Writes from accumulators that hold `a` and `b` modulo 2^32 append the samples of the sums that
go on from `a` and `b`: by induction on the writes. -/
theorem foldl_writeSample_out (l : List (Nat × Nat)) {c : Sc} {a b : Int}
    (h1 : c.mem1 = BitVec.ofInt 32 a) (h2 : c.mem2 = BitVec.ofInt 32 b) :
    ∃ xs : List Sample,
      (l.foldl (fun c p => writeSample p.1 p.2 c) c).out = c.out ++ xs ∧
      xs.map BitVec.toInt =
        (outputSums c.so a b (l.map fun p => writeDelta p.1 p.2)).map
          (sextInt (nativeWidth c.depth16)) := by
  induction l generalizing c a b with
  | nil => exact ⟨[], by simp⟩
  | cons p l ih =>
      obtain ⟨value, tb⟩ := p
      have h1' : (writeSample value tb c).mem1 = BitVec.ofInt 32 (a + writeDelta value tb) := by
        rw [writeSample_mem1, h1, BitVec.ofInt_add]
      have h2' : (writeSample value tb c).mem2 =
          BitVec.ofInt 32 (b + (a + writeDelta value tb)) := by
        rw [writeSample_mem2, h1', h2, ← BitVec.ofInt_add]
      obtain ⟨xs, hout, hxs⟩ := ih h1' h2'
      have hsample : (sampleOf c.depth16 (emitted c (writeDelta value tb))).toInt =
          sextInt (nativeWidth c.depth16) (if c.so then b + (a + writeDelta value tb)
            else a + writeDelta value tb) := by
        obtain ⟨hone, hle⟩ := nativeWidth_bounds c.depth16
        rw [sampleOf_toInt, emitted_ofInt h1 h2, sextInt_ofInt hone hle]
      refine ⟨sampleOf c.depth16 (emitted c (writeDelta value tb)) :: xs, ?_, ?_⟩
      · rw [List.foldl_cons, hout, writeSample_eq_afterDelta, afterDelta, List.append_assoc]
        rfl
      · rw [List.map_cons, hsample, hxs, List.map_cons, outputSums_cons, List.map_cons]
        rfl

/-- Settles O27: zero accumulators hold the sums of no delta. -/
theorem samplesAreRunningSumsOfDeltas : Obligations.SamplesAreRunningSumsOfDeltas :=
  fun l _ h1 h2 => foldl_writeSample_out l (a := 0) (b := 0) h1 h2

end Sys2Proof.Machine
end

section
/-! The width symbols: the escapes of Mode A and Mode B and the absolute width of Mode C
(41_samplecodec.md R169, R171, R172, R175). -/

namespace Sys2Proof.Machine

/-! ### `change_width` (R171) -/

theorem changeWidth_eq (w d : Nat) : changeWidth w d = if d + 1 < w then d + 1 else d + 2 := by
  by_cases h : d + 1 < w
  · rw [if_pos h, changeWidth, if_neg (Nat.not_le.mpr h)]
  · rw [if_neg h, changeWidth_of_le (Nat.le_of_not_lt h)]

theorem changeWidth_ne (w d : Nat) : changeWidth w d ≠ w := by
  rw [changeWidth_eq]
  split <;> omega

theorem changeWidth_le (w d : Nat) : changeWidth w d ≤ d + 2 := by
  rw [changeWidth_eq]
  split <;> omega

theorem changeWidth_lt_succ (w d : Nat) : changeWidth w d < changeWidth w (d + 1) := by
  rw [changeWidth_eq, changeWidth_eq]
  split_ifs <;> omega

/-- A width below the current one is its delta plus one, a width above it its delta plus two. -/
theorem exists_changeWidth_eq {w x : Nat} (hw : 1 ≤ w) (hx : 1 ≤ x) (hne : x ≠ w) :
    ∃ d, changeWidth w d = x := by
  rcases Nat.lt_or_gt_of_ne hne with hlt | hgt
  · exact ⟨x - 1, by rw [changeWidth_eq, if_pos (by omega)]; omega⟩
  · exact ⟨x - 2, by rw [changeWidth_eq, if_neg (by omega)]; omega⟩

/-- Settles O26: the deltas number the widths in order, the current one left out. -/
theorem changeWidthSkipsTheCurrentWidth : Obligations.ChangeWidthSkipsTheCurrentWidth :=
  fun w hw => ⟨fun d => ⟨changeWidth_ne w d, changeWidth_eq w d⟩, changeWidth_lt_succ w,
    fun _ hx hne => exists_changeWidth_eq hw hx hne⟩

/-! ### The symbols -/

/-- A width the register holds is written as it is, and nothing else changes. -/
theorem State.setWidth_of_lt {s : State} {x : Nat} (h : x < 2 ^ 17) :
    s.setWidth x = { s with sc := { s.sc with w := BitVec.ofNat 17 x } } := by
  rcases s.setWidth_cases x with ⟨-, hset⟩ | ⟨hle, -⟩
  · exact hset
  · omega

section
variable {s : State} {w v : Nat}

theorem exec_scAEsc_of_error {k : ErrKind} (hen : symbolEnabled w s.sc = true)
    (hmode : isModeA w = true) (hread : readBr s.ssrc s.params.fetchWidth s.sc.br = .error k) :
    exec (.scAEsc w) s = .next (raise .scBr k s) := by
  show execScAEsc w s = _
  rw [execScAEsc, if_pos (by rw [hen, hmode]; rfl), hread]

theorem exec_scAEsc_of_ok {r : Br} (hen : symbolEnabled w s.sc = true)
    (hmode : isModeA w = true) (hread : readBr s.ssrc s.params.fetchWidth s.sc.br = .ok r) :
    exec (.scAEsc w) s =
      .next ((s.setSc { s.sc with br := r }).setWidth (changeWidth w r.res.toNat)) := by
  show execScAEsc w s = _
  rw [execScAEsc, if_pos (by rw [hen, hmode]; rfl), hread]

theorem exec_scCSetw (hen : symbolEnabled w s.sc = true) (hmode : isModeC s.params w = true)
    (hfits : fits w v = true) (htop : topBitSet w v = true) :
    exec (.scCSetw w v) s = .next (s.setWidth (lowPart w v + 1)) :=
  if_pos (by simp [hen, hmode, hfits, htop])

end

/-- Settles O22: the FW field is read exactly where its bits are left, and `FW` bits name a width
the register holds. -/
theorem modeAEscapeChangesTheWidth : Obligations.ModeAEscapeChangesTheWidth := by
  intro w s hst hblk hsw h1 h6 hr
  have hen := (symbolEnabled_iff w s.sc).mpr ⟨hst, hblk, hsw⟩
  have hmode := (isModeA_iff w).mpr ⟨h1, h6⟩
  have hfw := fwWidth_le s.sc.depth16
  rcases readBr_field hr (hfw.trans (by norm_num)) with ⟨hend, herror⟩ | ⟨hin, r, hread, hpast⟩
  · rw [if_pos hend]
    exact exec_scAEsc_of_error hen hmode (by rwa [s.params_fetchWidth])
  · rw [if_neg hin]
    obtain ⟨hres, hbit, hready, hst', herr, hbase, hlen⟩ := hpast
    have hexec := exec_scAEsc_of_ok hen hmode (by rwa [s.params_fetchWidth])
    have hd : r.res.toNat < 2 ^ fwWidth s.sc.depth16 := readBr_res_lt hread
    have hsmall : 2 ^ fwWidth s.sc.depth16 ≤ 2 ^ 4 := Nat.pow_le_pow_right (by norm_num) hfw
    have hx := changeWidth_le w r.res.toNat
    have hone := one_le_changeWidth w r.res.toNat
    have hne := changeWidth_ne w r.res.toNat
    rw [State.setWidth_of_lt (by omega)] at hexec
    rw [changeWidth_eq, hres] at hexec hx hone hne
    rw [hres] at hd
    exact ⟨r, hexec, hbit, hready, hst', herr, hbase, hlen, hres, hne, hone, hx.trans (by omega)⟩

/-- The delta of a symbol inside the window is its distance from the window's lower end (R172). -/
theorem escapeDelta_of_inWindow {s : State} {w v : Nat}
    (hlower : (2 ^ (w - 1) : Int) + lowerBiasOf s.biases s.sc.depth16 ≤ v) :
    (escapeDelta s.params w v : Int) =
      v - (2 ^ (w - 1) + lowerBiasOf s.biases s.sc.depth16) := by
  rw [escapeDelta, s.params_lowerBias, topBit]
  push_cast
  omega

/-- Settles O23: the delta is the distance from the window's lower end, and a width that fits the
register is written. -/
theorem modeBEscapeChangesTheWidth : Obligations.ModeBEscapeChangesTheWidth := by
  intro w v s hst hblk hsw h6 hmax hv hlower hupper
  refine ⟨_, escapeDelta s.params w v, escapeDelta_of_inWindow hlower, rfl, fun hx => ?_⟩
  rw [exec_scBEsc ((symbolEnabled_iff w s.sc).mpr ⟨hst, hblk, hsw⟩) (isModeB_params h6 hmax)
    ((fits_iff w v).mpr hv) (inWindow_params_iff.mpr ⟨hlower, hupper⟩), changeWidth_eq,
    State.setWidth_of_lt hx]

/-- Settles O25: with the top bit set the low part is the value less the top bit. -/
theorem modeCSetsTheWidthAbsolutely : Obligations.ModeCSetsTheWidthAbsolutely := by
  intro w v s hst hblk hsw hmax hset hv
  have hW0 := maxWidth_le s.sc.depth16
  have hone : 1 ≤ w := by have := six_lt_maxWidth s.sc.depth16; omega
  have hdouble : 2 * 2 ^ (w - 1) = 2 ^ w := mul_pow_sub_one (Nat.ne_of_gt hone) 2
  have hlow : lowPart w v = v - 2 ^ (w - 1) := by
    rw [lowPart_eq_mod, Nat.mod_eq_sub_mod hset, Nat.mod_eq_of_lt (by omega)]
  have hle : 2 ^ (w - 1) ≤ 2 ^ 16 := Nat.pow_le_pow_right (by norm_num) (by omega)
  refine ⟨?_, Nat.le_add_left 1 _, by rw [← hmax]; omega⟩
  rw [exec_scCSetw ((symbolEnabled_iff w s.sc).mpr ⟨hst, hblk, hsw⟩) (isModeC_params hmax)
    ((fits_iff w v).mpr hv) ((topBitSet_iff hone hv).mpr hset), hlow,
    State.setWidth_of_lt (by omega)]

end Sys2Proof.Machine
end

section
/-! The fields of a pattern command, one at a time (30_encoding.md R95, 42_patterndecoder.md R212,
R217 to R220): each reads its bytes under its present bit, repeats the stored value under its repeat
bit, and raises exactly where it reads and a byte is missing. -/

namespace Sys2Proof.Machine

/-! ### A field wherever POS stands

`fieldOf_eq` asks for POS inside the length. A field that reads nothing needs no byte, so with the
reading in its condition the rule holds from every PD. -/

section
variable {m : Memory} {k : PdCmd} {p : Pd} {y : Slot}

/-- A field repeated, or not selected, needs no byte (R217 to R220). -/
theorem fieldOf_of_not_reads (h : Slot.reads k.mask y = false) :
    fieldOf y m k p = some (k.doneIn y p, p) := by
  by_cases hy : y = .eff
  · subst hy
    dsimp only [fieldOf, fieldEff, PdCmd.doneIn, entryWith]
    rw [h]
    cases Slot.selected k.mask .eff <;> rfl
  · rw [fieldOf_of_ne_eff hy, storeByte, h]
    rfl

/-- A field that reads raises with POS at or past the length (R211). -/
theorem fieldOf_of_missing (h : Slot.reads k.mask y = true) (hpos : p.srclen ≤ p.pos) :
    fieldOf y m k p = none := by
  by_cases hy : y = .eff
  · subst hy
    dsimp only [fieldOf, fieldEff]
    rw [if_pos h, if_pos (by omega)]
  · rw [fieldOf_of_ne_eff hy, storeByte, if_pos h, nextByte_eq_none.mpr hpos]
    rfl

/-- A repeated field consumes nothing and leaves the record (R217 to R220). -/
theorem afterField_of_not_reads (h : Slot.reads k.mask y = false) :
    afterField m y k p = (k.doneIn y p, p) := by
  have hbytes : fieldBytes k.mask y = 0 := by
    have hbit := reads_toNat k.mask y
    rw [h] at hbit
    cases y with
    | note | ins | vol => exact hbit.symm
    | eff => exact congrArg (2 * ·) hbit.symm
  have hrecord : recordWith m k.mask p.pos (p.chan k.chan) y = p.chan k.chan := by
    cases y <;> simp [recordWith, h]
  rw [afterField, hbytes, hrecord, Nat.add_zero, advance_self]

/-- A field raises exactly where it reads and a byte of it is missing (R211, R217 to R220). -/
theorem fieldOf_eq_ite : fieldOf y m k p =
    if Slot.reads k.mask y = true ∧ p.srclen < p.pos + fieldBytes k.mask y then none
    else some (afterField m y k p) := by
  cases h : Slot.reads k.mask y with
  | false =>
      rw [fieldOf_of_not_reads h, afterField_of_not_reads h, if_neg (by simp)]
  | true =>
      by_cases hpos : p.pos ≤ p.srclen
      · rw [fieldOf_eq y hpos, upTo]
        simp
      · rw [fieldOf_of_missing h (by omega), if_pos ⟨rfl, by omega⟩]

end

/-! ### The next field of the command in progress -/

section
variable {s : State} {k : PdCmd} {m : Byte} {y : Slot}

/-- A field sub-operation on the command in progress, its field the next to do (R212). -/
theorem fieldStep_of_enabled (op : Memory → PdCmd → Pd → Option (PdCmd × Pd))
    (hst : s.pd.st = .busy) (hcmd : s.pd.cmd = some k) (hmask : k.mask = m)
    (hsel : Slot.selected m y = true) (hnext : k.todo.head? = some y) :
    fieldStep y op m s =
      pdOutcome s ((op s.psrc k s.pd).map fun q => { q.2 with cmd := some q.1 }) := by
  rw [fieldStep, hcmd]
  exact if_pos (by simp [hst, hmask, hsel, hnext])

/-- The entry after a field the mask selects: the stored value as emitted. -/
def entryOfField (x : ChannelState) (e : PatternEntry) : Slot → PatternEntry
  | .note => { e with note := noteXlat x.note }
  | .ins => { e with instrument := x.ins }
  | .vol => { e with volumeCommand := (volXlat x.vol).1, volumeParam := (volXlat x.vol).2 }
  | .eff => { e with effect := x.eff, effectParam := x.prm }

theorem entryWith_of_selected (x : ChannelState) (e : PatternEntry)
    (h : Slot.selected m y = true) : entryWith m x e y = entryOfField x e y := by
  cases y <;> simp [entryWith, entryOfField, h]

theorem erase_eq_tail {ys : List Slot} (h : ys.head? = some y) : ys.erase y = ys.tail := by
  rw [← List.cons_head?_tail h, List.erase_cons_head, List.tail_cons]

/-- The next field of the command in progress, under every mask that selects it: `cut` says that a
byte it reads is missing, and `x` is the channel's record with the bytes read. -/
theorem fieldStep_reads_or_repeats {cut : Prop} [Decidable cut] {x : ChannelState}
    (hst : s.pd.st = .busy) (hcmd : s.pd.cmd = some k) (hmask : k.mask = m)
    (hnext : k.todo.head? = some y) (hsel : (m.getLsbD y.bit || m.getLsbD (y.bit + 4)) = true)
    (hcut : cut ↔ m.getLsbD y.bit = true ∧ s.pd.srclen < s.pd.pos + fieldBytes m y)
    (hx : recordWith s.psrc m s.pd.pos (s.pd.chan k.chan) y = x) :
    if cut then fieldStep y (fieldOf y) m s = .next (raise .pd .invalidSource s)
    else fieldStep y (fieldOf y) m s =
      .next (s.setPd { s.pd.advance k.chan (s.pd.pos + fieldBytes m y) x with
        cmd := some { k with entry := entryOfField x k.entry y, todo := k.todo.tail } }) := by
  have hsel' : Slot.selected m y = true := by rwa [Slot.selected_eq]
  subst hmask hx
  rw [fieldStep_of_enabled _ hst hcmd rfl hsel' hnext, fieldOf_eq_ite, Slot.reads_eq, afterField,
    PdCmd.doneIn, advance_chan, entryWith_of_selected _ _ hsel', erase_eq_tail hnext]
  by_cases h : cut
  · rw [if_pos h, if_pos (hcut.mp h)]
    rfl
  · rw [if_neg h, if_neg (mt hcut.mpr h)]
    rfl

/-- The one byte of a field is missing exactly where POS is not inside the length (R211). -/
theorem oneByte_cut_iff {i pos len : Nat} :
    (m.getLsbD i = true ∧ len ≤ pos) ↔ (m.getLsbD i = true ∧ len < pos + maskBit m i) :=
  and_congr_right fun h => by rw [maskBit, if_pos h, Nat.lt_succ_iff]

/-- The two bytes of the effect are read both or neither (R220). -/
theorem twoBytes_cut_iff {i pos len : Nat} :
    (m.getLsbD i = true ∧ len < pos + 2) ↔ (m.getLsbD i = true ∧ len < pos + 2 * maskBit m i) :=
  and_congr_right fun h => by rw [maskBit, if_pos h]

end

/-- Settles O36: the note's byte is read under its present bit only, and the entry gets the stored
note translated (R225). -/
theorem noteFieldReadsOrRepeats : Obligations.NoteFieldReadsOrRepeats :=
  fun _ _ _ hst hcmd hmask hnext hsel =>
    fieldStep_reads_or_repeats hst hcmd hmask hnext hsel oneByte_cut_iff
      (by rw [recordWith, Slot.reads_eq]; rfl)

/-- Settles O37: the instrument's byte is read under its present bit only, and emitted as stored. -/
theorem instrumentFieldReadsOrRepeats : Obligations.InstrumentFieldReadsOrRepeats :=
  fun _ _ _ hst hcmd hmask hnext hsel =>
    fieldStep_reads_or_repeats hst hcmd hmask hnext hsel oneByte_cut_iff
      (by rw [recordWith, Slot.reads_eq]; rfl)

/-- Settles O38: the volume's byte is read under its present bit only, and the entry gets the stored
volume translated (R226). -/
theorem volumeFieldReadsOrRepeats : Obligations.VolumeFieldReadsOrRepeats :=
  fun _ _ _ hst hcmd hmask hnext hsel =>
    fieldStep_reads_or_repeats hst hcmd hmask hnext hsel oneByte_cut_iff
      (by rw [recordWith, Slot.reads_eq]; rfl)

/-- Settles O39: both bytes of the effect are read, or neither, and emitted as stored. -/
theorem effectFieldReadsOrRepeats : Obligations.EffectFieldReadsOrRepeats :=
  fun _ _ _ hst hcmd hmask hnext hsel =>
    fieldStep_reads_or_repeats hst hcmd hmask hnext hsel twoBytes_cut_iff
      (by rw [recordWith, Slot.reads_eq]; rfl)

end Sys2Proof.Machine
end

section
/-! The translations of note and volume bytes as tables of naturals (42_patterndecoder.md R225 to
R227). -/

namespace Sys2Proof.Machine

/-- `noteXlat` as a table of naturals (R225). -/
theorem noteXlat_toNat (r : Byte) : (noteXlat r).toNat =
    if r.toNat ≤ 120 then r.toNat + 1 else if 254 ≤ r.toNat then r.toNat else 253 := by
  unfold noteXlat
  split_ifs <;> bv_omega

/-- Settles O40: each range of the table gives its clause, and the table has no 0 and nothing in
122..252. -/
theorem noteTranslationTable : Obligations.NoteTranslationTable := by
  intro r
  rw [noteXlat_toNat]
  have hr := r.isLt
  split_ifs <;> omega

/-- The table of R226 over naturals, its differences those of 8-bit numbers: in 115..124 the
difference is negative (R227). -/
def volTable (v : Nat) : Nat × Nat :=
  if v ≤ 64 then (1, v)
  else if v ≤ 74 then (2, v - 65)
  else if v ≤ 84 then (3, v - 75)
  else if v ≤ 94 then (4, v - 85)
  else if v ≤ 104 then (5, v - 95)
  else if v ≤ 114 then (6, v - 105)
  else if v ≤ 124 then (7, v + 256 - 125)
  else if v ≤ 127 then (0, 0)
  else if v = 128 then (8, 0)
  else if v ≤ 202 then (9, v - 129)
  else if v ≤ 212 then (10, v - 203)
  else (0, 0)

/-- A volume command and its parameter as naturals. -/
def toNats (x : BitVec 4 × Byte) : Nat × Nat := (x.1.toNat, x.2.toNat)

theorem toNats_of_param {c : BitVec 4} {b : Byte} {n : Nat} (h : b.toNat = n) :
    toNats (c, b) = (c.toNat, n) := by
  rw [toNats, h]

/-- Two tables agree when their first ranges do, and on the rest the tables of the rest. -/
theorem toNats_ite {c c' : Prop} [Decidable c] [Decidable c'] {x y : BitVec 4 × Byte}
    {x' y' : Nat × Nat} (hc : c ↔ c') (hx : c → toNats x = x') (hy : ¬c → toNats y = y') :
    toNats (if c then x else y) = if c' then x' else y' := by
  by_cases h : c
  · rw [if_pos h, if_pos (hc.mp h), hx h]
  · rw [if_neg h, if_neg (mt hc.mpr h), hy h]

/-- Range by range the 8-bit table is the table of naturals. -/
theorem volXlat_toNats (r : Byte) : toNats (volXlat r) = volTable r.toNat := by
  repeat refine toNats_ite (by bv_omega) (fun _ => toNats_of_param (by bv_omega)) fun _ => ?_
  rfl

/-- Settles O41: every clause looks its range up in the table of naturals. -/
theorem volumeTranslationTable : Obligations.VolumeTranslationTable := by
  intro r v p
  have hp : p = volTable v := volXlat_toNats r
  rw [hp]
  clear_value v p
  refine ⟨?_, ?_, ?_, ?_, ?_, ?_, ?_, ?_, ?_, ?_, ?_, ?_⟩
  all_goals grind [volTable]

end Sys2Proof.Machine
end

section
/-! The row end, and the finer view of a channel-select command (10_state.md R38,
42_patterndecoder.md R210 to R222): the turns that open a command, do its selected fields and append
its entry end where the whole command ends. -/

namespace Sys2Proof.Machine

/-! ### The fields still to do -/

section
variable {m : Memory} {k : PdCmd} {p : Pd} {y : Slot}

/-- A field neither reads nor writes which command is in progress. -/
theorem fieldOf_setCmd (c : Option PdCmd) : fieldOf y m k { p with cmd := c } =
    (fieldOf y m k p).map fun q => (q.1, { q.2 with cmd := c }) := by
  rw [fieldOf_eq_ite, fieldOf_eq_ite]
  split <;> rfl

/-- A field that answers leaves PD's status, and of the command what `doneIn` says. -/
theorem fieldOf_done {q : PdCmd × Pd} (h : fieldOf y m k p = some q) :
    q.1 = k.doneIn y q.2 ∧ q.2.st = p.st := by
  rw [fieldOf_eq_ite] at h
  split at h
  · cases h
  · cases h
    exact ⟨rfl, rfl⟩

/-- A field the mask does not select, so none still to do, does nothing. -/
theorem fieldOf_of_not_selected (hsel : Slot.selected k.mask y = false) (htodo : y ∉ k.todo) :
    fieldOf y m k p = some (k, p) := by
  have hreads : Slot.reads k.mask y = false := by
    rw [Slot.selected_eq, Bool.or_eq_false_iff, ← Slot.reads_eq] at hsel
    exact hsel.1
  have hentry : entryWith k.mask (p.chan k.chan) k.entry y = k.entry := by
    cases y <;> simp [entryWith, hsel]
  rw [fieldOf_of_not_reads hreads, PdCmd.doneIn, hentry, List.erase_of_not_mem htodo]

/-- Of the fields in order only the selected ones, which are those still to do, do anything. -/
theorem runFields_eq_runFields_todo {ys : List Slot}
    (htodo : k.todo = ys.filter (Slot.selected k.mask)) :
    runFields m ys k p = runFields m k.todo k p := by
  induction ys generalizing k p with
  | nil => rw [htodo, List.filter_nil]
  | cons y ys ih =>
      cases hsel : Slot.selected k.mask y with
      | false =>
          rw [List.filter_cons_of_neg (by simp [hsel])] at htodo
          have hmem : y ∉ k.todo := fun hy => by
            rw [htodo, List.mem_filter, hsel] at hy
            exact Bool.false_ne_true hy.2
          rw [runFields, fieldOf_of_not_selected hsel hmem, Option.bind_some, ih htodo]
      | true =>
          rw [List.filter_cons_of_pos hsel] at htodo
          rw [htodo, runFields, runFields]
          refine Option.bind_congr fun q hq => ?_
          obtain ⟨hdone, -⟩ := fieldOf_done hq
          have hrest : q.1.todo = ys.filter (Slot.selected q.1.mask) := by
            rw [hdone]
            simp [PdCmd.doneIn, htodo]
          rw [ih hrest, hrest, hdone]
          rfl

end

/-! ### PD's turns on a command in progress -/

section
variable {s : State} {k : PdCmd} {m : Byte} {y : Slot}

/-- An operation of PD answers for all of PD, an error too (60_exceptions.md R270). -/
theorem pdOutcome_setPd (p : Pd) (o : Option Pd) : pdOutcome (s.setPd p) o = pdOutcome s o := by
  cases o <;> rfl

/-- A selected field decodes to the instruction of its sub-operation (R95). -/
theorem decodeField_of_selected (h : Slot.selected m y = true) :
    ∃ i, decodeField y m = .ok i ∧ exec i = fieldStep y (fieldOf y) m := by
  cases y <;> exact ⟨_, if_pos h, rfl⟩

theorem pdTurn_idle (h : s.pd.st ≠ .busy) : pdTurn s = .next s :=
  if_neg fun hb => h ((isBusy_iff _).mp hb)

theorem runTurns_pdTurn_idle (n : Nat) (h : s.pd.st ≠ .busy) : runTurns pdTurn n s = .next s := by
  induction n with
  | zero => rfl
  | succ n ih => rw [runTurns, pdTurn_idle h]; exact ih

/-- PD's turn on a command in progress does its next field (R212). -/
theorem pdTurn_nextField {p : Pd} {ys : List Slot} (hst : p.st = .busy) (htodo : k.todo = y :: ys)
    (hsel : Slot.selected k.mask y = true) :
    pdTurn (s.setPd { p with cmd := some k }) =
      pdOutcome s ((fieldOf y s.psrc k p).map fun q => { q.2 with cmd := some q.1 }) := by
  obtain ⟨i, hdecode, hexec⟩ := decodeField_of_selected hsel
  rw [pdTurn_field hst rfl htodo hdecode, hexec,
    fieldStep_of_enabled (fieldOf y) hst rfl rfl hsel (by rw [htodo]; rfl), pdOutcome_setPd,
    State.setPd_psrc, State.setPd_pd, fieldOf_setCmd, Option.map_map]
  rfl

/-- One turn per field still to do and one to append (R212): an error ends the command, and the
turns left over find PD failed. -/
theorem runTurns_todo {p : Pd} (hst : p.st = .busy)
    (hsel : ∀ y ∈ k.todo, Slot.selected k.mask y = true) :
    runTurns pdTurn (k.todo.length + 1) (s.setPd { p with cmd := some k }) =
      pdOutcome s ((runFields s.psrc k.todo k p).map fun q => closeCommand q.1 q.2) := by
  induction htodo : k.todo generalizing k p with
  | nil =>
      have hclose : pdTurn (s.setPd { p with cmd := some k }) =
          .next (s.setPd (closeCommand k p)) := by
        rw [pdTurn_of_busy hst]
        simp only [fetchPd, State.setPd_pd, htodo]
        rfl
      rw [List.length_nil, runTurns, hclose]
      rfl
  | cons y ys ih =>
      rw [htodo] at hsel
      obtain ⟨hy, hys⟩ := List.forall_mem_cons.mp hsel
      rw [List.length_cons, runTurns, pdTurn_nextField hst htodo hy, runFields]
      cases hfield : fieldOf y s.psrc k p with
      | none => exact runTurns_pdTurn_idle _ (by simp)
      | some q =>
          obtain ⟨hdone, hbusy⟩ := fieldOf_done hfield
          have hmask : q.1.mask = k.mask := by rw [hdone]; rfl
          have hrest : q.1.todo = ys := by rw [hdone]; simp [PdCmd.doneIn, htodo]
          exact ih (hbusy.trans hst) (by rwa [hrest, hmask]) hrest

end

/-! ### A row's next command, in both views -/

/-- PD with the byte at POS consumed (R211). -/
def Pd.pastByte (p : Pd) : Pd := { p with pos := p.pos + 1 }

theorem nextByte_inside {m : Memory} {p : Pd} (h : p.pos < p.srclen) :
    nextByte m p = some (readByte m p.pos, p.pastByte) := nextByte_eq_some.mpr ⟨h, rfl, rfl⟩

section
variable {s : State}

theorem pdBeginTurn_of_busy (h : s.pd.st = .busy) : pdBeginTurn s = runFetched (fetchBegin s) :=
  if_pos ((isBusy_iff _).mpr h)

section
variable (hen : commandEnabled s.pd = true)
include hen

theorem fetchPd_of_enabled : fetchPd s = fetchSelect s := by
  obtain ⟨-, hrow, hcmd⟩ := (commandEnabled_iff _).mp hen
  simp only [fetchPd, hcmd, if_pos hrow]

/-- `PD.END` ends the row (R213). -/
theorem exec_pdEnd : exec .pdEnd s = .next (s.setPd (endRow s.pd)) := if_pos hen

/-- Without a byte left, either view raises InvalidSource (R211). -/
theorem turns_of_noByte (hpos : s.pd.srclen ≤ s.pd.pos) :
    pdBeginTurn s = .next (raise .pd .invalidSource s) ∧
      pdTurn s = .next (raise .pd .invalidSource s) := by
  obtain ⟨hst, -⟩ := (commandEnabled_iff _).mp hen
  have hnone := nextByte_eq_none (m := s.psrc).mpr hpos
  refine ⟨(pdBeginTurn_of_busy hst).trans ?_, ?_⟩
  · rw [fetchBegin, if_pos hen, hnone]
    rfl
  · rw [pdTurn_of_busy hst, fetchPd_of_enabled hen, fetchSelect, hnone]
    rfl

/-- At the byte 0, either view ends the row (R213). -/
theorem turns_of_rowEnd (hpos : s.pd.pos < s.pd.srclen) (hb : readByte s.psrc s.pd.pos = 0) :
    pdBeginTurn s = .next (s.setPd (endRow s.pd.pastByte)) ∧
      pdTurn s = .next (s.setPd (endRow s.pd.pastByte)) := by
  obtain ⟨hst, hrow, hcmd⟩ := (commandEnabled_iff _).mp hen
  have hend : exec .pdEnd (s.setPd s.pd.pastByte) = .next (s.setPd (endRow s.pd.pastByte)) :=
    exec_pdEnd (s := s.setPd s.pd.pastByte) hen
  rw [← hend]
  refine ⟨(pdBeginTurn_of_busy hst).trans ?_, pdTurn_select hst hcmd hrow hpos ?_⟩
  · rw [fetchBegin, if_pos hen, nextByte_inside hpos]
    simp only [if_pos hb]
    rw [hb]
    rfl
  · rw [hb]
    rfl

/-- At a select byte, the finer view opens the command where the other does all of it (R212). -/
theorem turns_of_command (hpos : s.pd.pos < s.pd.srclen) (hb : readByte s.psrc s.pd.pos ≠ 0) :
    pdBeginTurn s = pdOutcome s
        ((openCommand s.psrc (readByte s.psrc s.pd.pos) s.pd.pastByte).map
          fun q => { q.2 with cmd := some q.1 }) ∧
      pdTurn s = pdOutcome s
        (selectCommand s.psrc (readByte s.psrc s.pd.pos) s.pd.pastByte) := by
  obtain ⟨hst, hrow, hcmd⟩ := (commandEnabled_iff _).mp hen
  refine ⟨(pdBeginTurn_of_busy hst).trans ?_, ?_⟩
  · rw [fetchBegin, if_pos hen, nextByte_inside hpos]
    simp only [if_neg hb]
    cases openCommand s.psrc (readByte s.psrc s.pd.pos) s.pd.pastByte <;> rfl
  · rw [pdTurn_select hst hcmd hrow hpos (by rw [decode, decodeSelect, if_neg hb, maskFollows_eq])]
    exact (exec_channelSelect (s := s.setPd s.pd.pastByte) hb hen).trans (pdOutcome_setPd _ _)

end

/-- Settles O33: where a row's next command is due, PD.END replaces PD by PD with its row ended. -/
theorem rowEndEmitsTheRow : Obligations.RowEndEmitsTheRow :=
  fun s hst hrow hcmd => exec_pdEnd ((commandEnabled_iff s.pd).mpr ⟨hst, hrow, hcmd⟩)

/-- The command opened has the fields its mask selects to do (R216), so its turns run what is left
of the whole command. -/
theorem runTurns_opened {b : Byte} {p : Pd} {q : PdCmd × Pd} (hst : p.st = .busy)
    (hopen : openCommand s.psrc b p = some q) :
    runTurns pdTurn (q.1.todo.length + 1) (s.setPd { q.2 with cmd := some q.1 }) =
      pdOutcome s (selectCommand s.psrc b p) := by
  obtain ⟨-, -, -, htodo⟩ := openCommand_cmd hopen
  obtain ⟨-, hsel⟩ := openCommand_cmdOk hopen
  obtain ⟨-, -, -, -, -, hbusy, -⟩ := openCommand_samePattern hopen
  rw [runTurns_todo (hbusy.trans hst) hsel, selectCommand_eq_runFields, hopen, Option.bind_some,
    runFields_eq_runFields_todo (ys := allSlots) htodo]

/-- Settles O35: a missing select byte and a row end leave no command in progress, and the turns of
a command opened run its parts in order. -/
theorem fieldStepsComposeToTheWholeCommand : Obligations.FieldStepsComposeToTheWholeCommand := by
  intro s hst hrow hcmd
  have hen := (commandEnabled_iff s.pd).mpr ⟨hst, hrow, hcmd⟩
  by_cases hpos : s.pd.pos < s.pd.srclen
  · by_cases hb : readByte s.psrc s.pd.pos = 0
    · obtain ⟨hbegin, hturn⟩ := turns_of_rowEnd hen hpos hb
      have hnone : (s.setPd (endRow s.pd.pastByte)).pd.cmd = none := hcmd
      exact ⟨_, hbegin, by rw [hnone, hturn]; rfl⟩
    · obtain ⟨hbegin, hturn⟩ := turns_of_command hen hpos hb
      rw [hbegin, hturn]
      cases hopen : openCommand s.psrc (readByte s.psrc s.pd.pos) s.pd.pastByte with
      | none =>
          rw [selectCommand, hopen]
          exact ⟨_, rfl, rfl⟩
      | some q => exact ⟨_, rfl, runTurns_opened hst hopen⟩
  · obtain ⟨hbegin, hturn⟩ := turns_of_noByte hen (Nat.le_of_not_lt hpos)
    exact ⟨_, hbegin, hturn.symm⟩

end

end Sys2Proof.Machine
end

section
/-! Errors and the ends of the decodes (60_exceptions.md R260, R270, R271, R278): what a raise
leaves, what revives a failed unit, and that SC's and PD's turns always answer and, taken in a row,
end in DONE or FAULT. Each turn of a BUSY unit uses up something of its source, or of the command in
progress. -/

namespace Sys2Proof.Machine

/-! ### Runs of one unit -/

/-- Turns of a BUSY unit that each end it, or leave it BUSY with less `ahead` of it, end it after
finitely many, by induction on what is ahead. -/
theorem runTurns_ends {turn : State → Host.Outcome State Fault Refusal} {ended : State → Prop}
    {st : State → UnitStatus} {ahead : State → Nat}
    (hinv : ∀ s t, Inv s → turn s = .next t → Inv t)
    (hturn : ∀ s, Inv s → st s = .busy →
      ∃ t, turn s = .next t ∧ (ended t ∨ (st t = .busy ∧ ahead t < ahead s)))
    {s : State} (hs : Inv s) (hst : st s = .busy) :
    ∃ n t, runTurns turn n s = .next t ∧ Inv t ∧ ended t := by
  induction hn : ahead s using Nat.strong_induction_on generalizing s with
  | _ n ih =>
    obtain ⟨t, hnext, hend | ⟨hbusy, hless⟩⟩ := hturn s hs hst
    · exact ⟨1, t, by rw [runTurns, hnext]; rfl, hinv s t hs hnext, hend⟩
    · obtain ⟨k, u, hrun, hu⟩ := ih _ (hn ▸ hless) (hinv s t hs hnext) hbusy rfl
      exact ⟨k + 1, u, by rw [runTurns, hnext]; exact hrun, hu⟩

/-! ### SC -/

/-- The bits of its source a reader has not consumed. -/
def Br.bitsAhead (r : Br) : Nat := 8 * r.len - bitPos r

/-- A bound on the bits SC can still consume: those of SSRC that no chunk has taken, and those left
in its reader, which the next chunk drops. -/
def Sc.bitsAhead (c : Sc) : Nat := 8 * (c.srclen - c.spos) + c.br.bitsAhead

/-- A read takes its width off the bits ahead (R137). -/
theorem readBr_bitsAhead {m : Memory} {w : Int} {r r' : Br} (h : readBr m w r = .ok r')
    (hr : readyInv m r) : r'.bitsAhead + w.toNat = r.bitsAhead := by
  obtain ⟨⟨hpos, -⟩, hbit⟩ := readBr_readyInv h hr
  obtain ⟨-, -, -, hlen⟩ := readBr_sameBinding h
  have hin : bitPos r' ≤ 8 * r'.len := by unfold bitPos; omega
  unfold Br.bitsAhead
  omega

/-- A chunk's payload is ahead of its reader, its header is gone (R163, R164). -/
theorem startBlock_bitsAhead_lt {cp : CodecParams} {f : Br} {len : Nat} {c : Sc}
    (hin : c.spos + 2 + len ≤ c.srclen) : (startBlock cp f len c).bitsAhead < c.bitsAhead := by
  have hpayload : (openBr f (c.spos + 2) len).bitsAhead ≤ 8 * len := Nat.sub_le _ _
  calc (startBlock cp f len c).bitsAhead
      = 8 * (c.srclen - (c.spos + 2 + len)) + (openBr f (c.spos + 2) len).bitsAhead := rfl
    _ < 8 * (c.srclen - c.spos) + c.br.bitsAhead := by omega

/-- From `c` to `c'` SC ends, by completion or by an error (R180, R270), or stays BUSY with fewer
bits ahead. -/
def scMovesOn (c c' : Sc) : Prop :=
  (c'.st = .done ∨ c'.st = .fault) ∨ (c'.st = .busy ∧ c'.bitsAhead < c.bitsAhead)

section
variable {s : State}

/-- A symbol in an open block answers: it faults in the read of its FW field, or leaves SC BUSY with
no more bits ahead than before. A sample and a width are written without the reader
(R169 to R175). -/
theorem actsAsSymbol.exec_bitsAhead {w : Nat} {i : Instr} (hi : actsAsSymbol s.params w i)
    (hen : symbolEnabled w s.sc = true) (hr : readyInv s.ssrc s.sc.br) :
    ∃ t, exec i s = .next t ∧
      (t.sc.st = .fault ∨ (t.sc.st = .busy ∧ t.sc.bitsAhead ≤ s.sc.bitsAhead)) := by
  obtain ⟨hst, hblk, -⟩ := (symbolEnabled_iff w s.sc).mp hen
  rcases hi with ⟨value, tb, hexec⟩ | ⟨x, -, hexec⟩ | ⟨rfl, hmode⟩
  · exact ⟨_, hexec s rfl hen, .inr ⟨hst, le_rfl⟩⟩
  · exact ⟨_, hexec s rfl hen, .inr ⟨hst, le_rfl⟩⟩
  · cases hread : readBr s.ssrc s.params.fetchWidth s.sc.br with
    | error k => exact ⟨_, exec_scAEsc_of_error hen hmode hread, .inl rfl⟩
    | ok r =>
        have htaken := readBr_bitsAhead hread hr
        have hle : r.bitsAhead ≤ s.sc.br.bitsAhead := by omega
        exact ⟨_, exec_scAEsc_of_ok hen hmode hread, .inr ⟨hst, Nat.add_le_add_left hle _⟩⟩

section
variable (hs : scInv s.ssrc s.params s.sc) (hst : s.sc.st = .busy)
include hs hst

/-- A symbol step consumes at least one bit, since no run has width 0 (R166 to R168, R182). -/
theorem scTurn_symbol_movesOn (hblk : 0 < s.sc.blk) :
    ∃ t, scTurn s = .next t ∧ scMovesOn s.sc t.sc := by
  obtain ⟨-, -, hbusy⟩ := hs
  obtain ⟨-, -, -, -, hblock⟩ := hbusy hst
  obtain ⟨hone, -, hr, -⟩ := hblock hblk
  by_cases hw : s.params.defaultWidth < s.sc.w.toNat
  · exact ⟨_, scTurn_illegalWidth hst hblk hw, .inl (.inr rfl)⟩
  have hlegal := Nat.le_of_not_lt hw
  cases hread : readBr s.ssrc s.sc.w.toNat s.sc.br with
  | error k => exact ⟨_, scTurn_symbolError hst hblk hlegal hread, .inl (.inr rfl)⟩
  | ok r =>
      obtain ⟨i, hdecode, hi⟩ := decodeSymbol_actsAsSymbol hone hlegal (readBr_res_lt hread)
      have htaken := readBr_bitsAhead hread hr
      have hless : r.bitsAhead < s.sc.br.bitsAhead := by omega
      obtain ⟨t, hexec, hfault | ⟨hbusy', hle⟩⟩ :=
        actsAsSymbol.exec_bitsAhead (s := s.setSc { s.sc with br := r }) hi
          ((symbolEnabled_iff _ _).mpr ⟨hst, hblk, rfl⟩) (readBr_readyInv hread hr).1
      all_goals refine ⟨t, (scTurn_symbol hst hblk hlegal hread hdecode).trans hexec, ?_⟩
      · exact .inl (.inr hfault)
      · exact .inr ⟨hbusy', hle.trans_lt (Nat.add_lt_add_left hless _)⟩

/-- Every turn of a BUSY SC answers, and ends the decode or consumes bits of SSRC (R162). -/
theorem scTurn_movesOn : ∃ t, scTurn s = .next t ∧ scMovesOn s.sc t.sc := by
  rcases Nat.eq_zero_or_pos s.sc.blk with hblk | hblk
  · rcases Nat.eq_zero_or_pos s.sc.rem with hrem | hrem
    · exact ⟨_, (finishedUnitsBecomeDone s).1 hst hblk hrem, .inl (.inl rfl)⟩
    · refine ⟨_, scTurn_chunk hst hblk hrem, ?_⟩
      split
      · exact .inl (.inr rfl)
      · next hin => exact .inr ⟨hst, startBlock_bitsAhead_lt (Nat.le_of_not_lt hin)⟩
  · exact scTurn_symbol_movesOn hs hst hblk

end

end

/-- Settles O31: SC's turns end the decode, and the invariant says of DONE that all samples are out
and of FAULT that ERR holds a kind. -/
theorem everyScDecodeTerminates : Obligations.EveryScDecodeTerminates := by
  intro s hs hst
  obtain ⟨n, t, hrun, ⟨-, -, -, ⟨herr, hdone, -⟩, -⟩, hend⟩ :=
    runTurns_ends (st := fun s => s.sc.st) (fun _ _ => scTurn_inv)
      (fun _ ⟨_, _, _, hsc, _⟩ hst => scTurn_movesOn hsc hst) hs hst
  exact ⟨n, t, hrun, hend.imp (fun h => ⟨h, hdone h⟩) fun h => ⟨h, herr.mp h⟩⟩

/-! ### PD -/

/-- What is ahead of PD: the bytes of PSRC it has not consumed, and of a command in progress the
fields still to do and its end. -/
def Pd.stepsAhead (p : Pd) : Nat :=
  (p.srclen - p.pos) + p.cmd.elim 0 fun k => k.todo.length + 1

/-- Between commands only the bytes ahead count. -/
theorem stepsAhead_lt_of_pos_lt {p q : Pd} (hp : p.cmd = none) (hq : q.cmd = none)
    (hlen : q.srclen = p.srclen) (hpos : p.pos < p.srclen) (hlt : p.pos < q.pos) :
    q.stepsAhead < p.stepsAhead := by
  rw [Pd.stepsAhead, Pd.stepsAhead, hp, hq, hlen]
  exact Nat.sub_lt_sub_left hpos hlt

/-- From `p` to `p'` PD ends, by completion or by the one kind it raises (R223, R224), or stays BUSY
with fewer steps ahead. -/
def pdMovesOn (p p' : Pd) : Prop :=
  (p'.st = .done ∨ (p'.st = .fault ∧ p'.err = .invalidSource)) ∨
    (p'.st = .busy ∧ p'.stepsAhead < p.stepsAhead)

theorem fieldOf_samePattern {y : Slot} {m : Memory} {k : PdCmd} {p : Pd} {q : PdCmd × Pd}
    (h : fieldOf y m k p = some q) : samePattern p q.2 := by
  cases y with
  | note => exact fieldNote_samePattern h
  | ins => exact fieldIns_samePattern h
  | vol => exact fieldVol_samePattern h
  | eff => exact fieldEff_samePattern h

/-- A command ends no earlier than it starts (R97). -/
theorem le_commandEnd (m : Memory) (b : Byte) (p : Pd) : p.pos ≤ commandEnd m b p := by
  rw [commandEnd_eq, fieldsAt, Nat.add_assoc]
  exact Nat.le_add_right _ _

theorem pdOutcome_answers (s : State) (o : Option Pd) : ∃ t, pdOutcome s o = .next t := by
  cases o <;> exact ⟨_, rfl⟩

/-- An operation that fails ends PD with InvalidSource, so the outcome moves PD on if the operation
does where it answers. -/
theorem pdOutcome_movesOn {s : State} {o : Option Pd}
    (ho : ∀ p, o = some p → p.st = .busy ∧ p.stepsAhead < s.pd.stepsAhead) :
    ∃ t, pdOutcome s o = .next t ∧ pdMovesOn s.pd t.pd := by
  cases o with
  | none => exact ⟨_, rfl, .inl (.inr ⟨rfl, rfl⟩)⟩
  | some p => exact ⟨_, rfl, .inr (ho p rfl)⟩

section
variable {s : State}

theorem fetchPd_close {k : PdCmd} (hcmd : s.pd.cmd = some k) (htodo : k.todo = []) :
    fetchPd s = .silent (s.setPd (closeCommand k s.pd)) := by
  simp only [fetchPd, hcmd, htodo]

/-- With a command in progress, the state is the one PD's turn on that command speaks of. -/
theorem State.setPd_cmd {k : PdCmd} (hcmd : s.pd.cmd = some k) :
    s.setPd { s.pd with cmd := some k } = s := by
  rw [← hcmd]; rfl

section
variable (hst : s.pd.st = .busy)
include hst

/-- A turn on a command in progress does a field, of those still to do, or ends the command (R212);
the bytes ahead do not grow. -/
theorem pdTurn_movesOn_of_command {k : PdCmd} (hs : pdInv s.pd) (hcmd : s.pd.cmd = some k) :
    ∃ t, pdTurn s = .next t ∧ pdMovesOn s.pd t.pd := by
  have hahead : s.pd.stepsAhead = (s.pd.srclen - s.pd.pos) + (k.todo.length + 1) := by
    rw [Pd.stepsAhead, hcmd]; rfl
  cases htodo : k.todo with
  | nil =>
      have hturn : pdTurn s = .next (s.setPd (closeCommand k s.pd)) := by
        rw [pdTurn_of_busy hst, fetchPd_close hcmd htodo]; rfl
      refine ⟨_, hturn, .inr ⟨hst, ?_⟩⟩
      rw [hahead]
      exact Nat.add_lt_add_left (Nat.succ_pos _) _
  | cons y ys =>
      obtain ⟨-, -, -, hsel⟩ := hs.cmd_inRow hcmd
      have hturn := pdTurn_nextField (s := s) hst htodo (hsel y (by simp [htodo]))
      rw [State.setPd_cmd hcmd] at hturn
      rw [hturn]
      refine pdOutcome_movesOn fun p hp => ?_
      obtain ⟨q, hfield, rfl⟩ := Option.map_eq_some_iff.mp hp
      obtain ⟨hdone, hbusy⟩ := fieldOf_done hfield
      obtain ⟨-, hlen, -, -, -, -, -, -, hpos, -⟩ := fieldOf_samePattern hfield
      have hrest : q.1.todo = ys := by rw [hdone]; simp [PdCmd.doneIn, htodo]
      refine ⟨hbusy.trans hst, ?_⟩
      rw [hahead, htodo, List.length_cons]
      simp only [Pd.stepsAhead, hlen, hrest, Option.elim_some]
      omega

/-- A row's next command consumes its first byte at least (R210 to R214). -/
theorem pdTurn_movesOn_of_row (hrow : s.pd.row < s.pd.rows) (hcmd : s.pd.cmd = none) :
    ∃ t, pdTurn s = .next t ∧ pdMovesOn s.pd t.pd := by
  have hen := (commandEnabled_iff s.pd).mpr ⟨hst, hrow, hcmd⟩
  by_cases hpos : s.pd.pos < s.pd.srclen
  · by_cases hb : readByte s.psrc s.pd.pos = 0
    · exact ⟨_, (turns_of_rowEnd hen hpos hb).2,
        .inr ⟨hst, stepsAhead_lt_of_pos_lt hcmd hcmd rfl hpos (Nat.lt_succ_self _)⟩⟩
    · rw [(turns_of_command hen hpos hb).2, selectCommand_eq (p := s.pd.pastByte) hb hpos hcmd]
      refine pdOutcome_movesOn fun p hp => ?_
      obtain ⟨-, hq⟩ := Option.ite_none_left_eq_some.mp hp
      obtain rfl := Option.some.inj hq
      exact ⟨hst, stepsAhead_lt_of_pos_lt hcmd hcmd rfl hpos (le_commandEnd _ _ s.pd.pastByte)⟩
  · exact ⟨_, (turns_of_noByte hen (Nat.le_of_not_lt hpos)).2, .inl (.inr ⟨rfl, rfl⟩)⟩

/-- Every turn of a BUSY PD answers, and ends the decode or moves PD on (R212). -/
theorem pdTurn_movesOn (hs : pdInv s.pd) :
    ∃ t, pdTurn s = .next t ∧ pdMovesOn s.pd t.pd := by
  cases hcmd : s.pd.cmd with
  | some k => exact pdTurn_movesOn_of_command hst hs hcmd
  | none =>
      by_cases hrow : s.pd.row < s.pd.rows
      · exact pdTurn_movesOn_of_row hst hrow hcmd
      · obtain ⟨-, -, hbusy, -⟩ := hs
        obtain ⟨hle, -⟩ := hbusy hst
        have hlast := Nat.le_antisymm hle (Nat.le_of_not_lt hrow)
        exact ⟨_, (finishedUnitsBecomeDone s).2 hst hcmd hlast, .inl (.inl rfl)⟩

end

end

/-- Settles O42: PD's turns end the decode, and the invariant says of DONE that all rows are out. -/
theorem everyPdDecodeTerminates : Obligations.EveryPdDecodeTerminates := by
  intro s hs hst
  obtain ⟨n, t, hrun, ⟨-, -, -, -, -, hdone, -⟩, hend⟩ :=
    runTurns_ends (st := fun s => s.pd.st) (fun _ _ => pdTurn_inv)
      (fun _ ⟨_, _, _, _, hpd⟩ hst => pdTurn_movesOn hst hpd) hs hst
  exact ⟨n, t, hrun, hend.imp_left fun h => ⟨h, (hdone h).1⟩⟩

/-! ### Every turn answers -/

section
variable {s : State} (hs : Inv s)
include hs

theorem scTurn_answers : ∃ t, scTurn s = .next t := by
  obtain ⟨-, -, -, hsc, -⟩ := hs
  by_cases hst : s.sc.st = .busy
  · exact (scTurn_movesOn hsc hst).imp fun _ => And.left
  · exact ⟨s, scTurn_of_not_busy hst⟩

theorem pdTurn_answers : ∃ t, pdTurn s = .next t := by
  obtain ⟨-, -, -, -, hpd⟩ := hs
  by_cases hst : s.pd.st = .busy
  · exact (pdTurn_movesOn hst hpd).imp fun _ => And.left
  · exact ⟨s, pdTurn_idle hst⟩

/-- Where no command is due the finer view's turn is PD's turn (R212). -/
theorem pdBeginTurn_answers : ∃ t, pdBeginTurn s = .next t := by
  by_cases hen : commandEnabled s.pd = true
  · by_cases hpos : s.pd.pos < s.pd.srclen
    · by_cases hb : readByte s.psrc s.pd.pos = 0
      · exact ⟨_, (turns_of_rowEnd hen hpos hb).1⟩
      · rw [(turns_of_command hen hpos hb).1]
        exact pdOutcome_answers s _
    · exact ⟨_, (turns_of_noByte hen (Nat.le_of_not_lt hpos)).1⟩
  · rw [pdBeginTurn, fetchBegin, if_neg hen]
    exact pdTurn_answers hs

/-- A `sync` turn and an empty agenda let a BUSY unit step, and pass with none BUSY. -/
theorem waiting_answers (u : State) : ∃ t, (if s.sc.st.isBusy then scTurn s
    else if s.pd.st.isBusy then pdTurn s else .next u) = .next t := by
  split_ifs
  · exact scTurn_answers hs
  · exact pdTurn_answers hs
  · exact ⟨u, rfl⟩

/-- A step that is no host move is the turn of a unit, or a wait. -/
theorem step_answers (hhost : ∀ m l, s.agenda ≠ .host m :: l) : ∃ t, step s = .next t := by
  unfold step
  split
  · next m l hl => exact absurd hl (hhost m l)
  · next l _ => exact scTurn_answers (hs.setAgenda l)
  · next l _ => exact pdTurn_answers (hs.setAgenda l)
  · next l _ => exact pdBeginTurn_answers (hs.setAgenda l)
  · exact waiting_answers hs _
  · exact waiting_answers hs s

end

/-- Settles O55: each turn answers whether its unit is BUSY or not, and a step is one of them. -/
theorem scAndPdTurnsAlwaysAnswer : Obligations.ScAndPdTurnsAlwaysAnswer := fun _ hs =>
  ⟨scTurn_answers hs, pdTurn_answers hs, pdBeginTurn_answers hs, step_answers hs⟩

/-! ### Raising an error, and the start commands after it -/

/-- Settles O43: one raiser after the other; the surroundings are kept by every raiser. -/
theorem raiseFailsItsUnitAndNoOther : Obligations.RaiseFailsItsUnitAndNoOther := by
  refine fun k s => ⟨?br0, ?sc, ?scBr, ?pd, fun who => ?surroundings⟩
  case br0 =>
    exact ⟨raise_br0_st k s, raise_br0_err k s, raise_br0_res k s, raise_br0_sc k s,
      raise_br0_pd k s⟩
  case sc => exact ⟨raise_sc_st k s, raise_sc_err k s, raise_sc_br0 k s, raise_sc_pd k s⟩
  case scBr =>
    exact ⟨raise_scBr_st k s, raise_scBr_err k s, raise_scBr_br_st k s, raise_scBr_br_err k s,
      raise_scBr_br0 k s, raise_scBr_pd k s⟩
  case pd => exact ⟨raise_pd_st k s, raise_pd_err k s, raise_pd_br0 k s, raise_pd_sc k s⟩
  case surroundings =>
    exact ⟨raise_bsrc who k s, raise_ssrc who k s, raise_psrc who k s, raise_biases who k s,
      raise_agenda who k s⟩

/-- Settles O44: the codes are those of the table of R260, kind by kind. -/
theorem errorCodesOfTheKinds : Obligations.ErrorCodesOfTheKinds := ⟨rfl, rfl, rfl, rfl, rfl⟩

/-- A started unit is DONE or BUSY (R47, R48). -/
theorem startStatus_ne_fault (n : Nat) : startStatus n ≠ .fault := by
  unfold startStatus
  split <;> simp

/-- Settles O45: a failed unit is not BUSY, so its start command runs and writes ST and ERR. -/
theorem startCommandsReviveFailedUnits : Obligations.StartCommandsReviveFailedUnits := by
  refine fun s => ⟨fun _ len => ?br0, fun hst n d o k => ?sc, fun hst r k => ?pd⟩
  case br0 => exact ⟨_, exec_brOpen len s, rfl, rfl⟩
  case sc =>
    exact ⟨_, execScDecode_of_not_busy n d o k (by simp [hst]), startStatus_ne_fault n, rfl⟩
  case pd => exact ⟨_, execPdDecode_of_not_busy r k (by simp [hst]), startStatus_ne_fault r, rfl⟩

end Sys2Proof.Machine
end

section
/-! Commands without a step (70_reset_and_hazards.md R306): a start command on a BUSY unit is
refused, whatever its operands; the read of a CLOSED instance is `exec_brRead_of_closed`. -/

namespace Sys2Proof.Machine

/-- A BUSY SC has no start (R306). -/
theorem execScDecode_of_busy {s : State} (slen : Nat) (depth16 so : Bool) (srclen : Nat)
    (h : s.sc.st = .busy) : exec (.scDecode slen depth16 so srclen) s = .refused .startOnBusy :=
  if_pos ((isBusy_iff _).mpr h)

/-- A BUSY PD has no start (R306). -/
theorem execPdDecode_of_busy {s : State} (rows srclen : Nat) (h : s.pd.st = .busy) :
    exec (.pdDecode rows srclen) s = .refused .startOnBusy :=
  if_pos ((isBusy_iff _).mpr h)

/-- Settles O14: each command tests its unit's status before it looks at an operand. -/
theorem commandsWithoutAStepAreRefused : Obligations.CommandsWithoutAStepAreRefused := by
  refine fun s => ⟨fun hst w => ?brRead, fun hst n d o k => ?scDecode, fun hst r k => ?pdDecode⟩
  case brRead => exact exec_brRead_of_closed hst
  case scDecode => exact execScDecode_of_busy n d o k hst
  case pdDecode => exact execPdDecode_of_busy r k hst

end Sys2Proof.Machine
end
